-- ==== Sys2Proof/Word.lean ====
section
/-! DEFINITION. The words of the machine: bytes, 32-bit words and 64-bit words (10_state.md R15, R24, R29). -/

namespace Sys2Proof

/-- One byte of memory (10_state.md R29). -/
abbrev Byte := BitVec 8

/-- A general-purpose register, an address, an instruction (R15, R29, R55). -/
abbrev Word := BitVec 32

/-- A SIMD&FP register in its 64-bit view, and the address of a fault record (R24, R29). -/
abbrev DWord := BitVec 64

end Sys2Proof
end

