-- ==== Sys2Proof/Syntax.lean ====
section
/-! DEFINITION. The instructions: one constructor for each of the 24 rows of spec/opcode_table.json (00_scope.md R4). -/

namespace Sys2Proof

/-- The instruction set the PE is executing (00_scope.md R8, D3). -/
inductive ISet where
  | a32
  | t32
  deriving DecidableEq, Repr

/-- `<size>`: the width of an element, 8, 16, 32 or 64 bits (30_encoding.md R61). -/
inductive ElemSize where
  | b8
  | b16
  | b32
  | b64
  deriving DecidableEq, Repr

/-- `<align>`: omitted, or a whole-transfer alignment of 64, 128 or 256 bits (30_encoding.md R62). -/
inductive Align where
  | omitted
  | a64
  | a128
  | a256
  deriving DecidableEq, Repr

/-- How many registers `<list>` names; it selects the class (30_encoding.md R59). -/
inductive ListLen where
  | one
  | two
  | three
  | four
  deriving DecidableEq, Repr

/-- The number of a SIMD&FP register, `d = UInt(D::Vd)` (30_encoding.md R63). -/
abbrev DReg := Fin 32

/-- The number of a general-purpose register, `UInt(Rn)` or `UInt(Rm)` (10_state.md R15). -/
abbrev RReg := Fin 16

/-- VST1 (multiple single elements). The constructor's name is its row's name in the opcode table:
class A1 to A4 or T1 to T4, then `Nowb` (`Rm = 1111`), `Posti` (`Rm = 1101`) or `Postr` (any other `Rm`). -/
inductive Instr where
  /-- R95 -/
  | vst1A1Nowb (dd : DReg) (rn : RReg) (size : ElemSize) (align : Align)
  /-- R96 -/
  | vst1A1Posti (dd : DReg) (rn : RReg) (size : ElemSize) (align : Align)
  /-- R97 -/
  | vst1A1Postr (dd : DReg) (rn : RReg) (size : ElemSize) (align : Align) (rm : RReg)
  /-- R98 -/
  | vst1A2Nowb (dd : DReg) (rn : RReg) (size : ElemSize) (align : Align)
  /-- R99 -/
  | vst1A2Posti (dd : DReg) (rn : RReg) (size : ElemSize) (align : Align)
  /-- R100 -/
  | vst1A2Postr (dd : DReg) (rn : RReg) (size : ElemSize) (align : Align) (rm : RReg)
  /-- R101 -/
  | vst1A3Nowb (dd : DReg) (rn : RReg) (size : ElemSize) (align : Align)
  /-- R102 -/
  | vst1A3Posti (dd : DReg) (rn : RReg) (size : ElemSize) (align : Align)
  /-- R103 -/
  | vst1A3Postr (dd : DReg) (rn : RReg) (size : ElemSize) (align : Align) (rm : RReg)
  /-- R104 -/
  | vst1A4Nowb (dd : DReg) (rn : RReg) (size : ElemSize) (align : Align)
  /-- R105 -/
  | vst1A4Posti (dd : DReg) (rn : RReg) (size : ElemSize) (align : Align)
  /-- R106 -/
  | vst1A4Postr (dd : DReg) (rn : RReg) (size : ElemSize) (align : Align) (rm : RReg)
  /-- R107 -/
  | vst1T1Nowb (dd : DReg) (rn : RReg) (size : ElemSize) (align : Align)
  /-- R108 -/
  | vst1T1Posti (dd : DReg) (rn : RReg) (size : ElemSize) (align : Align)
  /-- R109 -/
  | vst1T1Postr (dd : DReg) (rn : RReg) (size : ElemSize) (align : Align) (rm : RReg)
  /-- R110 -/
  | vst1T2Nowb (dd : DReg) (rn : RReg) (size : ElemSize) (align : Align)
  /-- R111 -/
  | vst1T2Posti (dd : DReg) (rn : RReg) (size : ElemSize) (align : Align)
  /-- R112 -/
  | vst1T2Postr (dd : DReg) (rn : RReg) (size : ElemSize) (align : Align) (rm : RReg)
  /-- R113 -/
  | vst1T3Nowb (dd : DReg) (rn : RReg) (size : ElemSize) (align : Align)
  /-- R114 -/
  | vst1T3Posti (dd : DReg) (rn : RReg) (size : ElemSize) (align : Align)
  /-- R115 -/
  | vst1T3Postr (dd : DReg) (rn : RReg) (size : ElemSize) (align : Align) (rm : RReg)
  /-- R116 -/
  | vst1T4Nowb (dd : DReg) (rn : RReg) (size : ElemSize) (align : Align)
  /-- R117 -/
  | vst1T4Posti (dd : DReg) (rn : RReg) (size : ElemSize) (align : Align)
  /-- R118 -/
  | vst1T4Postr (dd : DReg) (rn : RReg) (size : ElemSize) (align : Align) (rm : RReg)
  deriving DecidableEq, Repr

/-- The decoded fields that all 24 encodings share, as the decoder of 30_encoding.md R64 returns them and as
`ExecVST1m` of 40_vst1_operation.md R94 takes them. `rm` is the field `Rm` as a number: 15 for `_nowb`, 13 for
`_posti`, the index register for `_postr` (R60). -/
structure Form where
  iset  : ISet
  len   : ListLen
  dd    : DReg
  rn    : RReg
  size  : ElemSize
  align : Align
  rm    : RReg
  deriving DecidableEq, Repr

end Sys2Proof
end

