-- ==== Sys2Proof/WellFormed.lean ====
section
/-! DEFINITION. Which terms of Instr an encoding can name. The bounds of the register numbers stand in their types;
the one further check is the index register's (30_encoding.md R60, R74). -/

namespace Sys2Proof

/-- `<Rm>` "cannot be `R13` or `R15`, whose numbers select the other two encodings" (30_encoding.md R74, R60). -/
def RReg.isIndex (rm : RReg) : Bool := rm != 13 && rm != 15

/-- An instruction is well-formed when its index register, if it has one, is one of `R0` to `R12` and `R14`. The
UNDEFINED and UNPREDICTABLE field values are well-formed: they decode, and are dealt with at execution (R64). -/
def Instr.wellFormed : Instr → Bool
  | .vst1A1Nowb _ _ _ _ => true
  | .vst1A1Posti _ _ _ _ => true
  | .vst1A1Postr _ _ _ _ rm => rm.isIndex
  | .vst1A2Nowb _ _ _ _ => true
  | .vst1A2Posti _ _ _ _ => true
  | .vst1A2Postr _ _ _ _ rm => rm.isIndex
  | .vst1A3Nowb _ _ _ _ => true
  | .vst1A3Posti _ _ _ _ => true
  | .vst1A3Postr _ _ _ _ rm => rm.isIndex
  | .vst1A4Nowb _ _ _ _ => true
  | .vst1A4Posti _ _ _ _ => true
  | .vst1A4Postr _ _ _ _ rm => rm.isIndex
  | .vst1T1Nowb _ _ _ _ => true
  | .vst1T1Posti _ _ _ _ => true
  | .vst1T1Postr _ _ _ _ rm => rm.isIndex
  | .vst1T2Nowb _ _ _ _ => true
  | .vst1T2Posti _ _ _ _ => true
  | .vst1T2Postr _ _ _ _ rm => rm.isIndex
  | .vst1T3Nowb _ _ _ _ => true
  | .vst1T3Posti _ _ _ _ => true
  | .vst1T3Postr _ _ _ _ rm => rm.isIndex
  | .vst1T4Nowb _ _ _ _ => true
  | .vst1T4Posti _ _ _ _ => true
  | .vst1T4Postr _ _ _ _ rm => rm.isIndex

end Sys2Proof
end

