-- ==== Sys2Proof/Decode.lean ====
section
/-! DEFINITION. The decoder (30_encoding.md R55 to R68), total on any bytes, and after it the encoder (R76). -/

namespace Sys2Proof

/-- Why bytes name no instruction of this spec. -/
inductive NotDecoded where
  /-- `NotThisInstruction` of 30_encoding.md R64: the 32 bits are none of the 24 encodings (R68). -/
  | notThisInstruction
  /-- Fewer than the four bytes every encoding has (R55, R70). -/
  | tooFewBytes
  deriving DecidableEq, Repr

/-! ## The fields (R58 to R63) -/

/-- The constant bits 31:23 (R56, R57). -/
def ISet.fixedBits : ISet → BitVec 9
  | .a32 => 0b111101000#9
  | .t32 => 0b111110010#9

/-- `itype`, bits 11:8 (R59). -/
def ListLen.itype : ListLen → BitVec 4
  | .one => 0b0111#4
  | .two => 0b1010#4
  | .three => 0b0110#4
  | .four => 0b0010#4

/-- The register count `itype` stands for; every other value is not this instruction (R59, R68). -/
def ListLen.ofItype (b : BitVec 4) : Option ListLen :=
  if b = 0b0111#4 then some .one
  else if b = 0b1010#4 then some .two
  else if b = 0b0110#4 then some .three
  else if b = 0b0010#4 then some .four
  else none

/-- `size`, bits 7:6 (R61). -/
def ElemSize.code : ElemSize → BitVec 2
  | .b8 => 0b00#2
  | .b16 => 0b01#2
  | .b32 => 0b10#2
  | .b64 => 0b11#2

/-- The element size that `size` stands for (R61). -/
def ElemSize.ofCode (b : BitVec 2) : ElemSize :=
  if b = 0b00#2 then .b8 else if b = 0b01#2 then .b16 else if b = 0b10#2 then .b32 else .b64

/-- `align`, bits 5:4 (R62). -/
def Align.code : Align → BitVec 2
  | .omitted => 0b00#2
  | .a64 => 0b01#2
  | .a128 => 0b10#2
  | .a256 => 0b11#2

/-- The alignment that `align` stands for (R62). -/
def Align.ofCode (b : BitVec 2) : Align :=
  if b = 0b00#2 then .omitted else if b = 0b01#2 then .a64 else if b = 0b10#2 then .a128 else .a256

/-- `d = UInt(D::Vd)`, `D` the most significant bit (R63). -/
def DReg.ofBits (D : BitVec 1) (Vd : BitVec 4) : DReg := (D ++ Vd).toFin

/-- The five bits `D::Vd` of a register number (R63). -/
def DReg.bits (dd : DReg) : BitVec 5 := BitVec.ofFin dd

/-- `UInt` of a 4-bit register field (R58). -/
def RReg.ofBits (b : BitVec 4) : RReg := b.toFin

/-- The 4-bit field of a register number (R58). -/
def RReg.bits (rn : RReg) : BitVec 4 := BitVec.ofFin rn

/-! ## Decoding -/

/-- The instruction of decoded fields: the class is the instruction set's letter and the register count, the variant
is told apart by `Rm` (R60, R64). -/
def Form.toInstr (f : Form) : Instr :=
  match f.iset, f.len with
  | .a32, .one =>
    if f.rm = 15 then .vst1A1Nowb f.dd f.rn f.size f.align
    else if f.rm = 13 then .vst1A1Posti f.dd f.rn f.size f.align
    else .vst1A1Postr f.dd f.rn f.size f.align f.rm
  | .a32, .two =>
    if f.rm = 15 then .vst1A2Nowb f.dd f.rn f.size f.align
    else if f.rm = 13 then .vst1A2Posti f.dd f.rn f.size f.align
    else .vst1A2Postr f.dd f.rn f.size f.align f.rm
  | .a32, .three =>
    if f.rm = 15 then .vst1A3Nowb f.dd f.rn f.size f.align
    else if f.rm = 13 then .vst1A3Posti f.dd f.rn f.size f.align
    else .vst1A3Postr f.dd f.rn f.size f.align f.rm
  | .a32, .four =>
    if f.rm = 15 then .vst1A4Nowb f.dd f.rn f.size f.align
    else if f.rm = 13 then .vst1A4Posti f.dd f.rn f.size f.align
    else .vst1A4Postr f.dd f.rn f.size f.align f.rm
  | .t32, .one =>
    if f.rm = 15 then .vst1T1Nowb f.dd f.rn f.size f.align
    else if f.rm = 13 then .vst1T1Posti f.dd f.rn f.size f.align
    else .vst1T1Postr f.dd f.rn f.size f.align f.rm
  | .t32, .two =>
    if f.rm = 15 then .vst1T2Nowb f.dd f.rn f.size f.align
    else if f.rm = 13 then .vst1T2Posti f.dd f.rn f.size f.align
    else .vst1T2Postr f.dd f.rn f.size f.align f.rm
  | .t32, .three =>
    if f.rm = 15 then .vst1T3Nowb f.dd f.rn f.size f.align
    else if f.rm = 13 then .vst1T3Posti f.dd f.rn f.size f.align
    else .vst1T3Postr f.dd f.rn f.size f.align f.rm
  | .t32, .four =>
    if f.rm = 15 then .vst1T4Nowb f.dd f.rn f.size f.align
    else if f.rm = 13 then .vst1T4Posti f.dd f.rn f.size f.align
    else .vst1T4Postr f.dd f.rn f.size f.align f.rm

/-- The fields of an instruction: for `_nowb` the field `Rm` is 15, for `_posti` it is 13 (R60). -/
def Instr.form : Instr → Form
  | .vst1A1Nowb dd rn size align => ⟨.a32, .one, dd, rn, size, align, 15⟩
  | .vst1A1Posti dd rn size align => ⟨.a32, .one, dd, rn, size, align, 13⟩
  | .vst1A1Postr dd rn size align rm => ⟨.a32, .one, dd, rn, size, align, rm⟩
  | .vst1A2Nowb dd rn size align => ⟨.a32, .two, dd, rn, size, align, 15⟩
  | .vst1A2Posti dd rn size align => ⟨.a32, .two, dd, rn, size, align, 13⟩
  | .vst1A2Postr dd rn size align rm => ⟨.a32, .two, dd, rn, size, align, rm⟩
  | .vst1A3Nowb dd rn size align => ⟨.a32, .three, dd, rn, size, align, 15⟩
  | .vst1A3Posti dd rn size align => ⟨.a32, .three, dd, rn, size, align, 13⟩
  | .vst1A3Postr dd rn size align rm => ⟨.a32, .three, dd, rn, size, align, rm⟩
  | .vst1A4Nowb dd rn size align => ⟨.a32, .four, dd, rn, size, align, 15⟩
  | .vst1A4Posti dd rn size align => ⟨.a32, .four, dd, rn, size, align, 13⟩
  | .vst1A4Postr dd rn size align rm => ⟨.a32, .four, dd, rn, size, align, rm⟩
  | .vst1T1Nowb dd rn size align => ⟨.t32, .one, dd, rn, size, align, 15⟩
  | .vst1T1Posti dd rn size align => ⟨.t32, .one, dd, rn, size, align, 13⟩
  | .vst1T1Postr dd rn size align rm => ⟨.t32, .one, dd, rn, size, align, rm⟩
  | .vst1T2Nowb dd rn size align => ⟨.t32, .two, dd, rn, size, align, 15⟩
  | .vst1T2Posti dd rn size align => ⟨.t32, .two, dd, rn, size, align, 13⟩
  | .vst1T2Postr dd rn size align rm => ⟨.t32, .two, dd, rn, size, align, rm⟩
  | .vst1T3Nowb dd rn size align => ⟨.t32, .three, dd, rn, size, align, 15⟩
  | .vst1T3Posti dd rn size align => ⟨.t32, .three, dd, rn, size, align, 13⟩
  | .vst1T3Postr dd rn size align rm => ⟨.t32, .three, dd, rn, size, align, rm⟩
  | .vst1T4Nowb dd rn size align => ⟨.t32, .four, dd, rn, size, align, 15⟩
  | .vst1T4Posti dd rn size align => ⟨.t32, .four, dd, rn, size, align, 13⟩
  | .vst1T4Postr dd rn size align rm => ⟨.t32, .four, dd, rn, size, align, rm⟩

/-- The instruction set an instruction belongs to. -/
def Instr.iset (i : Instr) : ISet := i.form.iset

/-- The decoder of R64: looks at the 32 bits and the instruction set, at no other state. -/
def decodeForm (iset : ISet) (w : Word) : Except NotDecoded Form :=
  if w.extractLsb' 23 9 ≠ iset.fixedBits then .error .notThisInstruction
  else if w.extractLsb' 20 2 ≠ 0b00#2 then .error .notThisInstruction
  else match ListLen.ofItype (w.extractLsb' 8 4) with
    | none => .error .notThisInstruction
    | some len => .ok
      { iset := iset
        len := len
        dd := DReg.ofBits (w.extractLsb' 22 1) (w.extractLsb' 12 4)
        rn := RReg.ofBits (w.extractLsb' 16 4)
        size := ElemSize.ofCode (w.extractLsb' 6 2)
        align := Align.ofCode (w.extractLsb' 4 2)
        rm := RReg.ofBits (w.extractLsb' 0 4) }

/-- The instruction of a 32-bit value, in the instruction set it is fetched in (R6, R64). -/
def decode (iset : ISet) (w : Word) : Except NotDecoded Instr :=
  match decodeForm iset w with
  | .error e => .error e
  | .ok f => .ok f.toInstr

/-- How four bytes in ascending address order make `instr`: in A32 one little-endian word, in T32 two little-endian
halfwords, the first of them in bits 31:16 (20_memory.md R51). -/
def instrOfBytes (iset : ISet) (b0 b1 b2 b3 : Byte) : Word :=
  match iset with
  | .a32 => b3 ++ b2 ++ b1 ++ b0
  | .t32 => b1 ++ b0 ++ b3 ++ b2

/-- The decoder on bytes in ascending address order: the instruction and the bytes after it. It always consumes four
bytes (R55, R70). -/
def decodeBytes (iset : ISet) : List Byte → Except NotDecoded (Instr × List Byte)
  | b0 :: b1 :: b2 :: b3 :: rest =>
    match decode iset (instrOfBytes iset b0 b1 b2 b3) with
    | .error e => .error e
    | .ok i => .ok (i, rest)
  | _ => .error .tooFewBytes

/-! ## Encoding -/

/-- The 32 bits of the fields, in the order of the formats of R56 and R57. -/
def encodeForm (f : Form) : Word :=
  f.iset.fixedBits ++ (f.dd.bits.extractLsb' 4 1) ++ 0b00#2 ++ f.rn.bits ++ (f.dd.bits.extractLsb' 0 4) ++
    f.len.itype ++ f.size.code ++ f.align.code ++ f.rm.bits

/-- The 32-bit value `instr` of an instruction (R76). -/
def encode (i : Instr) : Word := encodeForm i.form

/-- The four bytes of `instr` as memory holds them, in ascending address order (20_memory.md R51). -/
def bytesOfInstr (iset : ISet) (w : Word) : List Byte :=
  match iset with
  | .a32 => [w.extractLsb' 0 8, w.extractLsb' 8 8, w.extractLsb' 16 8, w.extractLsb' 24 8]
  | .t32 => [w.extractLsb' 16 8, w.extractLsb' 24 8, w.extractLsb' 0 8, w.extractLsb' 8 8]

/-- The bytes of an instruction as memory holds them. -/
def encodeBytes (i : Instr) : List Byte := bytesOfInstr i.iset (encode i)

/-! ## Words of the opcode table -/

/-- The instruction set whose constant bits 31:23 a word of the opcode table carries; the two differ (R65). A word
that carries neither is read as A32, and no decoder takes it. -/
def tableISet (w : Word) : ISet :=
  if w.extractLsb' 23 9 = ISet.t32.fixedBits then .t32 else .a32

/-- The 32-bit value of `nbits` bits numbered as the opcode table numbers them, the bits above `nbits` zero. -/
def tableWord (nbits w : Nat) : Word := BitVec.ofNat 32 (w % 2 ^ nbits)

/-- What the decoder reads from an instruction of the opcode table, given as its bits: the word is laid out in bytes
as memory holds it and the bytes are decoded. -/
def decodeTableWord (nbits w : Nat) : Option Instr :=
  let instr := tableWord nbits w
  let iset := tableISet instr
  match decodeBytes iset (bytesOfInstr iset instr) with
  | .ok (i, _) => some i
  | .error _ => none

end Sys2Proof
end

