-- ==== Sys2Proof/Config.lean ====
section
/-! DEFINITION. What the source leaves to the implementation or to the launch (00_scope.md R8), as types of plain data,
and the free values (R10). -/

namespace Sys2Proof

/-- `PSTATE.EL` (10_state.md R23). -/
inductive EL where
  | el0
  | el1
  | el2
  | el3
  deriving DecidableEq, Repr

/-- The three results of `CheckAdvSIMDEnabled()` (00_scope.md R8, 40_vst1_operation.md R83). -/
inductive AdvSIMDAccess where
  | enabled
  | undefined
  | hypTrap
  deriving DecidableEq, Repr

/-- The configuration function `AdvSIMDAccess` as a table: it "may depend on `EL` and on nothing else in the model's
state" (40_vst1_operation.md R83). -/
structure AccessTable where
  el0 : AdvSIMDAccess
  el1 : AdvSIMDAccess
  el2 : AdvSIMDAccess
  el3 : AdvSIMDAccess
  deriving DecidableEq, Repr

/-- `cu_dregs`: the constraint taken when `d + regs > 32` (40_vst1_operation.md R81). -/
inductive CuDregs where
  | undef
  | nop
  | unknown
  | fault
  deriving DecidableEq, Repr

/-- A range of byte addresses, `base` up to but not including `base + size`. -/
structure Region where
  base : Nat
  size : Nat
  deriving DecidableEq, Repr

/-- The kinds of abort that `MemAdmit` can answer (20_memory.md R45, R54; 60_exceptions.md R123, R136). The set is
open, so a number names any further kind. `Alignment` is reserved (R45) and is not among them. -/
inductive AbortKind where
  | unallocated
  | sideEffects
  | translation
  | accessFlag
  | domain
  | permission
  | external
  | watchpoint
  | other (code : Nat)
  deriving DecidableEq, Repr

/-- What `MemAdmit` answers (20_memory.md R45). -/
inductive Verdict where
  | ok
  | abort (kind : AbortKind)
  deriving DecidableEq, Repr

/-- Which accesses a rule concerns: those that touch its range, or those whose first byte lies in it. -/
inductive Reach where
  | touches
  | startsIn
  deriving DecidableEq, Repr

/-- One line of `MemAdmit` as plain data: accesses of the given widths and privilege that reach the range abort with
`kind`. With `startsIn` a list of such rules is every function of (address, width, privilege); assumption log entry 5. -/
structure AdmitRule where
  range        : Region
  reach        : Reach
  width1       : Bool
  width2       : Bool
  width4       : Bool
  privileged   : Bool
  unprivileged : Bool
  kind         : AbortKind
  deriving DecidableEq, Repr

/-- The configuration record of 10_state.md R34. No rule writes any of it. -/
structure Configuration where
  /-- `align_enforced`, the result of `AlignmentEnforced()` (20_memory.md R40). -/
  alignEnforced : Bool
  /-- `AdvSIMDAccess`, the result of `CheckAdvSIMDEnabled()` (40_vst1_operation.md R83). -/
  access : AccessTable
  /-- The allocated address ranges (20_memory.md R35, R48). -/
  regions : List Region
  /-- The rest of `MemAdmit` (20_memory.md R45): the first rule that an access meets decides. -/
  rules : List AdmitRule
  /-- `cu_dregs` (40_vst1_operation.md R81). -/
  cuDregs : CuDregs
  /-- `text`, the immutable bytes that hold the program (20_memory.md R53). -/
  text : Region
  /-- `end_pc`, the address at which a run ends (70_reset_and_hazards.md R144). -/
  endPc : Word
  deriving DecidableEq, Repr

namespace Config

/-- Free value: the k-th UNKNOWN byte (00_scope.md R10, 70_reset_and_hazards.md R148). Assumption log entry 7. -/
opaque unknownByte : Nat → Byte

/-- Free value: the k-th UNKNOWN general-purpose register value (40_vst1_operation.md R81). Log entry 7. -/
opaque unknownWord : Nat → Word

/-- Free value: the k-th UNKNOWN SIMD&FP register value (40_vst1_operation.md R81). Log entry 7. -/
opaque unknownDWord : Nat → DWord

/-- DESIGN CHOICE (unsafe): what a byte of allocated memory that nothing has written reads as; the source gives memory
no contents (10_state.md R32). Log entry 4. -/
def unlistedByte : Byte := 0x00#8

/-- DESIGN CHOICE (unsafe): the program counter at reset; the source gives none (10_state.md R32). The value is the
launch value at the head of 95_test_vectors.md. Log entry 2. -/
def resetPc : Word := 0x00008000#32

/-- DESIGN CHOICE (unsafe): the configuration at reset; the source gives none (R8, R32). Advanced SIMD enabled at every
level, alignment not enforced, the whole address space allocated and admitted, `text` as at the head of
95_test_vectors.md, and `cu_dregs = UNKNOWN`, which runs. Log entries 2, 3 and 6. -/
def resetConfiguration : Configuration where
  alignEnforced := false
  access := ⟨.enabled, .enabled, .enabled, .enabled⟩
  regions := [⟨0, 2 ^ 32⟩]
  rules := []
  cuDregs := .unknown
  text := ⟨0x8000, 0x100⟩
  endPc := 0x00008100#32

end Config

end Sys2Proof
end

