-- ==== Sys2Proof/Machine/State.lean ====
section
/-! DEFINITION. The state of the machine (10_state.md R34), the reasons a step can stop (60_exceptions.md R119), and the
state after reset. -/

namespace Sys2Proof.Machine

/-- The written contents of memory, as a list of cells whose addresses rise strictly. An address not listed reads as
`Config.unlistedByte` where it is allocated, and holds no byte where it is not: the partial map of 20_memory.md R35 is
`State.byte` (assumption log entry 4). -/
abbrev Memory := List Host.Cell

/-- The names of what a launch state may leave `unwritten` (10_state.md R31): a register or a condition flag. -/
inductive RegName where
  | r (i : RReg)
  | d (i : DReg)
  | n
  | z
  | c
  | v
  deriving DecidableEq, Repr

/-- The marks `unwritten` of 10_state.md R31, R34, as plain data beside the registers: a marked register holds no value
of its own, and what stands in its place is never read (assumption log entry 16). -/
structure Unwritten where
  r : Vector Bool 16
  d : Vector Bool 32
  n : Bool
  z : Bool
  c : Bool
  v : Bool
  deriving DecidableEq, Repr

/-- Every register and every flag holds a value. -/
def Unwritten.none : Unwritten where
  r := Vector.replicate 16 false
  d := Vector.replicate 32 false
  n := false
  z := false
  c := false
  v := false

/-- The machine's state: the record of 10_state.md R34, with the configuration record as plain data beside it. -/
structure State where
  /-- `R[0] .. R[15]` (R15). `R[15]` is never read or written by a VST1 (R80, R141). -/
  r : Vector Word 16
  /-- `D[0] .. D[31]` (R24). -/
  d : Vector DWord 32
  /-- The address of the instruction being executed (R19). -/
  pc : Word
  /-- The condition flag `N` (R21). -/
  n : Bool
  /-- The condition flag `Z` (R21). -/
  z : Bool
  /-- The condition flag `C` (R21). -/
  c : Bool
  /-- The condition flag `V` (R21). -/
  v : Bool
  /-- Which of the registers and flags are `unwritten` (R31). -/
  unwritten : Unwritten
  /-- `ITSTATE` (R22). -/
  itstate : BitVec 8
  /-- `PSTATE.EL` (R23). -/
  el : EL
  /-- The current instruction set (R8, R23). -/
  iset : ISet
  /-- The result of `BigEndian(AccessType_ASIMD)` (20_memory.md R36). -/
  bigendian : Bool
  /-- The written contents of memory (R29, 20_memory.md R35). -/
  mem : Memory
  /-- The configuration; no step writes it (00_scope.md R8). -/
  cfg : Configuration
  /-- The model's own: how many UNKNOWN values have been drawn (00_scope.md R10; assumption log entry 7). -/
  draws : Nat
  deriving DecidableEq, Repr

/-- The kind of an access; VST1 only stores (10_state.md R29, R30). -/
inductive MemOp where
  | store
  deriving DecidableEq, Repr

/-- The access descriptor `CreateAccDescASIMD(MemOp_STORE, nontemporal, tagchecked, privileged)` (10_state.md R30,
40_vst1_operation.md R84). -/
structure AccessDescriptor where
  memop       : MemOp
  nontemporal : Bool
  tagchecked  : Bool
  privileged  : Bool
  deriving DecidableEq, Repr

/-- The causes of `Unpredictable` (60_exceptions.md R124). -/
inductive UnpredictableCause where
  /-- `n == 15` (40_vst1_operation.md R80). -/
  | baseIsPC
  /-- `d + regs > 32` with `cu_dregs = fault` (R81). -/
  | regListPastD31
  /-- The footprint passes `0xFFFF_FFFF` (20_memory.md R46). -/
  | addressWrap
  deriving DecidableEq, Repr

/-- The faults (60_exceptions.md R119). Each is terminal: the spec describes no exception entry (R7, R128). All are
safe: where the hardware would go on into a handler, the model says nothing. -/
inductive Fault where
  /-- Undefined Instruction (R120): raised by the Decode block (R82), the enable check (R83) and `cu_dregs = UNDEF`
  (R81). Safe. -/
  | undefinedInstruction
  /-- The trap to Hyp mode (R121): raised by the enable check (R83). Safe. -/
  | hypTrap
  /-- `DataAbort(Alignment)` (R122): raised by the whole-transfer check (R85) and the element check (20_memory.md R40).
  Safe. -/
  | alignmentAbort (address : DWord) (desc : AccessDescriptor)
  /-- `DataAbort(kind)` of the memory system (R123): raised by a store that `MemAdmit` aborts (20_memory.md R45). `left`
  is the state it leaves: the admitted bytes of the footprint UNKNOWN, nothing else changed (R47). Safe. -/
  | memoryAbort (kind : AbortKind) (address : DWord) (desc : AccessDescriptor) (left : State)
  /-- Behaviour the architecture does not fix (R124). Safe. -/
  | unpredictable (cause : UnpredictableCause)
  /-- `UnwrittenRegister`, with the register's name (10_state.md R31): raised by the condition (40_vst1_operation.md R78),
  by the unwritten-register check (R77 item 6) and by the UNKNOWN option of `cu_dregs` (R81). Safe. -/
  | unwrittenRegister (name : RegName)
  deriving DecidableEq, Repr

/-- The refusals (60_exceptions.md R119): situations the spec never described. All are safe. -/
inductive Refusal where
  /-- An instruction whose meaning is not written yet; raised by no arm of this model. Safe. -/
  | notModelled (mnemonic : String)
  /-- `NotInScope`: the fetched word is not one of the 24 encodings (30_encoding.md R64). Raised by the step. Safe. -/
  | notInScope
  /-- `BadITSTATE`: `ITSTATE[3:0] == 0` and `ITSTATE != 0` (40_vst1_operation.md R78). Raised by the condition. Safe. -/
  | badITSTATE
  /-- `StoreToText`: the footprint meets the program (20_memory.md R53). Raised before the stores. Safe. -/
  | storeToText
  /-- `BadPC`: `pc` misaligned, outside `text`, or above `0xFFFF_FFFB` (20_memory.md R51, 10_state.md R20). Raised by
  the fetch. Safe. -/
  | badPC
  /-- A byte of the program at `pc` is unallocated: launch premise 2 of 70_reset_and_hazards.md R141 does not hold.
  Raised by the fetch. Safe. Assumption log entry 4. -/
  | textUnallocated
  deriving DecidableEq, Repr

/-- The machine right after reset. The source states no reset value (10_state.md R32, 70_reset_and_hazards.md R139,
R140), so every value here is the model's: DESIGN CHOICE, assumption log entries 1 to 4 and 6, 7. No register is `unwritten`:
each holds the value named here. -/
def State.reset : State where
  r := Vector.replicate 16 0#32
  d := Vector.replicate 32 0#64
  pc := Config.resetPc
  n := false
  z := false
  c := false
  v := false
  unwritten := Unwritten.none
  itstate := 0x00#8
  el := .el1
  iset := .a32
  bigendian := false
  mem := []
  cfg := Config.resetConfiguration
  draws := 0

end Sys2Proof.Machine
end

