-- ==== Sys2Proof/Machine/Ops.lean ====
section
/-! DEFINITION. The named operations over registers, memory, free values and the program counter, the fetch of an
instruction's bytes, and raising an exception. -/

namespace Sys2Proof.Machine

/-! ## Raising an exception -/

/-- Raising an exception, the one operation every meaning uses for it: "a raised exception is the terminal outcome
`fault`" (60_exceptions.md R128; 00_scope.md R7). The source describes no exception entry and no return (R128, R130):
no register, `pc`, `ITSTATE` or mode changes (R125), and what a memory-system abort does to memory stands in its
information (R119, 20_memory.md R47). Assumption log entry 13. -/
def raise (reason : Fault) : Host.Outcome State Fault Refusal := .fault reason

/-! ## Registers -/

/-- `R[i]` (00_scope.md R10). -/
def State.readR (s : State) (i : RReg) : Word := s.r[i]

/-- `R[i] <- v` (00_scope.md R10); the register is then written (10_state.md R31). No register is hardwired (R16). -/
def State.writeR (s : State) (i : RReg) (v : Word) : State :=
  { s with r := s.r.set i v, unwritten := { s.unwritten with r := s.unwritten.r.set i false } }

/-- `D[i]` (00_scope.md R10). -/
def State.readD (s : State) (i : DReg) : DWord := s.d[i]

/-- `D[i] <- v`; VST1 does so only under the UNKNOWN option (00_scope.md R10, 40_vst1_operation.md R81). -/
def State.writeD (s : State) (i : DReg) (v : DWord) : State :=
  { s with d := s.d.set i v, unwritten := { s.unwritten with d := s.unwritten.d.set i false } }

/-- The register or flag holds a value (10_state.md R31). -/
def State.written (s : State) : RegName → Bool
  | .r i => !s.unwritten.r[i]
  | .d i => !s.unwritten.d[i]
  | .n => !s.unwritten.n
  | .z => !s.unwritten.z
  | .c => !s.unwritten.c
  | .v => !s.unwritten.v

/-- The first `unwritten` one among the registers and flags that are read (10_state.md R31). The order of the list
decides which one is named: DEDUCED, assumption log entry 16. -/
def State.firstUnwritten (s : State) (reads : List RegName) : Option RegName := reads.find? (fun x => !s.written x)

/-- The register number `(d + r) mod 32` (40_vst1_operation.md R81); `d + r` itself when that is at most 31. -/
def DReg.plus (dd : DReg) (k : Nat) : DReg := ⟨(dd.val + k) % 32, Nat.mod_lt _ (by decide)⟩

/-- `privileged = (PSTATE.EL != EL0)` (40_vst1_operation.md R84). -/
def State.privileged (s : State) : Bool := s.el != .el0

/-- The access descriptor of every store of the instruction (10_state.md R30, 40_vst1_operation.md R84). -/
def State.storeDescriptor (s : State) : AccessDescriptor where
  memop := .store
  nontemporal := false
  tagchecked := false
  privileged := s.privileged

/-- `CheckAdvSIMDEnabled()`: the configuration's answer at the current Exception level (40_vst1_operation.md R83). -/
def State.advSIMDAccess (s : State) : AdvSIMDAccess :=
  match s.el with
  | .el0 => s.cfg.access.el0
  | .el1 => s.cfg.access.el1
  | .el2 => s.cfg.access.el2
  | .el3 => s.cfg.access.el3

/-! ## Memory -/

/-- The contents of an address: what was written there, else `Config.unlistedByte`. -/
def Memory.read : Memory → Nat → Byte
  | [], _ => Config.unlistedByte
  | (c, x) :: m, a => if a = c then x else Memory.read m a

/-- Lists one byte and keeps the addresses strictly rising. -/
def Memory.insert : Memory → Nat → Byte → Memory
  | [], a, b => [(a, b)]
  | (c, x) :: m, a, b =>
    if a < c then (a, b) :: (c, x) :: m
    else if a = c then (a, b) :: m
    else (c, x) :: Memory.insert m a b

/-- Unlists an address. -/
def Memory.erase (m : Memory) (a : Nat) : Memory := m.filter (fun cell => cell.1 != a)

/-- Writes one byte and keeps the canonical form: a byte that reads as an unlisted one is not listed. -/
def Memory.write (m : Memory) (a : Nat) (b : Byte) : Memory :=
  if b = Config.unlistedByte then Memory.erase m a else Memory.insert m a b

/-- The canonical form from an address on: addresses rise strictly, are 32-bit addresses (10_state.md R29), and list no
byte that an unlisted address reads as. -/
def Memory.wfFrom : Nat → Memory → Bool
  | _, [] => true
  | lo, (c, x) :: m => decide (lo ≤ c) && decide (c < 2 ^ 32) && x != Config.unlistedByte && Memory.wfFrom (c + 1) m

/-- The one canonical form of a memory. -/
def Memory.wf (m : Memory) : Bool := Memory.wfFrom 0 m

/-- Writes bytes at ascending addresses. -/
def Memory.writeBytes : Memory → Nat → List Byte → Memory
  | m, _, [] => m
  | m, a, b :: bs => Memory.writeBytes (Memory.write m a b) (a + 1) bs

/-! ## Regions and admission -/

/-- The address lies in the region. -/
def Region.contains (g : Region) (a : Nat) : Bool := decide (g.base ≤ a) && decide (a < g.base + g.size)

/-- Some address of `[a, a + n)` lies in the region. -/
def Region.meets (g : Region) (a n : Nat) : Bool := decide (max a g.base < min (a + n) (g.base + g.size))

/-- Every address of `[a, a + n)` lies in the region. -/
def Region.covers (g : Region) (a n : Nat) : Bool := decide (g.base ≤ a) && decide (a + n ≤ g.base + g.size)

/-- The address is allocated (20_memory.md R35, R48). Addresses are 32 bits wide (R29). -/
def allocated (cfg : Configuration) (a : Nat) : Bool :=
  decide (a < 2 ^ 32) && cfg.regions.any (fun g => Region.contains g a)

/-- The partial map `mem` of 10_state.md R34 and 20_memory.md R35: the byte at an address, none exactly where the address
is unallocated. -/
def State.byte (s : State) (a : Nat) : Option Byte := if allocated s.cfg a then some (Memory.read s.mem a) else none

/-- The bytes at `count` ascending addresses, if each address has one. -/
def State.readBytes (s : State) (a : Nat) : Nat → Option (List Byte)
  | 0 => some []
  | k + 1 =>
    match s.byte a, s.readBytes (a + 1) k with
    | some b, some bs => some (b :: bs)
    | _, _ => none

/-- The rule concerns an access of `n` bytes at `a` with the given privilege. -/
def AdmitRule.hits (q : AdmitRule) (a n : Nat) (privileged : Bool) : Bool :=
  (match q.reach with
    | .touches => Region.meets q.range a n
    | .startsIn => Region.contains q.range a) &&
  ((n == 1 && q.width1) || (n == 2 && q.width2) || (n == 4 && q.width4)) &&
  (if privileged then q.privileged else q.unprivileged)

/-- `MemAdmit(addr, n, privileged)` (20_memory.md R45): the first rule the access meets decides; without one, a range
with an unallocated byte aborts and every other range is admitted. -/
def memAdmit (cfg : Configuration) (a n : Nat) (privileged : Bool) : Verdict :=
  match cfg.rules.find? (fun q => AdmitRule.hits q a n privileged) with
  | some q => .abort q.kind
  | none => if (List.range n).all (fun i => allocated cfg (a + i)) then .ok else .abort .unallocated

/-! ## Stores -/

/-- Why a store does not happen (20_memory.md R37). -/
inductive StoreStop where
  /-- The address is not a multiple of the access size and alignment is enforced (R40). -/
  | alignment (address : Word)
  /-- The bytes would pass `0xFFFF_FFFF` (R46). -/
  | wrap
  /-- `MemAdmit` aborts (R45). -/
  | abort (kind : AbortKind) (address : Word)
  deriving DecidableEq, Repr

/-- The byte of the `n`-byte value `v` that goes to `addr + i`: `v[8*k+7 : 8*k]` with `k = i` in little-endian and
`k = n-1-i` in big-endian (20_memory.md R37). -/
def laneByte (bigendian : Bool) (n : Nat) (v : DWord) (i : Nat) : Byte :=
  v.extractLsb' (8 * (if bigendian then n - 1 - i else i)) 8

/-- `MemWrite(addr, n, v)` (20_memory.md R37); the `8*n` bits of `v` are its low bits. -/
def memWrite (s : State) (addr : Word) (n : Nat) (v : DWord) : Except StoreStop State :=
  if s.cfg.alignEnforced && addr.toNat % n != 0 then .error (.alignment addr)
  else if 2 ^ 32 < addr.toNat + n then .error .wrap
  else match memAdmit s.cfg addr.toNat n s.privileged with
    | .abort kind => .error (.abort kind addr)
    | .ok =>
      .ok { s with mem := Memory.writeBytes s.mem addr.toNat ((List.range n).map (laneByte s.bigendian n v)) }

/-- One `MemWrite` of the store loop: address, width in bytes, value. -/
structure Store where
  addr  : Word
  width : Nat
  value : DWord
  deriving DecidableEq, Repr

/-- The stores one after another, up to the first that does not happen (40_vst1_operation.md R86). -/
def storeAll : List Store → State → Except StoreStop State
  | [], s => .ok s
  | x :: xs, s =>
    match memWrite s x.addr x.width x.value with
    | .error stop => .error stop
    | .ok t => storeAll xs t

/-! ## UNKNOWN values (00_scope.md R10, 70_reset_and_hazards.md R148) -/

/-- Each address of the list whose byte `MemAdmit` admits gets a fresh UNKNOWN byte (20_memory.md R47,
40_vst1_operation.md R81; assumption log entry 9). -/
def unknownBytes : List Nat → State → State
  | [], s => s
  | a :: as, s =>
    unknownBytes as
      (match memAdmit s.cfg a 1 s.privileged with
        | .ok => { s with mem := Memory.write s.mem a (Config.unknownByte s.draws), draws := s.draws + 1 }
        | .abort _ => s)

/-- Each register of the list gets a fresh UNKNOWN value (40_vst1_operation.md R81). -/
def unknownDRegs : List DReg → State → State
  | [], s => s
  | i :: is, s =>
    unknownDRegs is { State.writeD s i (Config.unknownDWord s.draws) with draws := s.draws + 1 }

/-- `R[i]` becomes UNKNOWN (40_vst1_operation.md R81). -/
def unknownR (i : RReg) (s : State) : State :=
  { State.writeR s i (Config.unknownWord s.draws) with draws := s.draws + 1 }

/-! ## The fetch -/

/-- The alignment `pc` must have: a multiple of 4 in A32, of 2 in T32 (20_memory.md R51). -/
def ISet.pcAlignment : ISet → Nat
  | .a32 => 4
  | .t32 => 2

/-- `pc` is aligned, at most `0xFFFF_FFFB`, and its four bytes lie in `text` (20_memory.md R51, 10_state.md R20). -/
def State.pcUsable (s : State) : Bool :=
  decide (s.pc.toNat % ISet.pcAlignment s.iset = 0) && decide (s.pc.toNat ≤ 0xFFFFFFFB) &&
    Region.covers s.cfg.text s.pc.toNat 4

/-- The four bytes at `pc`, in ascending address order (20_memory.md R51). -/
def fetch (s : State) : Except Refusal (List Byte) :=
  if s.pcUsable then
    match s.readBytes s.pc.toNat 4 with
    | some bs => .ok bs
    | none => .error .textUnallocated
  else .error .badPC

/-- The state with an instruction of the opcode table placed where the next step fetches it: its four bytes are stored
at `pc`, and the instruction set is the word's own. Where `pc` cannot be fetched from, `pc` becomes 0, and where the
four bytes would not lie in `text`, `text` becomes those four bytes, and where one of them is unallocated they become a
region of their own (assumption log entry 12). -/
def State.loadWord (s : State) (nbits w : Nat) : State :=
  let instr := tableWord nbits w
  let iset := tableISet instr
  let pc := if s.pc.toNat % ISet.pcAlignment iset = 0 ∧ s.pc.toNat ≤ 0xFFFFFFFB then s.pc else 0
  let text := if Region.covers s.cfg.text pc.toNat 4 then s.cfg.text else ⟨pc.toNat, 4⟩
  let regions :=
    if (List.range 4).all (fun j => allocated s.cfg (pc.toNat + j)) then s.cfg.regions
    else ⟨pc.toNat, 4⟩ :: s.cfg.regions
  { s with
    iset := iset
    pc := pc
    cfg := { s.cfg with text := text, regions := regions }
    mem := Memory.writeBytes s.mem pc.toNat (bytesOfInstr iset instr) }

end Sys2Proof.Machine
end

