-- ==== Sys2Proof/Machine/Flags.lean ====
section
/-! DEFINITION. The condition of a T32 instruction, `ITSTATE`, and the program counter after an instruction
(40_vst1_operation.md R78, R89). VST1 computes no flag (R90). -/

namespace Sys2Proof.Machine

/-- The condition of the current instruction: `ITSTATE[7:4]` inside an IT block, `1110` (AL) outside, none for a
malformed `ITSTATE` (R78). -/
def currentCond (itstate : BitVec 8) : Option (BitVec 4) :=
  if itstate.extractLsb' 0 4 ≠ 0x0#4 then some (itstate.extractLsb' 4 4)
  else if itstate = 0x00#8 then some 0b1110#4
  else none

/-- The case of the condition table that `cond[3:1]` selects (R78). -/
def condBase (sel : BitVec 3) (n z c v : Bool) : Bool :=
  if sel = 0b000#3 then z
  else if sel = 0b001#3 then c
  else if sel = 0b010#3 then n
  else if sel = 0b011#3 then v
  else if sel = 0b100#3 then c && !z
  else if sel = 0b101#3 then n == v
  else if sel = 0b110#3 then n == v && !z
  else true

/-- The condition holds: `cond[0]` inverts the selected case, but for `1111` (R78). -/
def condHolds (cond : BitVec 4) (n z c v : Bool) : Bool :=
  if cond.getLsbD 0 && cond != 0b1111#4 then !condBase (cond.extractLsb' 1 3) n z c v
  else condBase (cond.extractLsb' 1 3) n z c v

/-- The flags that the case selected by `cond[3:1]` names, in the order the table names them; only these are read
(R78). -/
def condReads (sel : BitVec 3) : List RegName :=
  if sel = 0b000#3 then [.z]
  else if sel = 0b001#3 then [.c]
  else if sel = 0b010#3 then [.n]
  else if sel = 0b011#3 then [.v]
  else if sel = 0b100#3 then [.c, .z]
  else if sel = 0b101#3 then [.n, .v]
  else if sel = 0b110#3 then [.n, .v, .z]
  else []

/-- Why `ConditionPassed()` gives no answer (R78). -/
inductive CondStop where
  /-- `ITSTATE[3:0] == 0` and `ITSTATE != 0`. -/
  | badITSTATE
  /-- A flag that the condition reads is `unwritten` (10_state.md R31). -/
  | unwritten (flag : RegName)
  deriving DecidableEq, Repr

/-- `ConditionPassed()` (R78): true in A32; in T32 by `ITSTATE` and the flags. -/
def conditionPassed (iset : ISet) (s : State) : Except CondStop Bool :=
  match iset with
  | .a32 => .ok true
  | .t32 =>
    match currentCond s.itstate with
    | none => .error .badITSTATE
    | some cond =>
      match s.firstUnwritten (condReads (cond.extractLsb' 1 3)) with
      | some flag => .error (.unwritten flag)
      | none => .ok (condHolds cond s.n s.z s.c s.v)

/-- The advance of `ITSTATE` (R89): to zero at the end of the block, else the low five bits shift left. -/
def advanceIT (itstate : BitVec 8) : BitVec 8 :=
  if itstate.extractLsb' 0 3 = 0b000#3 then 0x00#8
  else itstate.extractLsb' 5 3 ++ (itstate.extractLsb' 0 5 <<< 1)

/-- What follows every completed or condition-failed VST1: `pc <- pc + 4` and, in T32, `ITSTATE` advances (R89). -/
def advance (iset : ISet) (s : State) : State :=
  { s with
    pc := s.pc + 4#32
    itstate := match iset with
      | .a32 => s.itstate
      | .t32 => advanceIT s.itstate }

end Sys2Proof.Machine
end

