-- ==== Sys2Proof/Machine/Operands.lean ====
section
/-! DEFINITION. The values every Decode block computes from the fields (40_vst1_operation.md R79, R82) and the stores the
operands stand for (R86). -/

namespace Sys2Proof.Machine

/-- `regs` (R59, R79). -/
def ListLen.regs : ListLen → Nat
  | .one => 1
  | .two => 2
  | .three => 3
  | .four => 4

/-- `ebytes = 1 << UInt(size)` (R61, R79). -/
def ElemSize.ebytes (z : ElemSize) : Nat := 1 <<< z.code.toNat

/-- `elements = 8 DIV ebytes` (R61, R79). -/
def ElemSize.elements (z : ElemSize) : Nat := 8 / ElemSize.ebytes z

/-- `alignment = if align == '00' then 1 else 4 << UInt(align)`, in bytes (R62, R79). -/
def Align.bytes (g : Align) : Nat := if g.code = 0b00#2 then 1 else 4 <<< g.code.toNat

/-- `wback = (m != 15)` (R60, R79). -/
def Form.wback (f : Form) : Bool := f.rm != 15

/-- `register_index = (m != 15 && m != 13)` (R60, R79). -/
def Form.registerIndex (f : Form) : Bool := f.rm != 15 && f.rm != 13

/-- The `Undefined()` line of the Decode blocks: `align[1] == '1'` with one or three registers, `align == '11'` with two,
never with four (R66, R82). -/
def Form.alignUndefined (f : Form) : Bool :=
  match f.len with
  | .one => f.align.code.getLsbD 1
  | .two => f.align.code == 0b11#2
  | .three => f.align.code.getLsbD 1
  | .four => false

/-- `8*regs`, the bytes the instruction stores (20_memory.md R43). -/
def Form.transfer (f : Form) : Nat := 8 * ListLen.regs f.len

/-- `Elem(v, e, w)`, the `e`-th `w`-bit element of a register, element 0 the least significant (00_scope.md R10). It is
held in the low bits of a 64-bit value. -/
def elem (v : DWord) (e w : Nat) : DWord := (v.extractLsb' (e * w) w).setWidth 64

/-- The elements of one register in ascending element number (R86). -/
def elementsOf (z : ElemSize) (v : DWord) : List DWord :=
  (List.range (ElemSize.elements z)).map (fun e => elem v e (8 * ElemSize.ebytes z))

/-- The `MemWrite` calls of one element: one, or for a 64-bit element two of 32 bits whose order follows the byte order
(20_memory.md R38, R86). -/
def elementStores (bigendian : Bool) (z : ElemSize) (address : Word) (data : DWord) : List Store :=
  match z with
  | .b64 =>
    if bigendian then
      [⟨address, 4, (data.extractLsb' 32 32).setWidth 64⟩, ⟨address + 4#32, 4, (data.extractLsb' 0 32).setWidth 64⟩]
    else
      [⟨address, 4, (data.extractLsb' 0 32).setWidth 64⟩, ⟨address + 4#32, 4, (data.extractLsb' 32 32).setWidth 64⟩]
  | .b8 => [⟨address, 1, data⟩]
  | .b16 => [⟨address, 2, data⟩]
  | .b32 => [⟨address, 4, data⟩]

/-- The loop over elements, `address = address + ebytes` after each (R86). -/
def storesFrom (bigendian : Bool) (z : ElemSize) : Word → List DWord → List Store
  | _, [] => []
  | address, x :: xs =>
    elementStores bigendian z address x ++
      storesFrom bigendian z (address + BitVec.ofNat 32 (ElemSize.ebytes z)) xs

/-- The list `D[d] .. D[d+regs-1]`, numbers taken modulo 32 (R63; R81 for the wrapped ones). -/
def Form.dregs (f : Form) : List DReg := (List.range (ListLen.regs f.len)).map (DReg.plus f.dd)

/-- The registers the transfer reads, in the order of 40_vst1_operation.md R77 item 6: the base, the list, and the index
of the form with one. -/
def Form.reads (f : Form) : List RegName :=
  .r f.rn :: (Form.dregs f).map .d ++ (if Form.registerIndex f then [.r f.rm] else [])

/-- All elements of all registers: registers in ascending number, all elements of one before the next (R86). -/
def Form.elementValues (f : Form) (s : State) : List DWord :=
  (Form.dregs f).flatMap (fun i => elementsOf f.size (State.readD s i))

/-- The stores of the instruction, in order, from the base address `R[n]` (R86). -/
def Form.stores (f : Form) (s : State) : List Store :=
  storesFrom s.bigendian f.size (State.readR s f.rn) (Form.elementValues f s)

/-- The footprint `R[n] + j`, `0 <= j < 8*regs`, modulo 2^32 (20_memory.md R43, R81). -/
def Form.footprint (f : Form) (s : State) : List Nat :=
  (List.range (Form.transfer f)).map (fun j => (State.readR s f.rn + BitVec.ofNat 32 j).toNat)

/-- Writeback: `R[n] + R[m]` with a register index, `R[n] + 8*regs` without, nothing without `wback` (R88). -/
def Form.writeback (f : Form) (s : State) : State :=
  if Form.wback f then
    if Form.registerIndex f then State.writeR s f.rn (State.readR s f.rn + State.readR s f.rm)
    else State.writeR s f.rn (State.readR s f.rn + BitVec.ofNat 32 (Form.transfer f))
  else s

end Sys2Proof.Machine
end

