-- ==== Sys2Proof/Machine/Vst1.lean ====
section
/-! DEFINITION. `ExecVST1m`, the operation all 24 encodings share (40_vst1_operation.md R77 to R94). -/

namespace Sys2Proof.Machine

/-- The fault of a store that does not happen (20_memory.md R37): an abort of the memory system carries the state it
leaves, with the admitted bytes of the footprint UNKNOWN (R47). -/
def storeFault (f : Form) (s : State) : StoreStop → Fault
  | .alignment address => .alignmentAbort (address.setWidth 64) s.storeDescriptor
  | .wrap => .unpredictable .addressWrap
  | .abort kind address =>
    .memoryAbort kind (address.setWidth 64) s.storeDescriptor (unknownBytes (Form.footprint f s) s)

/-- Items 7 to 12 of R77: the alignment checks, the wrap check, the program text, the stores, the writeback. -/
def vst1Transfer (f : Form) (s : State) : Host.Outcome State Fault Refusal :=
  let base := State.readR s f.rn
  if base.toNat % Align.bytes f.align ≠ 0 then
    raise (.alignmentAbort (base.setWidth 64) s.storeDescriptor)
  else if s.cfg.alignEnforced ∧ base.toNat % ElemSize.ebytes f.size ≠ 0 then
    raise (.alignmentAbort (base.setWidth 64) s.storeDescriptor)
  else if 2 ^ 32 < base.toNat + Form.transfer f then
    raise (.unpredictable .addressWrap)
  else if Region.meets s.cfg.text base.toNat (Form.transfer f) then
    .refused .storeToText
  else
    match storeAll (Form.stores f s) s with
    | .error stop => raise (storeFault f s stop)
    | .ok t => .next (advance f.iset (Form.writeback f t))

/-- Item 4 of R77, `d + regs > 32`, as `cu_dregs` says (R81). The UNKNOWN option needs a written base register. -/
def vst1PastD31 (f : Form) (s : State) : Host.Outcome State Fault Refusal :=
  match s.cfg.cuDregs with
  | .fault => raise (.unpredictable .regListPastD31)
  | .undef => raise .undefinedInstruction
  | .nop => .next (advance f.iset s)
  | .unknown =>
    if !s.written (.r f.rn) then raise (.unwrittenRegister (.r f.rn))
    else if (Form.footprint f s).any (fun a => Region.contains s.cfg.text a) then .refused .storeToText
    else
      let t := unknownDRegs (Form.dregs f) (unknownBytes (Form.footprint f s) s)
      .next (advance f.iset (if Form.wback f then unknownR f.rn t else t))

/-- Items 6 to 12 of R77: the unwritten-register check (10_state.md R31), then the transfer. -/
def vst1Enabled (f : Form) (s : State) : Host.Outcome State Fault Refusal :=
  match s.firstUnwritten (Form.reads f) with
  | some name => raise (.unwrittenRegister name)
  | none => vst1Transfer f s

/-- Items 2 to 12 of R77, once the condition has passed. -/
def vst1Passed (f : Form) (s : State) : Host.Outcome State Fault Refusal :=
  if Form.alignUndefined f then raise .undefinedInstruction
  else if f.rn = 15 then raise (.unpredictable .baseIsPC)
  else if 32 < f.dd.val + ListLen.regs f.len then vst1PastD31 f s
  else
    match s.advSIMDAccess with
    | .undefined => raise .undefinedInstruction
    | .hypTrap => raise .hypTrap
    | .enabled => vst1Enabled f s

/-- `ExecVST1m` (R94): when the condition fails, only `pc` and `ITSTATE` change (R78). -/
def vst1 (f : Form) (s : State) : Host.Outcome State Fault Refusal :=
  match conditionPassed f.iset s with
  | .error .badITSTATE => .refused .badITSTATE
  | .error (.unwritten flag) => raise (.unwrittenRegister flag)
  | .ok false => .next (advance f.iset s)
  | .ok true => vst1Passed f s

end Sys2Proof.Machine
end

