-- ==== Sys2Proof/Machine/A32.lean ====
section
/-! DEFINITION. The twelve A32 encodings (41_vst1_a32.md), unconditional: each fixes the parameters of
`ExecVST1m` (40_vst1_operation.md R94). -/

namespace Sys2Proof.Machine

/-- R95: class A1, one register, no writeback. -/
def execVst1A1Nowb (dd : DReg) (rn : RReg) (size : ElemSize) (align : Align) (s : State) :
    Host.Outcome State Fault Refusal :=
  vst1 ⟨.a32, .one, dd, rn, size, align, 15⟩ s

/-- R96: class A1, one register, writeback by 8. -/
def execVst1A1Posti (dd : DReg) (rn : RReg) (size : ElemSize) (align : Align) (s : State) :
    Host.Outcome State Fault Refusal :=
  vst1 ⟨.a32, .one, dd, rn, size, align, 13⟩ s

/-- R97: class A1, one register, writeback by `R[m]`. -/
def execVst1A1Postr (dd : DReg) (rn : RReg) (size : ElemSize) (align : Align) (rm : RReg) (s : State) :
    Host.Outcome State Fault Refusal :=
  vst1 ⟨.a32, .one, dd, rn, size, align, rm⟩ s

/-- R98: class A2, two registers, no writeback. -/
def execVst1A2Nowb (dd : DReg) (rn : RReg) (size : ElemSize) (align : Align) (s : State) :
    Host.Outcome State Fault Refusal :=
  vst1 ⟨.a32, .two, dd, rn, size, align, 15⟩ s

/-- R99: class A2, two registers, writeback by 16. -/
def execVst1A2Posti (dd : DReg) (rn : RReg) (size : ElemSize) (align : Align) (s : State) :
    Host.Outcome State Fault Refusal :=
  vst1 ⟨.a32, .two, dd, rn, size, align, 13⟩ s

/-- R100: class A2, two registers, writeback by `R[m]`. -/
def execVst1A2Postr (dd : DReg) (rn : RReg) (size : ElemSize) (align : Align) (rm : RReg) (s : State) :
    Host.Outcome State Fault Refusal :=
  vst1 ⟨.a32, .two, dd, rn, size, align, rm⟩ s

/-- R101: class A3, three registers, no writeback. -/
def execVst1A3Nowb (dd : DReg) (rn : RReg) (size : ElemSize) (align : Align) (s : State) :
    Host.Outcome State Fault Refusal :=
  vst1 ⟨.a32, .three, dd, rn, size, align, 15⟩ s

/-- R102: class A3, three registers, writeback by 24. -/
def execVst1A3Posti (dd : DReg) (rn : RReg) (size : ElemSize) (align : Align) (s : State) :
    Host.Outcome State Fault Refusal :=
  vst1 ⟨.a32, .three, dd, rn, size, align, 13⟩ s

/-- R103: class A3, three registers, writeback by `R[m]`. -/
def execVst1A3Postr (dd : DReg) (rn : RReg) (size : ElemSize) (align : Align) (rm : RReg) (s : State) :
    Host.Outcome State Fault Refusal :=
  vst1 ⟨.a32, .three, dd, rn, size, align, rm⟩ s

/-- R104: class A4, four registers, no writeback. -/
def execVst1A4Nowb (dd : DReg) (rn : RReg) (size : ElemSize) (align : Align) (s : State) :
    Host.Outcome State Fault Refusal :=
  vst1 ⟨.a32, .four, dd, rn, size, align, 15⟩ s

/-- R105: class A4, four registers, writeback by 32. -/
def execVst1A4Posti (dd : DReg) (rn : RReg) (size : ElemSize) (align : Align) (s : State) :
    Host.Outcome State Fault Refusal :=
  vst1 ⟨.a32, .four, dd, rn, size, align, 13⟩ s

/-- R106: class A4, four registers, writeback by `R[m]`. -/
def execVst1A4Postr (dd : DReg) (rn : RReg) (size : ElemSize) (align : Align) (rm : RReg) (s : State) :
    Host.Outcome State Fault Refusal :=
  vst1 ⟨.a32, .four, dd, rn, size, align, rm⟩ s

end Sys2Proof.Machine
end

