-- ==== Sys2Proof/Machine/T32.lean ====
section
/-! DEFINITION. The twelve T32 encodings (42_vst1_t32.md), conditional through `ITSTATE`: each fixes the parameters of
`ExecVST1m` (40_vst1_operation.md R94). -/

namespace Sys2Proof.Machine

/-- R107: class T1, one register, no writeback. -/
def execVst1T1Nowb (dd : DReg) (rn : RReg) (size : ElemSize) (align : Align) (s : State) :
    Host.Outcome State Fault Refusal :=
  vst1 ⟨.t32, .one, dd, rn, size, align, 15⟩ s

/-- R108: class T1, one register, writeback by 8. -/
def execVst1T1Posti (dd : DReg) (rn : RReg) (size : ElemSize) (align : Align) (s : State) :
    Host.Outcome State Fault Refusal :=
  vst1 ⟨.t32, .one, dd, rn, size, align, 13⟩ s

/-- R109: class T1, one register, writeback by `R[m]`. -/
def execVst1T1Postr (dd : DReg) (rn : RReg) (size : ElemSize) (align : Align) (rm : RReg) (s : State) :
    Host.Outcome State Fault Refusal :=
  vst1 ⟨.t32, .one, dd, rn, size, align, rm⟩ s

/-- R110: class T2, two registers, no writeback. -/
def execVst1T2Nowb (dd : DReg) (rn : RReg) (size : ElemSize) (align : Align) (s : State) :
    Host.Outcome State Fault Refusal :=
  vst1 ⟨.t32, .two, dd, rn, size, align, 15⟩ s

/-- R111: class T2, two registers, writeback by 16. -/
def execVst1T2Posti (dd : DReg) (rn : RReg) (size : ElemSize) (align : Align) (s : State) :
    Host.Outcome State Fault Refusal :=
  vst1 ⟨.t32, .two, dd, rn, size, align, 13⟩ s

/-- R112: class T2, two registers, writeback by `R[m]`. -/
def execVst1T2Postr (dd : DReg) (rn : RReg) (size : ElemSize) (align : Align) (rm : RReg) (s : State) :
    Host.Outcome State Fault Refusal :=
  vst1 ⟨.t32, .two, dd, rn, size, align, rm⟩ s

/-- R113: class T3, three registers, no writeback. -/
def execVst1T3Nowb (dd : DReg) (rn : RReg) (size : ElemSize) (align : Align) (s : State) :
    Host.Outcome State Fault Refusal :=
  vst1 ⟨.t32, .three, dd, rn, size, align, 15⟩ s

/-- R114: class T3, three registers, writeback by 24. -/
def execVst1T3Posti (dd : DReg) (rn : RReg) (size : ElemSize) (align : Align) (s : State) :
    Host.Outcome State Fault Refusal :=
  vst1 ⟨.t32, .three, dd, rn, size, align, 13⟩ s

/-- R115: class T3, three registers, writeback by `R[m]`. -/
def execVst1T3Postr (dd : DReg) (rn : RReg) (size : ElemSize) (align : Align) (rm : RReg) (s : State) :
    Host.Outcome State Fault Refusal :=
  vst1 ⟨.t32, .three, dd, rn, size, align, rm⟩ s

/-- R116: class T4, four registers, no writeback. -/
def execVst1T4Nowb (dd : DReg) (rn : RReg) (size : ElemSize) (align : Align) (s : State) :
    Host.Outcome State Fault Refusal :=
  vst1 ⟨.t32, .four, dd, rn, size, align, 15⟩ s

/-- R117: class T4, four registers, writeback by 32. -/
def execVst1T4Posti (dd : DReg) (rn : RReg) (size : ElemSize) (align : Align) (s : State) :
    Host.Outcome State Fault Refusal :=
  vst1 ⟨.t32, .four, dd, rn, size, align, 13⟩ s

/-- R118: class T4, four registers, writeback by `R[m]`. -/
def execVst1T4Postr (dd : DReg) (rn : RReg) (size : ElemSize) (align : Align) (rm : RReg) (s : State) :
    Host.Outcome State Fault Refusal :=
  vst1 ⟨.t32, .four, dd, rn, size, align, rm⟩ s

end Sys2Proof.Machine
end

