-- ==== Sys2Proof/Machine/Dispatch.lean ====
section
/-! DEFINITION. The meaning of each instruction: one arm per constructor. -/

namespace Sys2Proof.Machine

/-- The meaning of an instruction that has been fetched and decoded. -/
def exec (i : Instr) (s : State) : Host.Outcome State Fault Refusal :=
  match i with
  | .vst1A1Nowb dd rn size align => Sys2Proof.Machine.execVst1A1Nowb dd rn size align s
  | .vst1A1Posti dd rn size align => Sys2Proof.Machine.execVst1A1Posti dd rn size align s
  | .vst1A1Postr dd rn size align rm => Sys2Proof.Machine.execVst1A1Postr dd rn size align rm s
  | .vst1A2Nowb dd rn size align => Sys2Proof.Machine.execVst1A2Nowb dd rn size align s
  | .vst1A2Posti dd rn size align => Sys2Proof.Machine.execVst1A2Posti dd rn size align s
  | .vst1A2Postr dd rn size align rm => Sys2Proof.Machine.execVst1A2Postr dd rn size align rm s
  | .vst1A3Nowb dd rn size align => Sys2Proof.Machine.execVst1A3Nowb dd rn size align s
  | .vst1A3Posti dd rn size align => Sys2Proof.Machine.execVst1A3Posti dd rn size align s
  | .vst1A3Postr dd rn size align rm => Sys2Proof.Machine.execVst1A3Postr dd rn size align rm s
  | .vst1A4Nowb dd rn size align => Sys2Proof.Machine.execVst1A4Nowb dd rn size align s
  | .vst1A4Posti dd rn size align => Sys2Proof.Machine.execVst1A4Posti dd rn size align s
  | .vst1A4Postr dd rn size align rm => Sys2Proof.Machine.execVst1A4Postr dd rn size align rm s
  | .vst1T1Nowb dd rn size align => Sys2Proof.Machine.execVst1T1Nowb dd rn size align s
  | .vst1T1Posti dd rn size align => Sys2Proof.Machine.execVst1T1Posti dd rn size align s
  | .vst1T1Postr dd rn size align rm => Sys2Proof.Machine.execVst1T1Postr dd rn size align rm s
  | .vst1T2Nowb dd rn size align => Sys2Proof.Machine.execVst1T2Nowb dd rn size align s
  | .vst1T2Posti dd rn size align => Sys2Proof.Machine.execVst1T2Posti dd rn size align s
  | .vst1T2Postr dd rn size align rm => Sys2Proof.Machine.execVst1T2Postr dd rn size align rm s
  | .vst1T3Nowb dd rn size align => Sys2Proof.Machine.execVst1T3Nowb dd rn size align s
  | .vst1T3Posti dd rn size align => Sys2Proof.Machine.execVst1T3Posti dd rn size align s
  | .vst1T3Postr dd rn size align rm => Sys2Proof.Machine.execVst1T3Postr dd rn size align rm s
  | .vst1T4Nowb dd rn size align => Sys2Proof.Machine.execVst1T4Nowb dd rn size align s
  | .vst1T4Posti dd rn size align => Sys2Proof.Machine.execVst1T4Posti dd rn size align s
  | .vst1T4Postr dd rn size align rm => Sys2Proof.Machine.execVst1T4Postr dd rn size align rm s

end Sys2Proof.Machine
end

