-- ==== Sys2Proof/Machine/Step.lean ====
section
/-! DEFINITION. One step of the PE: fetch (20_memory.md R51), decode (30_encoding.md R64), execute
(40_vst1_operation.md R77). -/

namespace Sys2Proof.Machine

/-- One step (00_scope.md R7). A word that is none of the 24 encodings is refused as not in scope (R5, R68). The
instruction itself moves `pc` past its four bytes (40_vst1_operation.md R89). -/
def step (s : State) : Host.Outcome State Fault Refusal :=
  match fetch s with
  | .error r => .refused r
  | .ok bytes =>
    match decodeBytes s.iset bytes with
    | .error _ => .refused .notInScope
    | .ok (i, _) => exec i s

/-- `s` with an instruction of the opcode table stored where `step` fetches its next instruction. -/
def State.withFetchWord (s : State) (nbits w : Nat) : State := State.loadWord s nbits w

end Sys2Proof.Machine
end

