-- ==== Sys2Proof/Safety.lean ====
section
/-! DEFINITION. The launch premises, the invariant that every step keeps, the end of a run, and what a safe run is
(70_reset_and_hazards.md R141, R144). -/

namespace Sys2Proof.Machine

/-- An `ITSTATE` that R78 gives a condition: zero, or with a nonzero low nibble. DESIGN CHOICE, the model's and not the
spec's (assumption log entry 15): the spec does not describe `IT`, so every such value, the condition `1111` included, is
taken for one that an `IT` instruction could have produced (R141, premise 3). -/
def itstateLegal (itstate : BitVec 8) : Bool :=
  decide (itstate = 0x00#8) || decide (itstate.extractLsb' 0 4 ≠ 0x0#4)

/-- Launch premise 3 of R141: in A32 `ITSTATE` is zero; in T32 it is `itstateLegal`, the model's choice for the values "an
`IT` instruction could have produced" (log entry 15). -/
def State.itstateOk (s : State) : Bool :=
  match s.iset with
  | .a32 => decide (s.itstate = 0x00#8)
  | .t32 => itstateLegal s.itstate

/-- `pc` has the alignment its instruction set asks for (20_memory.md R51). -/
def State.pcAligned (s : State) : Bool := decide (s.pc.toNat % ISet.pcAlignment s.iset = 0)

/-- `end_pc` is "aligned as `pc` must be" (R144). -/
def State.endPcAligned (s : State) : Bool := decide (s.cfg.endPc.toNat % ISet.pcAlignment s.iset = 0)

/-- Only allocated addresses are listed in memory (20_memory.md R35). -/
def State.memAllocated (s : State) : Bool := s.mem.all (fun cell => allocated s.cfg cell.1)

/-- The invariant of the machine: memory in canonical form and allocated, `pc` aligned, `ITSTATE` legal. -/
def State.inv (s : State) : Bool :=
  Memory.wf s.mem && s.memAllocated && s.pcAligned && s.itstateOk

/-- The launch premises of R141 and R144 that a state can break: the invariant, `pc` inside `text`, `text` allocated, and
`end_pc` aligned. -/
def State.launchOk (s : State) : Bool :=
  s.inv && Region.covers s.cfg.text s.pc.toNat 4 && s.endPcAligned &&
    (List.range s.cfg.text.size).all (fun j => allocated s.cfg (s.cfg.text.base + j))

/-- A run ends successfully when, before a fetch, `pc == end_pc` (R144). -/
def State.ended (s : State) : Bool := s.pc == s.cfg.endPc

/-- What a run comes to (R144). -/
inductive RunEnd where
  /-- `pc` first equals `end_pc` in this state. -/
  | ended (s : State)
  /-- A fault: the run has no final state. -/
  | faulted (reason : Fault)
  /-- A refusal: the run has no final state. -/
  | refused (reason : Refusal)
  /-- The run is still going after the given number of steps. -/
  | running (s : State)
  deriving DecidableEq, Repr

/-- A run of at most `k` steps that stops at the first state whose `pc` is `end_pc` (R144). -/
def runToEnd : Nat → State → RunEnd
  | 0, s => if s.ended then .ended s else .running s
  | k + 1, s =>
    if s.ended then .ended s
    else match step s with
      | .next t => runToEnd k t
      | .fault reason => .faulted reason
      | .refused reason => .refused reason

/-- A run of at most `k` steps meets no fault and no refusal before it ends. -/
def State.safeFor (s : State) (k : Nat) : Bool :=
  match runToEnd k s with
  | .ended _ => true
  | .running _ => true
  | .faulted _ => false
  | .refused _ => false

end Sys2Proof.Machine
end

