-- ==== Sys2Proof/Certificates/Slice0/Obligations.lean ====
section
/-! DEFINITION. The statements for the provers: what the numbered rules of spec/ say of the machine. -/

namespace Sys2Proof.Claims

open Sys2Proof.Machine

/-! ## The words the statements use -/

/-- The byte at an address, none where the address is unallocated (10_state.md R34, 20_memory.md R35). -/
def byteAt (s : State) (a : Nat) : Option Byte := s.byte a

/-- The bytes one `MemWrite` stores: the element's, or half of a 64-bit element's (20_memory.md R38, R43). -/
def accessWidth : ElemSize → Nat
  | .b8 => 1
  | .b16 => 2
  | .b32 => 4
  | .b64 => 4

/-- The byte of register value `v` that lands `j` bytes after the register's first byte (40_vst1_operation.md R87): byte
`j` in little-endian; in big-endian, with `j = e*ebytes + i`, byte `e*ebytes + (ebytes-1-i)`. -/
def registerByte (bigendian : Bool) (ebytes : Nat) (v : DWord) (j : Nat) : Byte :=
  let e := j / ebytes
  let i := j % ebytes
  let k := if bigendian then e * ebytes + (ebytes - 1 - i) else j
  v.extractLsb' (8 * k) 8

/-- `ITSTATE` after a T32 instruction (40_vst1_operation.md R89): zero when its low three bits are zero, else bits 7:5
kept and bits 4:0 shifted left. -/
def itAdvanced (it : BitVec 8) : BitVec 8 :=
  if it &&& 0x07#8 = 0x00#8 then 0x00#8 else (it &&& 0xE0#8) ||| ((it <<< 1) &&& 0x1F#8)

/-- The condition table of 40_vst1_operation.md R78, by the condition's number: EQ NE CS CC MI PL VS VC HI LS GE LT GT LE
and AL. -/
def condition (cond : Nat) (s : State) : Bool :=
  match cond with
  | 0 => s.z
  | 1 => !s.z
  | 2 => s.c
  | 3 => !s.c
  | 4 => s.n
  | 5 => !s.n
  | 6 => s.v
  | 7 => !s.v
  | 8 => s.c && !s.z
  | 9 => !s.c || s.z
  | 10 => s.n == s.v
  | 11 => s.n != s.v
  | 12 => (s.n == s.v) && !s.z
  | 13 => (s.n != s.v) || s.z
  | _ => true

/-- The flags that a condition reads, by the condition's number, in the order the table of 40_vst1_operation.md R78 names
them: "Only the flags the selected case names are read." -/
def consulted (cond : Nat) : List RegName :=
  match cond with
  | 0 => [.z]
  | 1 => [.z]
  | 2 => [.c]
  | 3 => [.c]
  | 4 => [.n]
  | 5 => [.n]
  | 6 => [.v]
  | 7 => [.v]
  | 8 => [.c, .z]
  | 9 => [.c, .z]
  | 10 => [.n, .v]
  | 11 => [.n, .v]
  | 12 => [.n, .v, .z]
  | 13 => [.n, .v, .z]
  | _ => []

/-- The condition's number in `ITSTATE` (40_vst1_operation.md R78). -/
def condOf (s : State) : Nat := (s.itstate.extractLsb' 4 4).toNat

/-- `x` is the first of the list that is `unwritten` (10_state.md R31). -/
def FirstUnwritten (s : State) (l : List RegName) (x : RegName) : Prop :=
  s.written x = false ∧ ∃ before after, l = before ++ x :: after ∧ ∀ y ∈ before, s.written y = true

/-- The state fields no VST1 writes (40_vst1_operation.md R90, 00_scope.md R8): the flags, `EL`, `iset`, `bigendian`, the
configuration, and the marks `unwritten` of all but the D registers. -/
def SameElsewhere (s t : State) : Prop :=
  t.n = s.n ∧ t.z = s.z ∧ t.c = s.c ∧ t.v = s.v ∧ t.el = s.el ∧ t.iset = s.iset ∧ t.bigendian = s.bigendian ∧
    t.cfg = s.cfg ∧ t.unwritten = { s.unwritten with d := t.unwritten.d }

/-- `s` with `pc` four bytes on and, in T32, `ITSTATE` advanced (40_vst1_operation.md R89); nothing else. -/
def advanced (iset : ISet) (s : State) : State :=
  { s with
    pc := s.pc + 4#32
    itstate := match iset with
      | .a32 => s.itstate
      | .t32 => itAdvanced s.itstate }

/-- The conditions on state and operands under which a VST1 of `regs` registers, its `align` valid for its class and its
condition passed, runs to its end (40_vst1_operation.md R77 items 3 to 10). -/
structure Runs (regs : Nat) (dd : DReg) (rn : RReg) (size : ElemSize) (align : Align) (s : State) : Prop where
  base : rn ≠ 15
  list : dd.val + regs ≤ 32
  enabled : s.advSIMDAccess = .enabled
  baseWritten : s.written (.r rn) = true
  listWritten : ∀ r < regs, s.written (.d (DReg.plus dd r)) = true
  whole : (s.readR rn).toNat % Align.bytes align = 0
  element : s.cfg.alignEnforced = true → (s.readR rn).toNat % ElemSize.ebytes size = 0
  noWrap : (s.readR rn).toNat + 8 * regs ≤ 2 ^ 32
  notText : ∀ j < 8 * regs, Region.contains s.cfg.text ((s.readR rn).toNat + j) = false
  admitted : ∀ k < 8 * regs / accessWidth size,
    memAdmit s.cfg ((s.readR rn).toNat + accessWidth size * k) (accessWidth size) s.privileged = .ok

/-- What a completed VST1 leaves (40_vst1_operation.md R87 to R90): the registers' bytes from the base address on and no
other byte, the base register as given, `pc` four on, `ITSTATE` as given, all else as before. -/
structure Effect (regs : Nat) (dd : DReg) (rn : RReg) (size : ElemSize) (newBase : Word) (newIT : BitVec 8)
    (s t : State) : Prop where
  stored : ∀ r < regs, ∀ j < 8, byteAt t ((s.readR rn).toNat + (8 * r + j)) =
    some (registerByte s.bigendian (ElemSize.ebytes size) (s.readD (DReg.plus dd r)) j)
  untouched : ∀ a, (a < (s.readR rn).toNat ∨ (s.readR rn).toNat + 8 * regs ≤ a) → byteAt t a = byteAt s a
  base : t.readR rn = newBase
  others : ∀ k, k ≠ rn → t.readR k = s.readR k
  dregs : t.d = s.d
  marks : t.unwritten = s.unwritten
  pc : t.pc = s.pc + 4#32
  itstate : t.itstate = newIT
  elsewhere : SameElsewhere s t
  draws : t.draws = s.draws

/-- The register count of an instruction. -/
def regs (i : Instr) : Nat := ListLen.regs i.form.len

/-- The base register's value. -/
def baseOf (i : Instr) (s : State) : Word := s.readR i.form.rn

/-- The address of byte `j` of the footprint, modulo 2^32 (20_memory.md R43, 40_vst1_operation.md R81). -/
def footprintAt (i : Instr) (s : State) (j : Nat) : Nat := (baseOf i s + BitVec.ofNat 32 j).toNat

/-- The condition passes (40_vst1_operation.md R78). -/
def CondPasses (i : Instr) (s : State) : Prop := conditionPassed i.iset s = .ok true

/-- `align` is UNDEFINED for the class (40_vst1_operation.md R82). -/
def AlignUndefined (i : Instr) : Prop :=
  match i.form.len with
  | .one => i.form.align = .a128 ∨ i.form.align = .a256
  | .two => i.form.align = .a256
  | .three => i.form.align = .a128 ∨ i.form.align = .a256
  | .four => False

/-- The Decode block raises nothing: the condition passes, `align` is valid, `n` is not 15 and the list ends by D31. -/
def DecodesClean (i : Instr) (s : State) : Prop :=
  CondPasses i s ∧ ¬ AlignUndefined i ∧ i.form.rn ≠ 15 ∧ i.form.dd.val + regs i ≤ 32

/-- The registers the transfer reads, in the order of 40_vst1_operation.md R77 item 6: the base, the list, and `R[m]` with
`register_index`. -/
def readsOf (i : Instr) : List RegName :=
  .r i.form.rn :: ((List.range (regs i)).map (fun r => .d (DReg.plus i.form.dd r)) ++
    (if i.form.rm = 13 ∨ i.form.rm = 15 then [] else [.r i.form.rm]))

/-- The enable check passes as well, and every register the transfer reads holds a value, so the transfer is attempted
(40_vst1_operation.md R77 items 1 to 6). -/
def Attempts (i : Instr) (s : State) : Prop :=
  DecodesClean i s ∧ s.advSIMDAccess = .enabled ∧ ∀ x ∈ readsOf i, s.written x = true

/-- The whole-transfer alignment or the enforced element alignment is violated (40_vst1_operation.md R85, 20_memory.md
R40). -/
def Misaligned (i : Instr) (s : State) : Prop :=
  (baseOf i s).toNat % Align.bytes i.form.align ≠ 0 ∨
    (s.cfg.alignEnforced = true ∧ (baseOf i s).toNat % ElemSize.ebytes i.form.size ≠ 0)

/-- `MemAdmit`'s answer for the `k`-th access of the instruction (20_memory.md R45). -/
def verdictAt (i : Instr) (s : State) (k : Nat) : Verdict :=
  memAdmit s.cfg ((baseOf i s).toNat + accessWidth i.form.size * k) (accessWidth i.form.size) s.privileged

/-- How many accesses the instruction makes (20_memory.md R43). -/
def accesses (i : Instr) : Nat := 8 * regs i / accessWidth i.form.size

/-- Every admitted byte of the footprint is UNKNOWN in `t` (some value drawn from the free values) and every other byte
is as in `s` (20_memory.md R47, 40_vst1_operation.md R81). -/
def FootprintUnknown (i : Instr) (s t : State) : Prop :=
  ∀ a,
    ((∃ j < 8 * regs i, a = footprintAt i s j) → memAdmit s.cfg a 1 s.privileged = .ok →
      ∃ m, byteAt t a = some (Config.unknownByte m)) ∧
    (¬ ((∃ j < 8 * regs i, a = footprintAt i s j) ∧ memAdmit s.cfg a 1 s.privileged = .ok) →
      byteAt t a = byteAt s a)

end Sys2Proof.Claims

open Sys2Proof Sys2Proof.Machine Sys2Proof.Claims

/-- 95_test_vectors.md V6, V7: sample words decode to the instructions the spec names. -/
def Obligations.DecodesWordsOfTheSpec : Prop :=
  decode .a32 0xF400070F#32 = .ok (.vst1A1Nowb 0 0 .b8 .omitted) ∧
  decode .a32 0xF4421783#32 = .ok (.vst1A1Postr 17 2 .b32 .omitted 3) ∧
  decode .a32 0xF4042AED#32 = .ok (.vst1A2Posti 2 4 .b64 .a128) ∧
  decode .a32 0xF448D6C8#32 = .ok (.vst1A3Postr 29 8 .b64 .omitted 8) ∧
  decode .a32 0xF409023F#32 = .ok (.vst1A4Nowb 0 9 .b8 .a256) ∧
  decode .t32 0xF94DF78D#32 = .ok (.vst1T1Posti 31 13 .b32 .omitted) ∧
  decode .t32 0xF9454A90#32 = .ok (.vst1T2Postr 20 5 .b32 .a64 0) ∧
  decode .t32 0xF90C16CF#32 = .ok (.vst1T3Nowb 1 12 .b64 .omitted) ∧
  decode .t32 0xF900027D#32 = .ok (.vst1T4Posti 0 0 .b16 .a256) ∧
  decode .t32 0xF94682E7#32 = .ok (.vst1T4Postr 24 6 .b64 .a128 7) ∧
  decode .a32 0xF420070F#32 = .error .notThisInstruction ∧
  decode .t32 0xF400070F#32 = .error .notThisInstruction

/-- 30_encoding.md R76, "Assembling, the inverse of rule R64": decode after encode. -/
def Obligations.DecodeOfEncodeIsTheInstruction : Prop :=
  ∀ i : Instr, i.wellFormed = true →
    decode i.iset (encode i) = .ok i ∧ decodeBytes i.iset (encodeBytes i) = .ok (i, [])

/-- 30_encoding.md R76, R64: encode after decode, so no bit of a word is dropped. -/
def Obligations.EncodeOfDecodeIsTheWord : Prop :=
  ∀ (iset : ISet) (w : Word) (i : Instr), decode iset w = .ok i →
    i.iset = iset ∧ i.wellFormed = true ∧ encode i = w

/-- 30_encoding.md R65: `instr & mask == match` for every encoding. -/
def Obligations.DecodeFollowsMatchAndMask : Prop :=
  ∀ w : Word,
    ((∃ dd rn size align, decode .a32 w = .ok (.vst1A1Nowb dd rn size align)) ↔ w &&& 0xFFB00F0F#32 = 0xF400070F#32) ∧
    ((∃ dd rn size align, decode .a32 w = .ok (.vst1A1Posti dd rn size align)) ↔ w &&& 0xFFB00F0F#32 = 0xF400070D#32) ∧
    ((∃ dd rn size align rm, decode .a32 w = .ok (.vst1A1Postr dd rn size align rm)) ↔
      w &&& 0xFFB00F00#32 = 0xF4000700#32 ∧ w &&& 0x0F#32 ≠ 0x0F#32 ∧ w &&& 0x0F#32 ≠ 0x0D#32) ∧
    ((∃ dd rn size align, decode .a32 w = .ok (.vst1A2Nowb dd rn size align)) ↔ w &&& 0xFFB00F0F#32 = 0xF4000A0F#32) ∧
    ((∃ dd rn size align, decode .a32 w = .ok (.vst1A2Posti dd rn size align)) ↔ w &&& 0xFFB00F0F#32 = 0xF4000A0D#32) ∧
    ((∃ dd rn size align rm, decode .a32 w = .ok (.vst1A2Postr dd rn size align rm)) ↔
      w &&& 0xFFB00F00#32 = 0xF4000A00#32 ∧ w &&& 0x0F#32 ≠ 0x0F#32 ∧ w &&& 0x0F#32 ≠ 0x0D#32) ∧
    ((∃ dd rn size align, decode .a32 w = .ok (.vst1A3Nowb dd rn size align)) ↔ w &&& 0xFFB00F0F#32 = 0xF400060F#32) ∧
    ((∃ dd rn size align, decode .a32 w = .ok (.vst1A3Posti dd rn size align)) ↔ w &&& 0xFFB00F0F#32 = 0xF400060D#32) ∧
    ((∃ dd rn size align rm, decode .a32 w = .ok (.vst1A3Postr dd rn size align rm)) ↔
      w &&& 0xFFB00F00#32 = 0xF4000600#32 ∧ w &&& 0x0F#32 ≠ 0x0F#32 ∧ w &&& 0x0F#32 ≠ 0x0D#32) ∧
    ((∃ dd rn size align, decode .a32 w = .ok (.vst1A4Nowb dd rn size align)) ↔ w &&& 0xFFB00F0F#32 = 0xF400020F#32) ∧
    ((∃ dd rn size align, decode .a32 w = .ok (.vst1A4Posti dd rn size align)) ↔ w &&& 0xFFB00F0F#32 = 0xF400020D#32) ∧
    ((∃ dd rn size align rm, decode .a32 w = .ok (.vst1A4Postr dd rn size align rm)) ↔
      w &&& 0xFFB00F00#32 = 0xF4000200#32 ∧ w &&& 0x0F#32 ≠ 0x0F#32 ∧ w &&& 0x0F#32 ≠ 0x0D#32) ∧
    ((∃ dd rn size align, decode .t32 w = .ok (.vst1T1Nowb dd rn size align)) ↔ w &&& 0xFFB00F0F#32 = 0xF900070F#32) ∧
    ((∃ dd rn size align, decode .t32 w = .ok (.vst1T1Posti dd rn size align)) ↔ w &&& 0xFFB00F0F#32 = 0xF900070D#32) ∧
    ((∃ dd rn size align rm, decode .t32 w = .ok (.vst1T1Postr dd rn size align rm)) ↔
      w &&& 0xFFB00F00#32 = 0xF9000700#32 ∧ w &&& 0x0F#32 ≠ 0x0F#32 ∧ w &&& 0x0F#32 ≠ 0x0D#32) ∧
    ((∃ dd rn size align, decode .t32 w = .ok (.vst1T2Nowb dd rn size align)) ↔ w &&& 0xFFB00F0F#32 = 0xF9000A0F#32) ∧
    ((∃ dd rn size align, decode .t32 w = .ok (.vst1T2Posti dd rn size align)) ↔ w &&& 0xFFB00F0F#32 = 0xF9000A0D#32) ∧
    ((∃ dd rn size align rm, decode .t32 w = .ok (.vst1T2Postr dd rn size align rm)) ↔
      w &&& 0xFFB00F00#32 = 0xF9000A00#32 ∧ w &&& 0x0F#32 ≠ 0x0F#32 ∧ w &&& 0x0F#32 ≠ 0x0D#32) ∧
    ((∃ dd rn size align, decode .t32 w = .ok (.vst1T3Nowb dd rn size align)) ↔ w &&& 0xFFB00F0F#32 = 0xF900060F#32) ∧
    ((∃ dd rn size align, decode .t32 w = .ok (.vst1T3Posti dd rn size align)) ↔ w &&& 0xFFB00F0F#32 = 0xF900060D#32) ∧
    ((∃ dd rn size align rm, decode .t32 w = .ok (.vst1T3Postr dd rn size align rm)) ↔
      w &&& 0xFFB00F00#32 = 0xF9000600#32 ∧ w &&& 0x0F#32 ≠ 0x0F#32 ∧ w &&& 0x0F#32 ≠ 0x0D#32) ∧
    ((∃ dd rn size align, decode .t32 w = .ok (.vst1T4Nowb dd rn size align)) ↔ w &&& 0xFFB00F0F#32 = 0xF900020F#32) ∧
    ((∃ dd rn size align, decode .t32 w = .ok (.vst1T4Posti dd rn size align)) ↔ w &&& 0xFFB00F0F#32 = 0xF900020D#32) ∧
    ((∃ dd rn size align rm, decode .t32 w = .ok (.vst1T4Postr dd rn size align rm)) ↔
      w &&& 0xFFB00F00#32 = 0xF9000200#32 ∧ w &&& 0x0F#32 ≠ 0x0F#32 ∧ w &&& 0x0F#32 ≠ 0x0D#32)

/-- 30_encoding.md R64, R68, R58, R59: the words the decoder refuses, and the fields it reads. -/
def Obligations.DecoderReadsTheFields : Prop :=
  ∀ (iset : ISet) (w : Word),
    (decode iset w = .error .notThisInstruction ↔
      (w.extractLsb' 23 9 ≠ (match iset with | .a32 => 0b111101000#9 | .t32 => 0b111110010#9)) ∨
      w.extractLsb' 20 2 ≠ 0b00#2 ∨
      (w.extractLsb' 8 4 ≠ 0b0111#4 ∧ w.extractLsb' 8 4 ≠ 0b1010#4 ∧ w.extractLsb' 8 4 ≠ 0b0110#4 ∧
        w.extractLsb' 8 4 ≠ 0b0010#4)) ∧
    ∀ i : Instr, decode iset w = .ok i →
      i.iset = iset ∧
      w.extractLsb' 8 4 = (match i.form.len with
        | .one => 0b0111#4 | .two => 0b1010#4 | .three => 0b0110#4 | .four => 0b0010#4) ∧
      i.form.dd.val = 16 * (w.extractLsb' 22 1).toNat + (w.extractLsb' 12 4).toNat ∧
      i.form.rn.val = (w.extractLsb' 16 4).toNat ∧
      ElemSize.ebytes i.form.size = 2 ^ (w.extractLsb' 6 2).toNat ∧
      Align.bytes i.form.align =
        (if w.extractLsb' 4 2 = 0b00#2 then 1 else 4 * 2 ^ (w.extractLsb' 4 2).toNat) ∧
      i.form.rm.val = (w.extractLsb' 0 4).toNat

/-- 30_encoding.md R57: `instr_T32 = instr_A32 + 0x0500_0000`. -/
def Obligations.T32WordIsA32WordPlusConstant : Prop :=
  ∀ (dd : DReg) (rn : RReg) (size : ElemSize) (align : Align) (rm : RReg),
    encode (.vst1T1Nowb dd rn size align) = encode (.vst1A1Nowb dd rn size align) + 0x05000000#32 ∧
    encode (.vst1T1Posti dd rn size align) = encode (.vst1A1Posti dd rn size align) + 0x05000000#32 ∧
    encode (.vst1T1Postr dd rn size align rm) = encode (.vst1A1Postr dd rn size align rm) + 0x05000000#32 ∧
    encode (.vst1T2Nowb dd rn size align) = encode (.vst1A2Nowb dd rn size align) + 0x05000000#32 ∧
    encode (.vst1T2Posti dd rn size align) = encode (.vst1A2Posti dd rn size align) + 0x05000000#32 ∧
    encode (.vst1T2Postr dd rn size align rm) = encode (.vst1A2Postr dd rn size align rm) + 0x05000000#32 ∧
    encode (.vst1T3Nowb dd rn size align) = encode (.vst1A3Nowb dd rn size align) + 0x05000000#32 ∧
    encode (.vst1T3Posti dd rn size align) = encode (.vst1A3Posti dd rn size align) + 0x05000000#32 ∧
    encode (.vst1T3Postr dd rn size align rm) = encode (.vst1A3Postr dd rn size align rm) + 0x05000000#32 ∧
    encode (.vst1T4Nowb dd rn size align) = encode (.vst1A4Nowb dd rn size align) + 0x05000000#32 ∧
    encode (.vst1T4Posti dd rn size align) = encode (.vst1A4Posti dd rn size align) + 0x05000000#32 ∧
    encode (.vst1T4Postr dd rn size align rm) = encode (.vst1A4Postr dd rn size align rm) + 0x05000000#32

/-- 20_memory.md R51: the A32 fetch; the step is the meaning of the decoded instruction. -/
def Obligations.StepRunsA32Instruction : Prop :=
  ∀ (s : State) (b0 b1 b2 b3 : Byte) (i : Instr),
    s.iset = .a32 → s.pc.toNat % 4 = 0 → s.pc.toNat ≤ 0xFFFFFFFB → Region.covers s.cfg.text s.pc.toNat 4 = true →
    byteAt s s.pc.toNat = some b0 → byteAt s (s.pc.toNat + 1) = some b1 →
    byteAt s (s.pc.toNat + 2) = some b2 → byteAt s (s.pc.toNat + 3) = some b3 →
    decode .a32 (b3 ++ b2 ++ b1 ++ b0) = .ok i →
    step s = exec i s

/-- 20_memory.md R51: the T32 fetch; the step is the meaning of the decoded instruction. -/
def Obligations.StepRunsT32Instruction : Prop :=
  ∀ (s : State) (b0 b1 b2 b3 : Byte) (i : Instr),
    s.iset = .t32 → s.pc.toNat % 2 = 0 → s.pc.toNat ≤ 0xFFFFFFFB → Region.covers s.cfg.text s.pc.toNat 4 = true →
    byteAt s s.pc.toNat = some b0 → byteAt s (s.pc.toNat + 1) = some b1 →
    byteAt s (s.pc.toNat + 2) = some b2 → byteAt s (s.pc.toNat + 3) = some b3 →
    decode .t32 ((b1 ++ b0) ++ (b3 ++ b2)) = .ok i →
    step s = exec i s

/-- 20_memory.md R51, 10_state.md R20, 30_encoding.md R68: what the fetch and the decoder refuse. That a program byte at an
unallocated address is a refusal of its own is the model's choice (log entry 4). -/
def Obligations.StepRefusesBadPcAndForeignWords : Prop :=
  (∀ s : State, step s = .refused .badPC ↔
    (s.pc.toNat % (match s.iset with | .a32 => 4 | .t32 => 2) ≠ 0 ∨ 0xFFFFFFFB < s.pc.toNat ∨
      Region.covers s.cfg.text s.pc.toNat 4 = false)) ∧
  (∀ s : State, step s = .refused .textUnallocated ↔
    s.pcUsable = true ∧ ∃ j < 4, byteAt s (s.pc.toNat + j) = none) ∧
  (∀ (s : State) (bs : List Byte), s.pcUsable = true → s.readBytes s.pc.toNat 4 = some bs →
    ((∀ i rest, decodeBytes s.iset bs ≠ .ok (i, rest)) ↔ step s = .refused .notInScope))

/-- The model's choice (log entry 12), over 20_memory.md R51 and 70_reset_and_hazards.md R141: a loaded word is fetched. -/
def Obligations.LoadedWordRunsNext : Prop :=
  ∀ (s : State) (i : Instr), i.wellFormed = true →
    step (s.withFetchWord 32 (encode i).toNat) = exec i (s.withFetchWord 32 (encode i).toNat)

/-- 40_vst1_operation.md R78: `ConditionPassed()` and what a failed condition leaves. The reading of `ITSTATE`, the condition
table and the silent failed condition are general knowledge and decisions of the spec (GK4, GK15, D5, D22), which log entry
14 marks PRESUMED and unsafe. Which of several `unwritten` flags is named is the model's (log entry 16). -/
def Obligations.ConditionPassedRule : Prop :=
  (∀ s : State, conditionPassed .a32 s = .ok true) ∧
  (∀ s : State, s.itstate.extractLsb' 0 4 ≠ 0x0#4 → (∀ x ∈ consulted (condOf s), s.written x = true) →
    conditionPassed .t32 s = .ok (condition (condOf s) s)) ∧
  (∀ (i : Instr) (s : State) (x : RegName), i.iset = .t32 → s.itstate.extractLsb' 0 4 ≠ 0x0#4 →
    FirstUnwritten s (consulted (condOf s)) x → exec i s = .fault (.unwrittenRegister x)) ∧
  (∀ s : State, s.itstate = 0x00#8 → conditionPassed .t32 s = .ok true) ∧
  (∀ (i : Instr) (s : State), i.iset = .t32 → s.itstate.extractLsb' 0 4 = 0x0#4 → s.itstate ≠ 0x00#8 →
    exec i s = .refused .badITSTATE) ∧
  (∀ (i : Instr) (s : State), i.iset = .t32 → conditionPassed .t32 s = .ok false →
    exec i s = .next (advanced .t32 s))

/-- 40_vst1_operation.md R89: `pc <- pc + 4` and the advance of `ITSTATE`. Both advances rest on GK4, GK19, D4 and D5, which
log entry 14 marks PRESUMED and unsafe; that `pc` is taken modulo 2^32 at a state no step reaches is log entry 10
(DEDUCED). -/
def Obligations.PcAndItstateAdvance : Prop :=
  ∀ (i : Instr) (s : State),
    (∀ t, exec i s = .next t →
      t.pc = s.pc + 4#32 ∧
      (i.iset = .a32 → t.itstate = s.itstate) ∧
      (i.iset = .t32 → s.itstate.extractLsb' 0 3 = 0b000#3 → t.itstate = 0x00#8) ∧
      (i.iset = .t32 → s.itstate.extractLsb' 0 3 ≠ 0b000#3 →
        t.itstate.extractLsb' 5 3 = s.itstate.extractLsb' 5 3 ∧
        t.itstate.extractLsb' 0 5 = s.itstate.extractLsb' 0 5 <<< 1) ∧
      (∀ k, k ≠ i.form.rn ∨ i.form.rm = 15 → t.readR k = s.readR k)) ∧
    (∀ kind a desc left, exec i s = .fault (.memoryAbort kind a desc left) →
      left.pc = s.pc ∧ left.itstate = s.itstate)

/-- 41_vst1_a32.md R95, R98, R101, R104: the A32 encodings with no writeback complete, and what they leave. -/
def Obligations.A32NowbCompletes : Prop :=
  ∀ (dd : DReg) (rn : RReg) (size : ElemSize) (align : Align) (s : State),
    ((align = .omitted ∨ align = .a64) → Runs 1 dd rn size align s →
      ∃ t, exec (.vst1A1Nowb dd rn size align) s = .next t ∧
        Effect 1 dd rn size (s.readR rn) s.itstate s t) ∧
    ((align ≠ .a256) → Runs 2 dd rn size align s →
      ∃ t, exec (.vst1A2Nowb dd rn size align) s = .next t ∧
        Effect 2 dd rn size (s.readR rn) s.itstate s t) ∧
    ((align = .omitted ∨ align = .a64) → Runs 3 dd rn size align s →
      ∃ t, exec (.vst1A3Nowb dd rn size align) s = .next t ∧
        Effect 3 dd rn size (s.readR rn) s.itstate s t) ∧
    (Runs 4 dd rn size align s →
      ∃ t, exec (.vst1A4Nowb dd rn size align) s = .next t ∧
        Effect 4 dd rn size (s.readR rn) s.itstate s t)

/-- 41_vst1_a32.md R96, R99, R102, R105: the A32 encodings with writeback by the transfer size complete, and what they leave. -/
def Obligations.A32PostiCompletes : Prop :=
  ∀ (dd : DReg) (rn : RReg) (size : ElemSize) (align : Align) (s : State),
    ((align = .omitted ∨ align = .a64) → Runs 1 dd rn size align s →
      ∃ t, exec (.vst1A1Posti dd rn size align) s = .next t ∧
        Effect 1 dd rn size (s.readR rn + 8#32) s.itstate s t) ∧
    ((align ≠ .a256) → Runs 2 dd rn size align s →
      ∃ t, exec (.vst1A2Posti dd rn size align) s = .next t ∧
        Effect 2 dd rn size (s.readR rn + 16#32) s.itstate s t) ∧
    ((align = .omitted ∨ align = .a64) → Runs 3 dd rn size align s →
      ∃ t, exec (.vst1A3Posti dd rn size align) s = .next t ∧
        Effect 3 dd rn size (s.readR rn + 24#32) s.itstate s t) ∧
    (Runs 4 dd rn size align s →
      ∃ t, exec (.vst1A4Posti dd rn size align) s = .next t ∧
        Effect 4 dd rn size (s.readR rn + 32#32) s.itstate s t)

/-- 41_vst1_a32.md R97, R100, R103, R106: the A32 encodings with writeback by a register complete, and what they leave. -/
def Obligations.A32PostrCompletes : Prop :=
  ∀ (dd : DReg) (rn : RReg) (size : ElemSize) (align : Align) (rm : RReg) (s : State), rm ≠ 13 → rm ≠ 15 →
    s.written (.r rm) = true →
    ((align = .omitted ∨ align = .a64) → Runs 1 dd rn size align s →
      ∃ t, exec (.vst1A1Postr dd rn size align rm) s = .next t ∧
        Effect 1 dd rn size (s.readR rn + s.readR rm) s.itstate s t) ∧
    ((align ≠ .a256) → Runs 2 dd rn size align s →
      ∃ t, exec (.vst1A2Postr dd rn size align rm) s = .next t ∧
        Effect 2 dd rn size (s.readR rn + s.readR rm) s.itstate s t) ∧
    ((align = .omitted ∨ align = .a64) → Runs 3 dd rn size align s →
      ∃ t, exec (.vst1A3Postr dd rn size align rm) s = .next t ∧
        Effect 3 dd rn size (s.readR rn + s.readR rm) s.itstate s t) ∧
    (Runs 4 dd rn size align s →
      ∃ t, exec (.vst1A4Postr dd rn size align rm) s = .next t ∧
        Effect 4 dd rn size (s.readR rn + s.readR rm) s.itstate s t)

/-- 42_vst1_t32.md R107, R110, R113, R116: the T32 encodings with no writeback complete, and what they leave. -/
def Obligations.T32NowbCompletes : Prop :=
  ∀ (dd : DReg) (rn : RReg) (size : ElemSize) (align : Align) (s : State),
    (conditionPassed .t32 s = .ok true → (align = .omitted ∨ align = .a64) → Runs 1 dd rn size align s →
      ∃ t, exec (.vst1T1Nowb dd rn size align) s = .next t ∧
        Effect 1 dd rn size (s.readR rn) (itAdvanced s.itstate) s t) ∧
    (conditionPassed .t32 s = .ok true → (align ≠ .a256) → Runs 2 dd rn size align s →
      ∃ t, exec (.vst1T2Nowb dd rn size align) s = .next t ∧
        Effect 2 dd rn size (s.readR rn) (itAdvanced s.itstate) s t) ∧
    (conditionPassed .t32 s = .ok true → (align = .omitted ∨ align = .a64) → Runs 3 dd rn size align s →
      ∃ t, exec (.vst1T3Nowb dd rn size align) s = .next t ∧
        Effect 3 dd rn size (s.readR rn) (itAdvanced s.itstate) s t) ∧
    (conditionPassed .t32 s = .ok true → Runs 4 dd rn size align s →
      ∃ t, exec (.vst1T4Nowb dd rn size align) s = .next t ∧
        Effect 4 dd rn size (s.readR rn) (itAdvanced s.itstate) s t)

/-- 42_vst1_t32.md R108, R111, R114, R117: the T32 encodings with writeback by the transfer size complete, and what they leave. -/
def Obligations.T32PostiCompletes : Prop :=
  ∀ (dd : DReg) (rn : RReg) (size : ElemSize) (align : Align) (s : State),
    (conditionPassed .t32 s = .ok true → (align = .omitted ∨ align = .a64) → Runs 1 dd rn size align s →
      ∃ t, exec (.vst1T1Posti dd rn size align) s = .next t ∧
        Effect 1 dd rn size (s.readR rn + 8#32) (itAdvanced s.itstate) s t) ∧
    (conditionPassed .t32 s = .ok true → (align ≠ .a256) → Runs 2 dd rn size align s →
      ∃ t, exec (.vst1T2Posti dd rn size align) s = .next t ∧
        Effect 2 dd rn size (s.readR rn + 16#32) (itAdvanced s.itstate) s t) ∧
    (conditionPassed .t32 s = .ok true → (align = .omitted ∨ align = .a64) → Runs 3 dd rn size align s →
      ∃ t, exec (.vst1T3Posti dd rn size align) s = .next t ∧
        Effect 3 dd rn size (s.readR rn + 24#32) (itAdvanced s.itstate) s t) ∧
    (conditionPassed .t32 s = .ok true → Runs 4 dd rn size align s →
      ∃ t, exec (.vst1T4Posti dd rn size align) s = .next t ∧
        Effect 4 dd rn size (s.readR rn + 32#32) (itAdvanced s.itstate) s t)

/-- 42_vst1_t32.md R109, R112, R115, R118: the T32 encodings with writeback by a register complete, and what they leave. -/
def Obligations.T32PostrCompletes : Prop :=
  ∀ (dd : DReg) (rn : RReg) (size : ElemSize) (align : Align) (rm : RReg) (s : State), rm ≠ 13 → rm ≠ 15 →
    s.written (.r rm) = true →
    (conditionPassed .t32 s = .ok true → (align = .omitted ∨ align = .a64) → Runs 1 dd rn size align s →
      ∃ t, exec (.vst1T1Postr dd rn size align rm) s = .next t ∧
        Effect 1 dd rn size (s.readR rn + s.readR rm) (itAdvanced s.itstate) s t) ∧
    (conditionPassed .t32 s = .ok true → (align ≠ .a256) → Runs 2 dd rn size align s →
      ∃ t, exec (.vst1T2Postr dd rn size align rm) s = .next t ∧
        Effect 2 dd rn size (s.readR rn + s.readR rm) (itAdvanced s.itstate) s t) ∧
    (conditionPassed .t32 s = .ok true → (align = .omitted ∨ align = .a64) → Runs 3 dd rn size align s →
      ∃ t, exec (.vst1T3Postr dd rn size align rm) s = .next t ∧
        Effect 3 dd rn size (s.readR rn + s.readR rm) (itAdvanced s.itstate) s t) ∧
    (conditionPassed .t32 s = .ok true → Runs 4 dd rn size align s →
      ∃ t, exec (.vst1T4Postr dd rn size align rm) s = .next t ∧
        Effect 4 dd rn size (s.readR rn + s.readR rm) (itAdvanced s.itstate) s t)

/-- 40_vst1_operation.md R87: the memory image of a completed VST1 in closed form. -/
def Obligations.MemoryImageClosedForm : Prop :=
  ∀ (i : Instr) (s t : State), CondPasses i s → i.form.dd.val + regs i ≤ 32 → exec i s = .next t →
    (∀ r < regs i, ∀ j < 8,
      (s.bigendian = false → byteAt t ((baseOf i s).toNat + 8 * r + j) =
        some ((s.readD (DReg.plus i.form.dd r)).extractLsb' (8 * j) 8)) ∧
      (s.bigendian = true → ∀ e k, j = e * ElemSize.ebytes i.form.size + k → k < ElemSize.ebytes i.form.size →
        byteAt t ((baseOf i s).toNat + 8 * r + j) =
          some ((s.readD (DReg.plus i.form.dd r)).extractLsb'
            (8 * (e * ElemSize.ebytes i.form.size + (ElemSize.ebytes i.form.size - 1 - k))) 8))) ∧
    (∀ a, (a < (baseOf i s).toNat ∨ (baseOf i s).toNat + 8 * regs i ≤ a) → byteAt t a = byteAt s a)

/-- 95_test_vectors.md V73 (c): reading the stored bytes back gives the registers. -/
def Obligations.StoredRegistersReadBack : Prop :=
  ∀ (i : Instr) (s t : State), CondPasses i s → i.form.dd.val + regs i ≤ 32 → exec i s = .next t →
    ∀ r < regs i, ∃ b0 b1 b2 b3 b4 b5 b6 b7 : Byte,
      byteAt t ((baseOf i s).toNat + 8 * r) = some b0 ∧ byteAt t ((baseOf i s).toNat + 8 * r + 1) = some b1 ∧
      byteAt t ((baseOf i s).toNat + 8 * r + 2) = some b2 ∧ byteAt t ((baseOf i s).toNat + 8 * r + 3) = some b3 ∧
      byteAt t ((baseOf i s).toNat + 8 * r + 4) = some b4 ∧ byteAt t ((baseOf i s).toNat + 8 * r + 5) = some b5 ∧
      byteAt t ((baseOf i s).toNat + 8 * r + 6) = some b6 ∧ byteAt t ((baseOf i s).toNat + 8 * r + 7) = some b7 ∧
      (s.bigendian = false ∨ i.form.size = .b8 →
        s.readD (DReg.plus i.form.dd r) = b7 ++ b6 ++ b5 ++ b4 ++ b3 ++ b2 ++ b1 ++ b0) ∧
      (s.bigendian = true → i.form.size = .b64 →
        s.readD (DReg.plus i.form.dd r) = b0 ++ b1 ++ b2 ++ b3 ++ b4 ++ b5 ++ b6 ++ b7)

/-- 40_vst1_operation.md R88: writeback after the stores. -/
def Obligations.WritebackRule : Prop :=
  ∀ (i : Instr) (s t : State), CondPasses i s → i.form.dd.val + regs i ≤ 32 → exec i s = .next t →
    (i.form.rm = 15 → t.readR i.form.rn = s.readR i.form.rn) ∧
    (i.form.rm = 13 → t.readR i.form.rn = s.readR i.form.rn + BitVec.ofNat 32 (8 * regs i)) ∧
    (i.form.rm ≠ 13 → i.form.rm ≠ 15 → t.readR i.form.rn = s.readR i.form.rn + s.readR i.form.rm) ∧
    (∀ k, k ≠ i.form.rn → t.readR k = s.readR k)

/-- 10_state.md R33, the frame rule. The marks of R31 belong to the registers: those of a register that does not change do
not change. -/
def Obligations.FrameOfEveryVst1 : Prop :=
  ∀ (i : Instr) (s t : State), exec i s = .next t →
    (∀ a, (∀ j < 8 * regs i, a ≠ footprintAt i s j) → byteAt t a = byteAt s a) ∧
    (∀ k, k ≠ i.form.rn ∨ i.form.rm = 15 → t.readR k = s.readR k) ∧
    (i.iset = .a32 → t.itstate = s.itstate) ∧
    SameElsewhere s t ∧
    (¬ (32 < i.form.dd.val + regs i ∧ s.cfg.cuDregs = .unknown) → t.d = s.d ∧ t.unwritten = s.unwritten) ∧
    (∀ k, (∀ r < regs i, k ≠ DReg.plus i.form.dd r) →
      t.readD k = s.readD k ∧ t.written (.d k) = s.written (.d k))

/-- 40_vst1_operation.md R87, 95_test_vectors.md V73 (b): the size does not matter in little-endian. -/
def Obligations.ElementSizeIrrelevantInLittleEndian : Prop :=
  ∀ (f : Form) (size : ElemSize) (s t u : State), s.bigendian = false → f.dd.val + ListLen.regs f.len ≤ 32 →
    exec f.toInstr s = .next t → exec { f with size := size }.toInstr s = .next u → t = u

/-- 95_test_vectors.md V73 (g): equal fields, equal effect when the T32 condition passes. Where the outcome holds UNKNOWN
values (`d + regs > 32` under `cu_dregs` = UNKNOWN, the state a memory abort leaves) the two runs draw the same ones, since
both start from the same draw counter: that is the model's choice (log entry 7, DESIGN CHOICE), and
70_reset_and_hazards.md R148 leaves such values free. -/
def Obligations.A32AndT32HaveTheSameEffect : Prop :=
  ∀ (f : Form) (s : State), conditionPassed .t32 s = .ok true →
    exec { f with iset := .t32 }.toInstr s =
      match exec { f with iset := .a32 }.toInstr s with
      | .next t => .next { t with itstate := itAdvanced s.itstate }
      | .fault r => .fault r
      | .refused r => .refused r

/-- 40_vst1_operation.md R92: the register contents are moved bit for bit and decide nothing but the bytes stored. Where the
outcome holds UNKNOWN values, the two runs agree on them and on the draw count because both start from the same draw
counter: that is the model's choice (log entry 7, DESIGN CHOICE), and 70_reset_and_hazards.md R148 leaves such values
free. -/
def Obligations.StoredDataDoesNotSteer : Prop :=
  ∀ (i : Instr) (s : State) (x : Vector DWord 32),
    (∀ t, exec i s = .next t → ∃ u, exec i { s with d := x } = .next u ∧
      u.r = t.r ∧ u.pc = t.pc ∧ u.itstate = t.itstate ∧ u.draws = t.draws ∧ u.unwritten = t.unwritten ∧
      SameElsewhere t u ∧ ∀ a, (∀ j < 8 * regs i, a ≠ footprintAt i s j) → byteAt u a = byteAt t a) ∧
    (∀ kind a desc left, exec i s = .fault (.memoryAbort kind a desc left) →
      exec i { s with d := x } = .fault (.memoryAbort kind a desc { left with d := x })) ∧
    (∀ r, exec i s = .fault r → (∀ kind a desc left, r ≠ .memoryAbort kind a desc left) →
      exec i { s with d := x } = .fault r) ∧
    (∀ r, exec i s = .refused r → exec i { s with d := x } = .refused r)

/-- 40_vst1_operation.md R91: `m == n` with `register_index`. -/
def Obligations.BaseAsIndexDoublesTheBase : Prop :=
  ∀ (i : Instr) (s t : State), i.form.rm = i.form.rn → i.form.rm ≠ 13 → i.form.rm ≠ 15 →
    CondPasses i s → i.form.dd.val + regs i ≤ 32 → exec i s = .next t →
    t.readR i.form.rn = s.readR i.form.rn + s.readR i.form.rn

/-- 20_memory.md R46, 40_vst1_operation.md R91: the top of the address space. -/
def Obligations.FootprintMayEndAtTheTop : Prop :=
  ∀ (i : Instr) (s : State), Attempts i s → ¬ Misaligned i s →
    ((baseOf i s).toNat + 8 * regs i = 2 ^ 32 →
      exec i s ≠ .fault (.unpredictable .addressWrap) ∧
      ((∀ j < 8 * regs i, Region.contains s.cfg.text ((baseOf i s).toNat + j) = false) →
        (∀ k < accesses i, verdictAt i s k = .ok) →
        ∃ t, exec i s = .next t ∧
          (∀ r < regs i, ∀ j < 8, byteAt t ((baseOf i s).toNat + (8 * r + j)) =
            some (registerByte s.bigendian (ElemSize.ebytes i.form.size) (s.readD (DReg.plus i.form.dd r)) j)) ∧
          ∀ a < (baseOf i s).toNat, byteAt t a = byteAt s a) ∧
      (i.form.rm = 13 → ∀ t, exec i s = .next t → t.readR i.form.rn = 0#32)) ∧
    (2 ^ 32 < (baseOf i s).toNat + 8 * regs i → exec i s = .fault (.unpredictable .addressWrap))

/-- 40_vst1_operation.md R82: UNDEFINED by `align`. -/
def Obligations.AlignFieldUndefined : Prop :=
  (∀ (i : Instr) (s : State), CondPasses i s → AlignUndefined i → exec i s = .fault .undefinedInstruction) ∧
  (∀ (i : Instr) (s : State), i.form.len = .four → exec i s = .fault .undefinedInstruction →
    s.advSIMDAccess = .undefined ∨ s.cfg.cuDregs = .undef)

/-- 40_vst1_operation.md R80, decision D11: `n == 15`. -/
def Obligations.BaseRegister15IsUnpredictable : Prop :=
  ∀ (i : Instr) (s : State), CondPasses i s → ¬ AlignUndefined i → i.form.rn = 15 →
    exec i s = .fault (.unpredictable .baseIsPC)

/-- 40_vst1_operation.md R81: the four settings of `cu_dregs`. That the UNKNOWN option reaches the registers modulo 32 and
makes neither the enable check nor an alignment check is the spec's decision D12 (log entry 6), and that the footprint's
bytes are asked about one by one, with width 1, is the model's reading (`FootprintUnknown`; log entry 9, DEDUCED, unsafe).
That an UNKNOWN register holds a value, so is written, is log entry 16. -/
def Obligations.RegisterListPastD31 : Prop :=
  ∀ (i : Instr) (s : State), CondPasses i s → ¬ AlignUndefined i → i.form.rn ≠ 15 → 32 < i.form.dd.val + regs i →
    (s.cfg.cuDregs = .fault → exec i s = .fault (.unpredictable .regListPastD31)) ∧
    (s.cfg.cuDregs = .undef → exec i s = .fault .undefinedInstruction) ∧
    (s.cfg.cuDregs = .nop → exec i s = .next (advanced i.iset s)) ∧
    (s.cfg.cuDregs = .unknown → s.written (.r i.form.rn) = false →
      exec i s = .fault (.unwrittenRegister (.r i.form.rn))) ∧
    (s.cfg.cuDregs = .unknown → s.written (.r i.form.rn) = true →
      (∃ j < 8 * regs i, Region.contains s.cfg.text (footprintAt i s j) = true) →
      exec i s = .refused .storeToText) ∧
    (s.cfg.cuDregs = .unknown → s.written (.r i.form.rn) = true →
      (∀ j < 8 * regs i, Region.contains s.cfg.text (footprintAt i s j) = false) →
      ∃ t, exec i s = .next t ∧
        FootprintUnknown i s t ∧
        (∀ r < regs i, t.written (.d (DReg.plus i.form.dd r)) = true ∧
          ∃ m, t.readD (DReg.plus i.form.dd r) = Config.unknownDWord m) ∧
        (∀ k, (∀ r < regs i, k ≠ DReg.plus i.form.dd r) →
          t.readD k = s.readD k ∧ t.written (.d k) = s.written (.d k)) ∧
        (i.form.rm ≠ 15 → ∃ m, t.readR i.form.rn = Config.unknownWord m) ∧
        (∀ k, k ≠ i.form.rn ∨ i.form.rm = 15 → t.readR k = s.readR k) ∧
        t.pc = s.pc + 4#32 ∧ t.itstate = (advanced i.iset s).itstate ∧ SameElsewhere s t)

/-- 40_vst1_operation.md R83, 60_exceptions.md R126: the enable check and its place. -/
def Obligations.EnableCheckComesBeforeTheAccess : Prop :=
  ∀ (i : Instr) (s : State), DecodesClean i s →
    (s.advSIMDAccess = .undefined → exec i s = .fault .undefinedInstruction) ∧
    (s.advSIMDAccess = .hypTrap → exec i s = .fault .hypTrap)

/-- 60_exceptions.md R120: the causes of Undefined Instruction. That a failed condition raises none is GK15 and decision D22
(log entry 14, PRESUMED, unsafe); the third cause, and that no enable check is made past D31 under another setting, are
decision D12 (log entry 6). -/
def Obligations.UndefinedInstructionCauses : Prop :=
  ∀ (i : Instr) (s : State), exec i s = .fault .undefinedInstruction ↔
    CondPasses i s ∧
      (AlignUndefined i ∨ (DecodesClean i s ∧ s.advSIMDAccess = .undefined) ∨
        (¬ AlignUndefined i ∧ i.form.rn ≠ 15 ∧ 32 < i.form.dd.val + regs i ∧ s.cfg.cuDregs = .undef))

/-- 60_exceptions.md R121: the cause of the Hyp trap. Its place behind the Decode block is 40_vst1_operation.md R83 and
60_exceptions.md R126; that the enable check is a table by Exception level is decision D6 (log entry 3); that a register
list past D31 is never trapped under NOP or UNKNOWN is decision D12 (log entry 6). -/
def Obligations.HypTrapCause : Prop :=
  ∀ (i : Instr) (s : State), exec i s = .fault .hypTrap ↔ DecodesClean i s ∧ s.advSIMDAccess = .hypTrap

/-- 60_exceptions.md R122, 20_memory.md R40, R41: the alignment Data Abort. The check of 16-bit and 32-bit elements is GK8 and
decisions D8 and D9 (log entry 14, PRESUMED, unsafe); that none is made past D31 under UNKNOWN is decision D12 (log
entry 6). -/
def Obligations.AlignmentAbortCauses : Prop :=
  ∀ (i : Instr) (s : State) (a : DWord) (desc : AccessDescriptor),
    exec i s = .fault (.alignmentAbort a desc) ↔
      Attempts i s ∧ Misaligned i s ∧ a = (baseOf i s).setWidth 64 ∧
        desc = ⟨.store, false, false, s.el != .el0⟩

/-- 60_exceptions.md R123, R129, 20_memory.md R45, R47: the memory-system Data Abort. What it leaves is GK13 and decision D14;
that the footprint's bytes are asked about one by one, with width 1, is the model's reading (`FootprintUnknown`; log entry
9, DEDUCED, unsafe), the free values are log entry 7, and that the fault carries the state it leaves is log entry 13. -/
def Obligations.MemoryAbortCausesAndEffect : Prop :=
  ∀ (i : Instr) (s : State),
    ((∃ kind a desc left, exec i s = .fault (.memoryAbort kind a desc left)) ↔
      Attempts i s ∧ ¬ Misaligned i s ∧ (baseOf i s).toNat + 8 * regs i ≤ 2 ^ 32 ∧
        (∀ j < 8 * regs i, Region.contains s.cfg.text ((baseOf i s).toNat + j) = false) ∧
        ∃ k < accesses i, verdictAt i s k ≠ .ok) ∧
    (∀ kind a desc left, exec i s = .fault (.memoryAbort kind a desc left) →
      (∃ k < accesses i, (∀ j < k, verdictAt i s j = .ok) ∧ verdictAt i s k = .abort kind ∧
        a.toNat = (baseOf i s).toNat + accessWidth i.form.size * k) ∧
      desc = ⟨.store, false, false, s.el != .el0⟩ ∧
      FootprintUnknown i s left ∧
      left.r = s.r ∧ left.d = s.d ∧ left.unwritten = s.unwritten ∧ left.pc = s.pc ∧ left.itstate = s.itstate ∧ SameElsewhere s left)

/-- 60_exceptions.md R124: the causes of `Unpredictable`. That each of the three is a fault is the spec's own decision: D11
and D13 (log entry 8), and D12 (log entry 6). -/
def Obligations.UnpredictableCauses : Prop :=
  ∀ (i : Instr) (s : State),
    (exec i s = .fault (.unpredictable .baseIsPC) ↔
      CondPasses i s ∧ ¬ AlignUndefined i ∧ i.form.rn = 15) ∧
    (exec i s = .fault (.unpredictable .regListPastD31) ↔
      CondPasses i s ∧ ¬ AlignUndefined i ∧ i.form.rn ≠ 15 ∧ 32 < i.form.dd.val + regs i ∧
        s.cfg.cuDregs = .fault) ∧
    (exec i s = .fault (.unpredictable .addressWrap) ↔
      Attempts i s ∧ ¬ Misaligned i s ∧ 2 ^ 32 < (baseOf i s).toNat + 8 * regs i)

/-- 40_vst1_operation.md R93, 20_memory.md R53: when an instruction is refused. The order of the model's own checks past D31
(the base register's mark, then the program text) is R81's, decision D12 (log entry 6). -/
def Obligations.RefusalCauses : Prop :=
  ∀ (i : Instr) (s : State),
    (exec i s = .refused .badITSTATE ↔
      i.iset = .t32 ∧ s.itstate.extractLsb' 0 4 = 0x0#4 ∧ s.itstate ≠ 0x00#8) ∧
    (exec i s = .refused .storeToText ↔
      (Attempts i s ∧ ¬ Misaligned i s ∧ (baseOf i s).toNat + 8 * regs i ≤ 2 ^ 32 ∧
        ∃ j < 8 * regs i, Region.contains s.cfg.text ((baseOf i s).toNat + j) = true) ∨
      (CondPasses i s ∧ ¬ AlignUndefined i ∧ i.form.rn ≠ 15 ∧ 32 < i.form.dd.val + regs i ∧
        s.cfg.cuDregs = .unknown ∧ s.written (.r i.form.rn) = true ∧
        ∃ j < 8 * regs i, Region.contains s.cfg.text (footprintAt i s j) = true)) ∧
    (∀ r, exec i s = .refused r → r = .badITSTATE ∨ r = .storeToText)

/-- 20_memory.md R35, R51, 70_reset_and_hazards.md R141, R144: the invariant every step keeps, and that `end_pc` stays
aligned as `pc` must be. Which values of `ITSTATE` the invariant takes for legal in T32 is the model's choice (log entry
15). -/
def Obligations.StepKeepsTheInvariant : Prop :=
  ∀ s t : State, step s = .next t →
    (s.inv = true → t.inv = true) ∧ (s.endPcAligned = true → t.endPcAligned = true)

/-- The model's choice of reset values (log entries 1 to 4; 10_state.md R32 gives none) meets the invariant and
the launch premises of 70_reset_and_hazards.md R141 and R144. -/
def Obligations.ResetMeetsTheInvariant : Prop :=
  State.reset.inv = true ∧ State.reset.launchOk = true

/-- The model's choice (log entries 1, 2 and 4): 10_state.md R32 and 70_reset_and_hazards.md R140 state no reset value. -/
def Obligations.ResetValuesOfTheModel : Prop :=
  (∀ k, State.reset.readR k = 0#32) ∧ (∀ k, State.reset.readD k = 0#64) ∧
  State.reset.n = false ∧ State.reset.z = false ∧ State.reset.c = false ∧ State.reset.v = false ∧
  State.reset.itstate = 0x00#8 ∧ State.reset.iset = .a32 ∧ State.reset.pc = 0x00008000#32 ∧
  (∀ x, State.reset.written x = true) ∧
  (∀ a < 2 ^ 32, byteAt State.reset a = some 0x00#8) ∧ ∀ a, 2 ^ 32 ≤ a → byteAt State.reset a = none

/-- 20_memory.md R53, 70_reset_and_hazards.md R145: `text` is immutable. -/
def Obligations.ProgramTextIsImmutable : Prop :=
  ∀ s : State,
    (∀ t, step s = .next t → ∀ a, Region.contains s.cfg.text a = true → byteAt t a = byteAt s a) ∧
    (∀ kind addr desc left, step s = .fault (.memoryAbort kind addr desc left) →
      ∀ a, Region.contains s.cfg.text a = true → byteAt left a = byteAt s a)

/-- 10_state.md R21, R23, 20_memory.md R36, 00_scope.md R8: what no step writes. -/
def Obligations.StepKeepsModeFlagsAndConfiguration : Prop :=
  ∀ s t : State, step s = .next t → SameElsewhere s t ∧ t.readR 15 = s.readR 15

/-- 40_vst1_operation.md R89, 10_state.md R20, 70_reset_and_hazards.md R144: runs are straight-line. The premise is the
model's invariant, whose clause about `ITSTATE` in T32 is log entry 15; the advances rest on GK4 and GK19 (log entry 14). -/
def Obligations.RunsAreStraightLine : Prop :=
  ∀ (k : Nat) (s t : State), s.inv = true → Host.Core.run Sys2Proof.core k s = .next t →
    State.pc t = BitVec.ofNat 32 (s.pc.toNat + 4 * k) ∧ s.pc.toNat + 4 * k < 2 ^ 32 ∧ State.inv t = true ∧
      SameElsewhere s t

/-- 70_reset_and_hazards.md R144: the end of a run, in both directions: a run that ended is at the first state whose `pc` is
`end_pc`, and a run that reaches such a state within the bound has ended there. -/
def Obligations.RunEndsAtEndPc : Prop :=
  ∀ (k : Nat) (s t : State),
    (runToEnd k s = .ended t →
      t.pc = s.cfg.endPc ∧ ∃ m ≤ k, Host.Core.run Sys2Proof.core m s = .next t ∧
        ∀ j < m, ∃ u : State, Host.Core.run Sys2Proof.core j s = .next u ∧ u.pc ≠ s.cfg.endPc) ∧
    (∀ m ≤ k, Host.Core.run Sys2Proof.core m s = .next t → t.pc = s.cfg.endPc →
      (∀ j < m, ∀ u : State, Host.Core.run Sys2Proof.core j s = .next u → u.pc ≠ s.cfg.endPc) →
      runToEnd k s = .ended t)

/-- 10_state.md R31, 40_vst1_operation.md R77 item 6, R78, R81, 60_exceptions.md R126, decision D19: when a register or flag
that nothing has written is reported. Which of several is named is the model's (log entry 16, DEDUCED). -/
def Obligations.UnwrittenRegisterCauses : Prop :=
  ∀ (i : Instr) (s : State) (x : RegName),
    exec i s = .fault (.unwrittenRegister x) ↔
      (i.iset = .t32 ∧ s.itstate.extractLsb' 0 4 ≠ 0x0#4 ∧ FirstUnwritten s (consulted (condOf s)) x) ∨
      (DecodesClean i s ∧ s.advSIMDAccess = .enabled ∧ FirstUnwritten s (readsOf i) x) ∨
      (CondPasses i s ∧ ¬ AlignUndefined i ∧ i.form.rn ≠ 15 ∧ 32 < i.form.dd.val + regs i ∧
        s.cfg.cuDregs = .unknown ∧ s.written (.r i.form.rn) = false ∧ x = .r i.form.rn)

/-- 10_state.md R31, R34: no step marks a register or a flag `unwritten`, so a state without a mark leads to none and never
raises `UnwrittenRegister`. The reset state is such a state by the model's choice (log entry 1). -/
def Obligations.StepMarksNothingUnwritten : Prop :=
  (∀ s t : State, step s = .next t → ∀ x, s.written x = true → t.written x = true) ∧
  (∀ s : State, (∀ x, s.written x = true) → ∀ x, step s ≠ .fault (.unwrittenRegister x))

/-- 20_memory.md R35, "An address with no byte is unallocated", and R45: an access that touches such an address is not
admitted, a VST1 whose footprint touches one aborts, and no step changes which addresses hold a byte. That the other
addresses read as 0 until something is written there is the model's choice (log entry 4). -/
def Obligations.AddressWithNoByteIsUnallocated : Prop :=
  (∀ (s : State) (a : Nat), byteAt s a = none ↔ allocated s.cfg a = false) ∧
  (∀ (s : State) (a n : Nat) (privileged : Bool), (∃ j < n, byteAt s (a + j) = none) →
    memAdmit s.cfg a n privileged ≠ .ok) ∧
  (∀ (i : Instr) (s : State), Attempts i s → ¬ Misaligned i s → (baseOf i s).toNat + 8 * regs i ≤ 2 ^ 32 →
    (∀ j < 8 * regs i, Region.contains s.cfg.text ((baseOf i s).toNat + j) = false) →
    (∃ j < 8 * regs i, byteAt s ((baseOf i s).toNat + j) = none) →
    ∃ kind a desc left, exec i s = .fault (.memoryAbort kind a desc left)) ∧
  (∀ s t : State, step s = .next t → ∀ a, byteAt t a = none ↔ byteAt s a = none)
end

