-- ==== Sys2Proof/Laws/Decode.lean ====
section
/-! SUPPORT. The fields of an encoded word, and a word from its fields (30_encoding.md R56, R57, R64, R76). -/

namespace Sys2Proof

/-! ## Fields of an append -/

/-- A field of the high part of an append. -/
theorem extract_append_high {v w : Nat} (x : BitVec v) (y : BitVec w) (start len : Nat) (h : w ≤ start) :
    (x ++ y).extractLsb' start len = x.extractLsb' (start - w) len := by
  ext j hj
  rw [BitVec.getElem_extractLsb', BitVec.getElem_extractLsb', BitVec.getLsbD_append, if_neg (by omega)]
  congr 1
  omega

/-- A field of the low part of an append. -/
theorem extract_append_low {v w : Nat} (x : BitVec v) (y : BitVec w) (start len : Nat) (h : start + len ≤ w) :
    (x ++ y).extractLsb' start len = y.extractLsb' start len := by
  ext j hj
  rw [BitVec.getElem_extractLsb', BitVec.getElem_extractLsb', BitVec.getLsbD_append, if_pos (by omega)]

/-- The whole of a bit vector. -/
theorem extract_whole {w : Nat} (x : BitVec w) : x.extractLsb' 0 w = x := by
  ext j hj
  rw [BitVec.getElem_extractLsb', Nat.zero_add, BitVec.getLsbD_eq_getElem hj]

/-- Two neighbouring fields side by side are one field. -/
theorem extract_append_extract {n : Nat} (w : BitVec n) (lo k m : Nat) :
    w.extractLsb' (lo + k) m ++ w.extractLsb' lo k = w.extractLsb' lo (m + k) := by
  ext j hj
  rw [BitVec.getElem_append]
  split
  · rw [BitVec.getElem_extractLsb', BitVec.getElem_extractLsb']
  · rw [BitVec.getElem_extractLsb', BitVec.getElem_extractLsb']
    congr 1
    omega

/-- Masking an append masks its parts. -/
theorem append_and_append {v w : Nat} (x x' : BitVec v) (y y' : BitVec w) :
    (x ++ y) &&& (x' ++ y') = (x &&& x') ++ (y &&& y') := by
  ext j hj
  simp only [BitVec.getElem_and, BitVec.getElem_append]
  split <;> rfl

/-! ## The fields of `encodeForm` -/

theorem encodeForm_fixed (f : Form) : (encodeForm f).extractLsb' 23 9 = f.iset.fixedBits := by
  unfold encodeForm
  iterate 8 rw [extract_append_high _ _ _ _ (by decide)]
  exact extract_whole _

theorem encodeForm_D (f : Form) : (encodeForm f).extractLsb' 22 1 = f.dd.bits.extractLsb' 4 1 := by
  unfold encodeForm
  iterate 7 rw [extract_append_high _ _ _ _ (by decide)]
  rw [extract_append_low _ _ _ _ (by decide)]
  exact extract_whole _

theorem encodeForm_zero (f : Form) : (encodeForm f).extractLsb' 20 2 = 0b00#2 := by
  unfold encodeForm
  iterate 6 rw [extract_append_high _ _ _ _ (by decide)]
  rw [extract_append_low _ _ _ _ (by decide)]
  exact extract_whole _

theorem encodeForm_rn (f : Form) : (encodeForm f).extractLsb' 16 4 = f.rn.bits := by
  unfold encodeForm
  iterate 5 rw [extract_append_high _ _ _ _ (by decide)]
  rw [extract_append_low _ _ _ _ (by decide)]
  exact extract_whole _

theorem encodeForm_Vd (f : Form) : (encodeForm f).extractLsb' 12 4 = f.dd.bits.extractLsb' 0 4 := by
  unfold encodeForm
  iterate 4 rw [extract_append_high _ _ _ _ (by decide)]
  rw [extract_append_low _ _ _ _ (by decide)]
  exact extract_whole _

theorem encodeForm_itype (f : Form) : (encodeForm f).extractLsb' 8 4 = f.len.itype := by
  unfold encodeForm
  iterate 3 rw [extract_append_high _ _ _ _ (by decide)]
  rw [extract_append_low _ _ _ _ (by decide)]
  exact extract_whole _

theorem encodeForm_size (f : Form) : (encodeForm f).extractLsb' 6 2 = f.size.code := by
  unfold encodeForm
  iterate 2 rw [extract_append_high _ _ _ _ (by decide)]
  rw [extract_append_low _ _ _ _ (by decide)]
  exact extract_whole _

theorem encodeForm_align (f : Form) : (encodeForm f).extractLsb' 4 2 = f.align.code := by
  unfold encodeForm
  rw [extract_append_high _ _ _ _ (by decide), extract_append_low _ _ _ _ (by decide)]
  exact extract_whole _

theorem encodeForm_rm (f : Form) : (encodeForm f).extractLsb' 0 4 = f.rm.bits := by
  unfold encodeForm
  rw [extract_append_low _ _ _ _ (by decide)]
  exact extract_whole _

/-! ## Each field's decoding undoes its encoding -/

@[simp] theorem ListLen.ofItype_itype (l : ListLen) : ListLen.ofItype l.itype = some l := by cases l <;> rfl
@[simp] theorem ElemSize.ofCode_code (z : ElemSize) : ElemSize.ofCode z.code = z := by cases z <;> rfl
@[simp] theorem Align.ofCode_code (g : Align) : Align.ofCode g.code = g := by cases g <;> rfl
@[simp] theorem RReg.ofBits_bits (r : RReg) : RReg.ofBits r.bits = r := rfl
@[simp] theorem RReg.bits_ofBits (b : BitVec 4) : RReg.bits (RReg.ofBits b) = b := rfl

@[simp] theorem DReg.ofBits_bits (dd : DReg) :
    DReg.ofBits (dd.bits.extractLsb' 4 1) (dd.bits.extractLsb' 0 4) = dd := by revert dd; decide

theorem DReg.bits_ofBits (D : BitVec 1) (Vd : BitVec 4) : DReg.bits (DReg.ofBits D Vd) = D ++ Vd := rfl

@[simp] theorem DReg.bits_ofBits_high (D : BitVec 1) (Vd : BitVec 4) :
    (DReg.bits (DReg.ofBits D Vd)).extractLsb' 4 1 = D := by
  rw [DReg.bits_ofBits, extract_append_high _ _ _ _ (by decide)]
  exact extract_whole _

@[simp] theorem DReg.bits_ofBits_low (D : BitVec 1) (Vd : BitVec 4) :
    (DReg.bits (DReg.ofBits D Vd)).extractLsb' 0 4 = Vd := by
  rw [DReg.bits_ofBits, extract_append_low _ _ _ _ (by decide)]
  exact extract_whole _

theorem ListLen.ofItype_some {b : BitVec 4} {l : ListLen} (h : ListLen.ofItype b = some l) : b = l.itype := by
  revert h; revert l; revert b; decide

theorem ElemSize.code_ofCode (b : BitVec 2) : (ElemSize.ofCode b).code = b := by revert b; decide

theorem Align.code_ofCode (b : BitVec 2) : (Align.ofCode b).code = b := by revert b; decide

/-- The three variants are the three readings of the field `Rm` (R60). -/
theorem Form.toInstr_form (f : Form) : f.toInstr.form = f := by
  obtain ⟨iset, len, dd, rn, size, align, rm⟩ := f
  cases iset <;> cases len <;>
    (simp only [Form.toInstr]; split; · subst_vars; rfl
     split
     · subst_vars; rfl
     · rfl)

theorem Form.toInstr_wellFormed (f : Form) : f.toInstr.wellFormed = true := by
  obtain ⟨iset, len, dd, rn, size, align, rm⟩ := f
  cases iset <;> cases len <;>
    (simp only [Form.toInstr]; split; · rfl
     split
     · rfl
     · simp [Instr.wellFormed, RReg.isIndex, *])

/-- What `decodeForm` answers, field by field (R64). -/
theorem decodeForm_ok_iff (iset : ISet) (w : Word) (f : Form) :
    decodeForm iset w = .ok f ↔
      w.extractLsb' 23 9 = iset.fixedBits ∧ w.extractLsb' 20 2 = 0b00#2 ∧
      ∃ len, ListLen.ofItype (w.extractLsb' 8 4) = some len ∧
        f = ⟨iset, len, DReg.ofBits (w.extractLsb' 22 1) (w.extractLsb' 12 4), RReg.ofBits (w.extractLsb' 16 4),
          ElemSize.ofCode (w.extractLsb' 6 2), Align.ofCode (w.extractLsb' 4 2), RReg.ofBits (w.extractLsb' 0 4)⟩ := by
  unfold decodeForm
  by_cases h1 : w.extractLsb' 23 9 = iset.fixedBits
  · rw [if_neg (by simpa using h1)]
    by_cases h2 : w.extractLsb' 20 2 = 0b00#2
    · rw [if_neg (by simpa using h2)]
      cases h3 : ListLen.ofItype (w.extractLsb' 8 4) with
      | none => simp
      | some len =>
        simp only [Except.ok.injEq, h1, h2, true_and, Option.some.injEq]
        exact ⟨fun h => ⟨len, rfl, h.symm⟩, fun ⟨_, e, h⟩ => by subst e; exact h.symm⟩
    · rw [if_pos (by simpa using h2)]
      simp [h2]
  · rw [if_pos (by simpa using h1)]
    simp [h1]

/-- A word is the append of its fields in the format's order (R56, R57). -/
theorem word_of_fields (w : Word) :
    w = w.extractLsb' 23 9 ++ w.extractLsb' 22 1 ++ w.extractLsb' 20 2 ++ w.extractLsb' 16 4 ++ w.extractLsb' 12 4 ++
      w.extractLsb' 8 4 ++ w.extractLsb' 6 2 ++ w.extractLsb' 4 2 ++ w.extractLsb' 0 4 := by
  rw [extract_append_extract w 22 1 9, extract_append_extract w 20 2 10, extract_append_extract w 16 4 12,
    extract_append_extract w 12 4 16, extract_append_extract w 8 4 20, extract_append_extract w 6 2 24,
    extract_append_extract w 4 2 26, extract_append_extract w 0 4 28]
  exact (extract_whole w).symm

/-! ## Bytes in memory (20_memory.md R51) -/

/-- Laying an instruction out in bytes and reading the bytes gives it back. -/
theorem instrOfBytes_bytes (iset : ISet) (w : Word) :
    ∃ b0 b1 b2 b3, bytesOfInstr iset w = [b0, b1, b2, b3] ∧ instrOfBytes iset b0 b1 b2 b3 = w := by
  cases iset
  · refine ⟨_, _, _, _, rfl, ?_⟩
    show w.extractLsb' 24 8 ++ w.extractLsb' 16 8 ++ w.extractLsb' 8 8 ++ w.extractLsb' 0 8 = w
    rw [extract_append_extract w 16 8 8, extract_append_extract w 8 8 16, extract_append_extract w 0 8 24]
    exact extract_whole w
  · refine ⟨_, _, _, _, rfl, ?_⟩
    show w.extractLsb' 24 8 ++ w.extractLsb' 16 8 ++ w.extractLsb' 8 8 ++ w.extractLsb' 0 8 = w
    rw [extract_append_extract w 16 8 8, extract_append_extract w 8 8 16, extract_append_extract w 0 8 24]
    exact extract_whole w

/-- Decoding the bytes of a word is decoding the word. -/
theorem decodeBytes_bytesOfInstr (iset : ISet) (w : Word) (rest : List Byte) :
    decodeBytes iset (bytesOfInstr iset w ++ rest) =
      match decode iset w with
      | .error e => .error e
      | .ok i => .ok (i, rest) := by
  obtain ⟨b0, b1, b2, b3, hb, hw⟩ := instrOfBytes_bytes iset w
  rw [hb]
  cases hd : decode iset w <;> simp only [List.cons_append, List.nil_append, decodeBytes, hw, hd]

end Sys2Proof
end

