-- ==== Sys2Proof/Laws/Memory.lean ====
section
/-! SUPPORT. Read after write, and that every memory operation keeps the canonical form. -/

namespace Sys2Proof.Machine

/-! ## One byte -/

theorem Memory.read_insert_self (m : Memory) (a : Nat) (b : Byte) : (m.insert a b).read a = b := by
  induction m with
  | nil => simp [Memory.insert, Memory.read]
  | cons cell m ih =>
    obtain ⟨c, x⟩ := cell
    simp only [Memory.insert]
    split
    · simp [Memory.read]
    · split
      · simp [Memory.read]
      · simp [Memory.read, *]

theorem Memory.read_insert_other (m : Memory) (a x : Nat) (b : Byte) (h : x ≠ a) :
    (m.insert a b).read x = m.read x := by
  induction m with
  | nil => simp [Memory.insert, Memory.read, h]
  | cons cell m ih =>
    obtain ⟨c, y⟩ := cell
    simp only [Memory.insert]
    split
    · simp [Memory.read, h]
    · split
      · subst_vars; simp [Memory.read, h]
      · simp [Memory.read, ih]

theorem Memory.read_erase_self (m : Memory) (a : Nat) : (m.erase a).read a = Config.unlistedByte := by
  induction m with
  | nil => rfl
  | cons cell m ih =>
    obtain ⟨c, y⟩ := cell
    simp only [Memory.erase, List.filter_cons] at ih ⊢
    split
    · rename_i hc
      have hc' : c ≠ a := by simpa using hc
      simp [Memory.read, hc'.symm, ih]
    · exact ih

theorem Memory.read_erase_other (m : Memory) (a x : Nat) (h : x ≠ a) : (m.erase a).read x = m.read x := by
  induction m with
  | nil => rfl
  | cons cell m ih =>
    obtain ⟨c, y⟩ := cell
    simp only [Memory.erase, List.filter_cons] at ih ⊢
    split
    · simp [Memory.read, ih]
    · rename_i hc
      obtain rfl : c = a := by simpa using hc
      simp [Memory.read, h, ih]

/-- Read after write, in one equation. -/
theorem Memory.read_write (m : Memory) (a x : Nat) (b : Byte) :
    (m.write a b).read x = if x = a then b else m.read x := by
  unfold Memory.write
  by_cases hx : x = a
  · subst hx
    rw [if_pos rfl]
    split
    · rename_i h; rw [Memory.read_erase_self, h]
    · exact Memory.read_insert_self ..
  · rw [if_neg hx]
    split
    · exact Memory.read_erase_other _ _ _ hx
    · exact Memory.read_insert_other _ _ _ _ hx

theorem Memory.read_write_self (m : Memory) (a : Nat) (b : Byte) : (m.write a b).read a = b := by
  rw [Memory.read_write, if_pos rfl]

theorem Memory.read_write_other (m : Memory) (a x : Nat) (b : Byte) (h : x ≠ a) :
    (m.write a b).read x = m.read x := by
  rw [Memory.read_write, if_neg h]

/-! ## Several bytes -/

theorem Memory.read_writeBytes_below (m : Memory) (a x : Nat) (bs : List Byte) (h : x < a) :
    (m.writeBytes a bs).read x = m.read x := by
  induction bs generalizing m a with
  | nil => rfl
  | cons b bs ih =>
    rw [Memory.writeBytes, ih _ _ (by omega), Memory.read_write_other _ _ _ _ (by omega)]

/-- What `writeBytes` leaves at an address: the byte written there, or what stood there before. -/
theorem Memory.read_writeBytes (m : Memory) (a x : Nat) (bs : List Byte) :
    (m.writeBytes a bs).read x = if a ≤ x then bs[x - a]?.getD (m.read x) else m.read x := by
  induction bs generalizing m a with
  | nil => simp [Memory.writeBytes]
  | cons b bs ih =>
    rw [Memory.writeBytes, ih, Memory.read_write]
    rcases Nat.lt_trichotomy x a with h | h | h
    · rw [if_neg (by omega), if_neg (by omega), if_neg (by omega)]
    · subst h; rw [if_neg (by omega), if_pos rfl, if_pos (le_refl _)]; simp
    · obtain ⟨k, rfl⟩ : ∃ k, x = a + 1 + k := ⟨x - a - 1, by omega⟩
      rw [if_pos (by omega), if_neg (by omega), if_pos (by omega), show a + 1 + k - a = k + 1 by omega,
        show a + 1 + k - (a + 1) = k by omega, List.getElem?_cons_succ]

/-- An address at or above the bytes written keeps its contents. -/
theorem Memory.read_writeBytes_above (m : Memory) (a x : Nat) (bs : List Byte) (h : a + bs.length ≤ x) :
    (m.writeBytes a bs).read x = m.read x := by
  rw [Memory.read_writeBytes, if_pos (by omega), List.getElem?_eq_none (by omega), Option.getD_none]

theorem Memory.writeBytes_append (m : Memory) (a : Nat) (bs cs : List Byte) :
    m.writeBytes a (bs ++ cs) = (m.writeBytes a bs).writeBytes (a + bs.length) cs := by
  induction bs generalizing m a with
  | nil => rfl
  | cons b bs ih => simp only [List.cons_append, Memory.writeBytes, ih, List.length_cons]; congr 1; omega

/-! ## The partial map -/

/-- An address holds a byte exactly when it is allocated (20_memory.md R35). -/
theorem State.byte_eq_none_iff (s : State) (a : Nat) : s.byte a = none ↔ allocated s.cfg a = false := by
  unfold State.byte
  split <;> simp_all

theorem State.byte_of_allocated {s : State} {a : Nat} (h : allocated s.cfg a = true) :
    s.byte a = some (s.mem.read a) := by
  unfold State.byte
  rw [if_pos h]

/-- Two states with the same configuration and the same contents at an address hold the same byte there. -/
theorem State.byte_congr {s t : State} {a : Nat} (hc : t.cfg = s.cfg) (hm : t.mem.read a = s.mem.read a) :
    t.byte a = s.byte a := by
  unfold State.byte
  rw [hc, hm]

/-- The bytes at ascending addresses are the bytes of each address. -/
theorem State.readBytes_eq_some (s : State) (a : Nat) (bs : List Byte) :
    s.readBytes a bs.length = some bs ↔ ∀ k, (h : k < bs.length) → s.byte (a + k) = some bs[k] := by
  induction bs generalizing a with
  | nil => simp [State.readBytes]
  | cons b bs ih =>
    have hstep : s.readBytes a (b :: bs).length = some (b :: bs) ↔
        s.byte a = some b ∧ s.readBytes (a + 1) bs.length = some bs := by
      simp only [List.length_cons, State.readBytes]
      split
      · simp_all
      · rename_i hno
        exact ⟨nofun, fun ⟨h1, h2⟩ => absurd h2 (hno _ _ h1)⟩
    rw [hstep, ih]
    constructor
    · rintro ⟨h0, hs⟩ k hk
      cases k with
      | zero => simpa using h0
      | succ k =>
        have := hs k (by simpa using hk)
        rw [show a + (k + 1) = a + 1 + k by omega]
        simpa using this
    · intro h
      have h0 := h 0 (by simp)
      rw [Nat.add_zero] at h0
      refine ⟨h0, fun k hk => ?_⟩
      have := h (k + 1) (by simpa using hk)
      rw [show a + 1 + k = a + (k + 1) by omega]
      simpa using this

theorem State.readBytes_length {s : State} {a k : Nat} {bs : List Byte} (h : s.readBytes a k = some bs) :
    bs.length = k := by
  induction k generalizing a bs with
  | zero => simp [State.readBytes] at h; simp [← h]
  | succ k ih =>
    simp only [State.readBytes] at h
    split at h
    · rename_i hbs
      cases h
      simp [ih hbs]
    · cases h

/-! ## The canonical form -/

theorem Memory.wfFrom_mono {lo lo' : Nat} {m : Memory} (h : Memory.wfFrom lo m = true) (hl : lo' ≤ lo) :
    Memory.wfFrom lo' m = true := by
  cases m with
  | nil => rfl
  | cons cell m =>
    obtain ⟨c, x⟩ := cell
    simp only [Memory.wfFrom, Bool.and_eq_true, decide_eq_true_eq] at h ⊢
    exact ⟨⟨⟨by omega, h.1.1.2⟩, h.1.2⟩, h.2⟩

theorem Memory.wfFrom_insert {lo : Nat} {m : Memory} (h : Memory.wfFrom lo m = true) (a : Nat) (b : Byte)
    (hlo : lo ≤ a) (ha : a < 2 ^ 32) (hb : b ≠ Config.unlistedByte) : Memory.wfFrom lo (m.insert a b) = true := by
  induction m generalizing lo with
  | nil => simp [Memory.insert, Memory.wfFrom, hlo, hb]; omega
  | cons cell m ih =>
    obtain ⟨c, x⟩ := cell
    simp only [Memory.wfFrom, Bool.and_eq_true, decide_eq_true_eq] at h
    simp only [Memory.insert]
    split
    · simp only [Memory.wfFrom, Bool.and_eq_true, decide_eq_true_eq, bne_iff_ne]
      exact ⟨⟨⟨hlo, ha⟩, hb⟩, ⟨⟨by omega, h.1.1.2⟩, by simpa using h.1.2⟩, h.2⟩
    · split
      · subst_vars
        simp only [Memory.wfFrom, Bool.and_eq_true, decide_eq_true_eq, bne_iff_ne]
        exact ⟨⟨⟨hlo, ha⟩, hb⟩, h.2⟩
      · simp only [Memory.wfFrom, Bool.and_eq_true, decide_eq_true_eq]
        exact ⟨h.1, ih h.2 (by omega)⟩

theorem Memory.wfFrom_erase {lo : Nat} {m : Memory} (h : Memory.wfFrom lo m = true) (a : Nat) :
    Memory.wfFrom lo (m.erase a) = true := by
  induction m generalizing lo with
  | nil => rfl
  | cons cell m ih =>
    obtain ⟨c, x⟩ := cell
    simp only [Memory.wfFrom, Bool.and_eq_true, decide_eq_true_eq] at h
    simp only [Memory.erase, List.filter_cons] at ih ⊢
    split
    · simp only [Memory.wfFrom, Bool.and_eq_true, decide_eq_true_eq]
      exact ⟨h.1, ih h.2⟩
    · exact ih (Memory.wfFrom_mono h.2 (by omega))

theorem Memory.wfFrom_write {lo : Nat} {m : Memory} (h : Memory.wfFrom lo m = true) (a : Nat) (b : Byte)
    (hlo : lo ≤ a) (ha : a < 2 ^ 32) : Memory.wfFrom lo (m.write a b) = true := by
  unfold Memory.write
  split
  · exact Memory.wfFrom_erase h a
  · exact Memory.wfFrom_insert h a b hlo ha ‹_›

/-- Writing a byte keeps the canonical form. -/
theorem Memory.wf_write {m : Memory} (h : m.wf = true) (a : Nat) (b : Byte) (ha : a < 2 ^ 32) :
    (m.write a b).wf = true :=
  Memory.wfFrom_write h a b (Nat.zero_le _) ha

/-- Writing several bytes keeps the canonical form. -/
theorem Memory.wf_writeBytes {m : Memory} (h : m.wf = true) (a : Nat) (bs : List Byte) (ha : a + bs.length ≤ 2 ^ 32) :
    (m.writeBytes a bs).wf = true := by
  induction bs generalizing m a with
  | nil => exact h
  | cons b bs ih =>
    simp only [List.length_cons] at ha
    exact ih (Memory.wf_write h a b (by omega)) _ (by omega)

/-! ## Which addresses are listed -/

theorem Memory.mem_insert {m : Memory} {a : Nat} {b : Byte} {cell : Host.Cell} (h : cell ∈ m.insert a b) :
    cell = (a, b) ∨ cell ∈ m := by
  induction m with
  | nil => simpa [Memory.insert] using h
  | cons hd m ih =>
    obtain ⟨c, x⟩ := hd
    simp only [Memory.insert] at h
    split at h
    · simpa using h
    · split at h
      · simp only [List.mem_cons] at h ⊢
        tauto
      · simp only [List.mem_cons] at h ⊢
        rcases h with h | h
        · tauto
        · rcases ih h with h | h <;> tauto

theorem Memory.mem_write {m : Memory} {a : Nat} {b : Byte} {cell : Host.Cell} (h : cell ∈ m.write a b) :
    cell = (a, b) ∨ cell ∈ m := by
  unfold Memory.write at h
  split at h
  · exact .inr (List.mem_of_mem_filter h)
  · exact Memory.mem_insert h

/-- A property of addresses that the written ones have still holds of every listed address. -/
theorem Memory.all_writeBytes {m : Memory} {p : Nat → Bool} (h : m.all (fun cell => p cell.1) = true) (a : Nat)
    (bs : List Byte) (hp : ∀ k < bs.length, p (a + k) = true) :
    (m.writeBytes a bs).all (fun cell => p cell.1) = true := by
  induction bs generalizing m a with
  | nil => exact h
  | cons b bs ih =>
    refine ih (m := m.write a b) ?_ (a + 1) fun k hk => ?_
    · rw [List.all_eq_true] at h ⊢
      intro cell hc
      rcases Memory.mem_write hc with rfl | hc
      · simpa using hp 0 (by simp)
      · exact h cell hc
    · have := hp (k + 1) (by simpa using hk)
      rwa [show a + 1 + k = a + (k + 1) by omega]

end Sys2Proof.Machine
end

