-- ==== Sys2Proof/Laws/State.lean ====
section
/-! SUPPORT. The small lemmas of State: one per field per update. -/

namespace Sys2Proof.Machine

/-! `writeR` -/

@[simp] theorem State.writeR_d (s : State) (i : RReg) (w : Word) : (s.writeR i w).d = s.d := rfl
@[simp] theorem State.writeR_pc (s : State) (i : RReg) (w : Word) : (s.writeR i w).pc = s.pc := rfl
@[simp] theorem State.writeR_n (s : State) (i : RReg) (w : Word) : (s.writeR i w).n = s.n := rfl
@[simp] theorem State.writeR_z (s : State) (i : RReg) (w : Word) : (s.writeR i w).z = s.z := rfl
@[simp] theorem State.writeR_c (s : State) (i : RReg) (w : Word) : (s.writeR i w).c = s.c := rfl
@[simp] theorem State.writeR_v (s : State) (i : RReg) (w : Word) : (s.writeR i w).v = s.v := rfl
@[simp] theorem State.writeR_itstate (s : State) (i : RReg) (w : Word) : (s.writeR i w).itstate = s.itstate := rfl
@[simp] theorem State.writeR_el (s : State) (i : RReg) (w : Word) : (s.writeR i w).el = s.el := rfl
@[simp] theorem State.writeR_iset (s : State) (i : RReg) (w : Word) : (s.writeR i w).iset = s.iset := rfl
@[simp] theorem State.writeR_bigendian (s : State) (i : RReg) (w : Word) : (s.writeR i w).bigendian = s.bigendian := rfl
@[simp] theorem State.writeR_mem (s : State) (i : RReg) (w : Word) : (s.writeR i w).mem = s.mem := rfl
@[simp] theorem State.writeR_cfg (s : State) (i : RReg) (w : Word) : (s.writeR i w).cfg = s.cfg := rfl
@[simp] theorem State.writeR_draws (s : State) (i : RReg) (w : Word) : (s.writeR i w).draws = s.draws := rfl

/-! `writeD` -/

@[simp] theorem State.writeD_r (s : State) (i : DReg) (w : DWord) : (s.writeD i w).r = s.r := rfl
@[simp] theorem State.writeD_pc (s : State) (i : DReg) (w : DWord) : (s.writeD i w).pc = s.pc := rfl
@[simp] theorem State.writeD_n (s : State) (i : DReg) (w : DWord) : (s.writeD i w).n = s.n := rfl
@[simp] theorem State.writeD_z (s : State) (i : DReg) (w : DWord) : (s.writeD i w).z = s.z := rfl
@[simp] theorem State.writeD_c (s : State) (i : DReg) (w : DWord) : (s.writeD i w).c = s.c := rfl
@[simp] theorem State.writeD_v (s : State) (i : DReg) (w : DWord) : (s.writeD i w).v = s.v := rfl
@[simp] theorem State.writeD_itstate (s : State) (i : DReg) (w : DWord) : (s.writeD i w).itstate = s.itstate := rfl
@[simp] theorem State.writeD_el (s : State) (i : DReg) (w : DWord) : (s.writeD i w).el = s.el := rfl
@[simp] theorem State.writeD_iset (s : State) (i : DReg) (w : DWord) : (s.writeD i w).iset = s.iset := rfl
@[simp] theorem State.writeD_bigendian (s : State) (i : DReg) (w : DWord) : (s.writeD i w).bigendian = s.bigendian := rfl
@[simp] theorem State.writeD_mem (s : State) (i : DReg) (w : DWord) : (s.writeD i w).mem = s.mem := rfl
@[simp] theorem State.writeD_cfg (s : State) (i : DReg) (w : DWord) : (s.writeD i w).cfg = s.cfg := rfl
@[simp] theorem State.writeD_draws (s : State) (i : DReg) (w : DWord) : (s.writeD i w).draws = s.draws := rfl

/-! `unknownR` -/

@[simp] theorem unknownR_d (s : State) (i : RReg) : (unknownR i s).d = s.d := rfl
@[simp] theorem unknownR_pc (s : State) (i : RReg) : (unknownR i s).pc = s.pc := rfl
@[simp] theorem unknownR_n (s : State) (i : RReg) : (unknownR i s).n = s.n := rfl
@[simp] theorem unknownR_z (s : State) (i : RReg) : (unknownR i s).z = s.z := rfl
@[simp] theorem unknownR_c (s : State) (i : RReg) : (unknownR i s).c = s.c := rfl
@[simp] theorem unknownR_v (s : State) (i : RReg) : (unknownR i s).v = s.v := rfl
@[simp] theorem unknownR_itstate (s : State) (i : RReg) : (unknownR i s).itstate = s.itstate := rfl
@[simp] theorem unknownR_el (s : State) (i : RReg) : (unknownR i s).el = s.el := rfl
@[simp] theorem unknownR_iset (s : State) (i : RReg) : (unknownR i s).iset = s.iset := rfl
@[simp] theorem unknownR_bigendian (s : State) (i : RReg) : (unknownR i s).bigendian = s.bigendian := rfl
@[simp] theorem unknownR_mem (s : State) (i : RReg) : (unknownR i s).mem = s.mem := rfl
@[simp] theorem unknownR_cfg (s : State) (i : RReg) : (unknownR i s).cfg = s.cfg := rfl

/-! `advance` -/

@[simp] theorem advance_r (s : State) (k : ISet) : (advance k s).r = s.r := rfl
@[simp] theorem advance_d (s : State) (k : ISet) : (advance k s).d = s.d := rfl
@[simp] theorem advance_n (s : State) (k : ISet) : (advance k s).n = s.n := rfl
@[simp] theorem advance_z (s : State) (k : ISet) : (advance k s).z = s.z := rfl
@[simp] theorem advance_c (s : State) (k : ISet) : (advance k s).c = s.c := rfl
@[simp] theorem advance_v (s : State) (k : ISet) : (advance k s).v = s.v := rfl
@[simp] theorem advance_el (s : State) (k : ISet) : (advance k s).el = s.el := rfl
@[simp] theorem advance_iset (s : State) (k : ISet) : (advance k s).iset = s.iset := rfl
@[simp] theorem advance_bigendian (s : State) (k : ISet) : (advance k s).bigendian = s.bigendian := rfl
@[simp] theorem advance_mem (s : State) (k : ISet) : (advance k s).mem = s.mem := rfl
@[simp] theorem advance_cfg (s : State) (k : ISet) : (advance k s).cfg = s.cfg := rfl
@[simp] theorem advance_draws (s : State) (k : ISet) : (advance k s).draws = s.draws := rfl

@[simp] theorem advance_unwritten (s : State) (k : ISet) : (advance k s).unwritten = s.unwritten := rfl

@[simp] theorem State.writeR_r (s : State) (i : RReg) (w : Word) : (s.writeR i w).r = s.r.set i w := rfl
@[simp] theorem State.writeR_unwritten (s : State) (i : RReg) (w : Word) :
    (s.writeR i w).unwritten = { s.unwritten with r := s.unwritten.r.set i false } := rfl
@[simp] theorem State.writeD_d (s : State) (i : DReg) (w : DWord) : (s.writeD i w).d = s.d.set i w := rfl
@[simp] theorem State.writeD_unwritten (s : State) (i : DReg) (w : DWord) :
    (s.writeD i w).unwritten = { s.unwritten with d := s.unwritten.d.set i false } := rfl
@[simp] theorem unknownR_unwritten (s : State) (i : RReg) :
    (unknownR i s).unwritten = { s.unwritten with r := s.unwritten.r.set i false } := rfl
@[simp] theorem unknownR_draws (s : State) (i : RReg) : (unknownR i s).draws = s.draws + 1 := rfl
@[simp] theorem unknownR_r (s : State) (i : RReg) : (unknownR i s).r = s.r.set i (Config.unknownWord s.draws) := rfl
@[simp] theorem advance_pc (s : State) (k : ISet) : (advance k s).pc = s.pc + 4#32 := rfl
@[simp] theorem advance_itstate_a32 (s : State) : (advance .a32 s).itstate = s.itstate := rfl
@[simp] theorem advance_itstate_t32 (s : State) : (advance .t32 s).itstate = advanceIT s.itstate := rfl

/-! Reading a register after an update -/

@[simp] theorem State.readR_writeR_self (s : State) (i : RReg) (w : Word) : (s.writeR i w).readR i = w := by
  simp [State.readR, State.writeR]

theorem State.readR_writeR_other (s : State) (i k : RReg) (w : Word) (h : k ≠ i) :
    (s.writeR i w).readR k = s.readR k := by
  have h' : (i : Nat) ≠ (k : Nat) := fun e => h (Fin.ext e.symm)
  simp [State.readR, State.writeR, h']

@[simp] theorem State.readD_writeD_self (s : State) (i : DReg) (w : DWord) : (s.writeD i w).readD i = w := by
  simp [State.readD, State.writeD]

theorem State.readD_writeD_other (s : State) (i k : DReg) (w : DWord) (h : k ≠ i) :
    (s.writeD i w).readD k = s.readD k := by
  have h' : (i : Nat) ≠ (k : Nat) := fun e => h (Fin.ext e.symm)
  simp [State.readD, State.writeD, h']

@[simp] theorem State.readR_writeD (s : State) (i : DReg) (k : RReg) (w : DWord) :
    (s.writeD i w).readR k = s.readR k := rfl
@[simp] theorem State.readD_writeR (s : State) (i : RReg) (k : DReg) (w : Word) :
    (s.writeR i w).readD k = s.readD k := rfl
@[simp] theorem readR_advance (s : State) (k : ISet) (i : RReg) : (advance k s).readR i = s.readR i := rfl
@[simp] theorem readD_advance (s : State) (k : ISet) (i : DReg) : (advance k s).readD i = s.readD i := rfl
@[simp] theorem readD_unknownR (s : State) (i : RReg) (k : DReg) : (unknownR i s).readD k = s.readD k := rfl

theorem readR_unknownR_other (s : State) (i k : RReg) (h : k ≠ i) : (unknownR i s).readR k = s.readR k :=
  State.readR_writeR_other s i k _ h

/-! Marks after an update -/

/-- Writing a register that holds a value already changes no mark. -/
theorem State.writeR_unwritten_of_written (s : State) (i : RReg) (w : Word) (h : s.written (.r i) = true) :
    (s.writeR i w).unwritten = s.unwritten := by
  have h' : s.unwritten.r[i] = false := by simpa [State.written] using h
  have hset : s.unwritten.r.set i false = s.unwritten.r := by
    ext k hk
    rw [Vector.getElem_set]
    split
    · subst_vars; exact h'.symm
    · rfl
  rw [State.writeR_unwritten, hset]

theorem unknownR_unwritten_of_written (s : State) (i : RReg) (h : s.written (.r i) = true) :
    (unknownR i s).unwritten = s.unwritten :=
  State.writeR_unwritten_of_written s i (Config.unknownWord s.draws) h

@[simp] theorem State.written_writeD_self (s : State) (i : DReg) (w : DWord) :
    (s.writeD i w).written (.d i) = true := by simp [State.written]

theorem State.written_writeD_other (s : State) (i : DReg) (w : DWord) (x : RegName) (h : x ≠ .d i) :
    (s.writeD i w).written x = s.written x := by
  cases x with
  | d k =>
    have h' : (i : Nat) ≠ (k : Nat) := fun e => h (by rw [Fin.ext e])
    simp [State.written, h']
  | r k => rfl
  | n => rfl
  | z => rfl
  | c => rfl
  | v => rfl

/-- Two states with the same marks have the same written registers. -/
theorem State.written_congr {s t : State} (h : t.unwritten = s.unwritten) (x : RegName) :
    t.written x = s.written x := by
  cases x <;> simp [State.written, h]

/-- No register of the list is `unwritten`. -/
theorem State.firstUnwritten_eq_none (s : State) (l : List RegName) :
    s.firstUnwritten l = none ↔ ∀ x ∈ l, s.written x = true := by
  simp [State.firstUnwritten]

/-- The one named stands in the list, is `unwritten`, and all before it are written. -/
theorem State.firstUnwritten_eq_some (s : State) (l : List RegName) (x : RegName) :
    s.firstUnwritten l = some x ↔
      s.written x = false ∧ ∃ before after, l = before ++ x :: after ∧ ∀ y ∈ before, s.written y = true := by
  simp [State.firstUnwritten, List.find?_eq_some_iff_append]

/-- Two states with the same general registers read the same. -/
theorem State.readR_congr {s t : State} (h : t.r = s.r) (i : RReg) : t.readR i = s.readR i := by
  simp [State.readR, h]

/-- Two states with the same SIMD&FP registers read the same. -/
theorem State.readD_congr {s t : State} (h : t.d = s.d) (i : DReg) : t.readD i = s.readD i := by
  simp [State.readD, h]

end Sys2Proof.Machine
end

