-- ==== Sys2Proof/Laws/Ops.lean ====
section
/-! SUPPORT. One lemma per shared operation that says everything it can do. -/

namespace Sys2Proof.Machine

/-! ## Admission -/

/-- `MemAdmit` admits a range when no rule meets it and every byte of it is allocated. -/
theorem memAdmit_ok_iff (cfg : Configuration) (a n : Nat) (p : Bool) :
    memAdmit cfg a n p = .ok ↔
      (∀ q ∈ cfg.rules, AdmitRule.hits q a n p = false) ∧ ∀ i < n, allocated cfg (a + i) = true := by
  unfold memAdmit
  cases hf : cfg.rules.find? (fun q => AdmitRule.hits q a n p) with
  | some q =>
    have h1 := List.find?_some hf
    have h2 := List.mem_of_find?_eq_some hf
    simp only [reduceCtorEq, false_iff, not_and]
    intro h
    simp [h q h2] at h1
  | none =>
    rw [List.find?_eq_none] at hf
    have hr : ∀ q ∈ cfg.rules, AdmitRule.hits q a n p = false := fun q hq => by simpa using hf q hq
    by_cases h : (List.range n).all (fun i => allocated cfg (a + i)) = true
    · simp only [h, if_true, true_iff]
      exact ⟨hr, by simpa using h⟩
    · simp only [if_neg h, reduceCtorEq, false_iff, not_and]
      intro _ h'
      exact h (by simpa using h')

theorem memAdmit_ok_allocated {cfg : Configuration} {a n : Nat} {p : Bool} (h : memAdmit cfg a n p = .ok) :
    ∀ i < n, allocated cfg (a + i) = true := ((memAdmit_ok_iff ..).1 h).2

theorem allocated_lt {cfg : Configuration} {a : Nat} (h : allocated cfg a = true) : a < 2 ^ 32 := by
  simp only [allocated, Bool.and_eq_true, decide_eq_true_eq] at h
  exact h.1

/-- A region meets a range when it contains one of its addresses. -/
theorem Region.meets_iff (g : Region) (a n : Nat) :
    Region.meets g a n = true ↔ ∃ j < n, Region.contains g (a + j) = true := by
  simp only [Region.meets, Region.contains, Bool.and_eq_true, decide_eq_true_eq]
  constructor
  · intro h; exact ⟨max a g.base - a, by omega, by omega, by omega⟩
  · rintro ⟨j, h1, h2, h3⟩; omega

theorem Region.meets_eq_false_iff (g : Region) (a n : Nat) :
    Region.meets g a n = false ↔ ∀ j < n, Region.contains g (a + j) = false := by
  rw [← Bool.not_eq_true, Region.meets_iff]; simp

/-! ## Stores -/

/-- The store is performed: aligned when alignment is enforced, below the top of memory, admitted (R37). -/
def Store.performed (s : State) (x : Store) : Prop :=
  (s.cfg.alignEnforced = true → x.addr.toNat % x.width = 0) ∧ x.addr.toNat + x.width ≤ 2 ^ 32 ∧
    memAdmit s.cfg x.addr.toNat x.width s.privileged = .ok

/-- The bytes of a store in ascending address order (R37). -/
def Store.bytes (bigendian : Bool) (x : Store) : List Byte :=
  (List.range x.width).map (laneByte bigendian x.width x.value)

@[simp] theorem Store.bytes_length (big : Bool) (x : Store) : (Store.bytes big x).length = x.width := by
  simp [Store.bytes]

/-- `MemWrite` either performs the store, and then only memory changes, or stops. -/
theorem memWrite_ok_iff (s t : State) (x : Store) :
    memWrite s x.addr x.width x.value = .ok t ↔
      Store.performed s x ∧ t = { s with mem := s.mem.writeBytes x.addr.toNat (Store.bytes s.bigendian x) } := by
  unfold memWrite Store.performed Store.bytes
  by_cases h1 : (s.cfg.alignEnforced && x.addr.toNat % x.width != 0) = true
  · rw [if_pos h1]
    simp only [Bool.and_eq_true, bne_iff_ne] at h1
    simp only [reduceCtorEq, false_iff]
    rintro ⟨⟨h, -⟩, -⟩
    exact h1.2 (h h1.1)
  · rw [if_neg h1]
    simp only [Bool.and_eq_true, bne_iff_ne, not_and, not_not] at h1
    by_cases h2 : 2 ^ 32 < x.addr.toNat + x.width
    · rw [if_pos h2]
      simp only [reduceCtorEq, false_iff]
      rintro ⟨⟨-, h, -⟩, -⟩
      omega
    · rw [if_neg h2]
      cases h3 : memAdmit s.cfg x.addr.toNat x.width s.privileged with
      | ok =>
        simp only [Except.ok.injEq]
        exact ⟨fun h => ⟨⟨h1, by omega, trivial⟩, h.symm⟩, fun h => h.2.symm⟩
      | abort k => simp

/-- Where `MemWrite` stops although the address is aligned and below the top: `MemAdmit` aborts. -/
theorem memWrite_error {s : State} {x : Store} {e : StoreStop} (h : memWrite s x.addr x.width x.value = .error e)
    (ha : s.cfg.alignEnforced = true → x.addr.toNat % x.width = 0) (hw : x.addr.toNat + x.width ≤ 2 ^ 32) :
    ∃ kind, e = .abort kind x.addr ∧ memAdmit s.cfg x.addr.toNat x.width s.privileged = .abort kind := by
  unfold memWrite at h
  rw [if_neg (by simpa using ha), if_neg (by omega)] at h
  cases h3 : memAdmit s.cfg x.addr.toNat x.width s.privileged with
  | ok => rw [h3] at h; cases h
  | abort k => rw [h3] at h; cases h; exact ⟨k, rfl, rfl⟩

/-- The memory after a list of stores, all performed. -/
def memAfter (bigendian : Bool) : List Store → Memory → Memory
  | [], m => m
  | x :: xs, m => memAfter bigendian xs (m.writeBytes x.addr.toNat (Store.bytes bigendian x))

/-- The store loop completes exactly when every store is performed, and then only memory changes. -/
theorem storeAll_ok_iff (xs : List Store) (s t : State) :
    storeAll xs s = .ok t ↔
      (∀ x ∈ xs, Store.performed s x) ∧ t = { s with mem := memAfter s.bigendian xs s.mem } := by
  induction xs generalizing s with
  | nil => simp [storeAll, memAfter]; exact eq_comm
  | cons x xs ih =>
    simp only [storeAll]
    cases h : memWrite s x.addr x.width x.value with
    | error e =>
      simp only [reduceCtorEq, false_iff, List.mem_cons, forall_eq_or_imp]
      rintro ⟨⟨hx, -⟩, -⟩
      have := (memWrite_ok_iff s _ x).2 ⟨hx, rfl⟩
      rw [h] at this
      cases this
    | ok u =>
      obtain ⟨hx, rfl⟩ := (memWrite_ok_iff s u x).1 h
      rw [ih]
      simp only [List.mem_cons, forall_eq_or_imp, memAfter]
      exact ⟨fun ⟨h1, h2⟩ => ⟨⟨hx, h1⟩, h2⟩, fun ⟨⟨_, h1⟩, h2⟩ => ⟨h1, h2⟩⟩

/-- The store loop stops at the first store that is not performed. -/
theorem storeAll_error {xs : List Store} {s : State} {e : StoreStop} (h : storeAll xs s = .error e) :
    ∃ before x after, xs = before ++ x :: after ∧ (∀ y ∈ before, Store.performed s y) ∧
      memWrite s x.addr x.width x.value = .error e := by
  induction xs generalizing s with
  | nil => cases h
  | cons x xs ih =>
    simp only [storeAll] at h
    cases hx : memWrite s x.addr x.width x.value with
    | error e' =>
      rw [hx] at h
      cases h
      exact ⟨[], x, xs, rfl, by simp, hx⟩
    | ok u =>
      rw [hx] at h
      obtain ⟨hp, rfl⟩ := (memWrite_ok_iff s u x).1 hx
      obtain ⟨before, y, after, rfl, hb, hy⟩ := ih h
      refine ⟨x :: before, y, after, rfl, ?_, ?_⟩
      · simp only [List.mem_cons, forall_eq_or_imp]
        exact ⟨hp, hb⟩
      · unfold memWrite at hy ⊢
        by_cases h1 : (s.cfg.alignEnforced && y.addr.toNat % y.width != 0) = true
        · rwa [if_pos h1] at hy ⊢
        · rw [if_neg h1] at hy ⊢
          by_cases h2 : 2 ^ 32 < y.addr.toNat + y.width
          · rwa [if_pos h2] at hy ⊢
          · rw [if_neg h2] at hy ⊢
            have hpriv : State.privileged
                { s with mem := s.mem.writeBytes x.addr.toNat (Store.bytes s.bigendian x) } = s.privileged := rfl
            simp only [hpriv] at hy
            cases h3 : memAdmit s.cfg y.addr.toNat y.width s.privileged with
            | ok => rw [h3] at hy; cases hy
            | abort k => rw [h3] at hy; exact hy

/-! ## UNKNOWN values -/

/-- Making bytes UNKNOWN changes memory and the draw counter, nothing else. -/
theorem unknownBytes_frame (as : List Nat) (s : State) :
    unknownBytes as s = { s with mem := (unknownBytes as s).mem, draws := (unknownBytes as s).draws } := by
  induction as generalizing s with
  | nil => rfl
  | cons a as ih =>
    simp only [unknownBytes]
    cases memAdmit s.cfg a 1 s.privileged with
    | ok => rw [ih]
    | abort k => exact ih s

/-- An address that is not in the list, or whose byte is not admitted, keeps its byte. -/
theorem read_unknownBytes_other (as : List Nat) (s : State) (x : Nat)
    (h : x ∈ as → memAdmit s.cfg x 1 s.privileged ≠ .ok) : (unknownBytes as s).mem.read x = s.mem.read x := by
  induction as generalizing s with
  | nil => rfl
  | cons a as ih =>
    simp only [unknownBytes]
    cases hm : memAdmit s.cfg a 1 s.privileged with
    | ok =>
      have hx : x ≠ a := fun e => h (by simp [e]) (e ▸ hm)
      rw [ih]
      · exact Memory.read_write_other _ _ _ _ hx
      · exact fun hx' => h (List.mem_cons_of_mem _ hx')
    | abort k => exact ih s fun hx' => h (List.mem_cons_of_mem _ hx')

/-- An address of the list whose byte is admitted holds an UNKNOWN byte. -/
theorem read_unknownBytes_admitted (as : List Nat) (s : State) (x : Nat) (hx : x ∈ as)
    (h : memAdmit s.cfg x 1 s.privileged = .ok) :
    ∃ k, s.draws ≤ k ∧ (unknownBytes as s).mem.read x = Config.unknownByte k := by
  induction as generalizing s with
  | nil => cases hx
  | cons a as ih =>
    simp only [unknownBytes]
    by_cases hin : x ∈ as
    · cases hm : memAdmit s.cfg a 1 s.privileged with
      | ok =>
        obtain ⟨k, hk, hr⟩ := ih { s with
          mem := Memory.write s.mem a (Config.unknownByte s.draws), draws := s.draws + 1 } hin h
        exact ⟨k, by simp at hk; omega, hr⟩
      | abort kind => exact ih s hin h
    · obtain rfl : x = a := by simpa [hin] using hx
      rw [h]
      refine ⟨s.draws, le_refl _, ?_⟩
      simp only
      rw [read_unknownBytes_other _ _ _ (fun hx' => absurd hx' hin)]
      exact Memory.read_write_self ..

theorem unknownBytes_wf (as : List Nat) (s : State) (h : s.mem.wf = true) : (unknownBytes as s).mem.wf = true := by
  induction as generalizing s with
  | nil => exact h
  | cons a as ih =>
    simp only [unknownBytes]
    cases hm : memAdmit s.cfg a 1 s.privileged with
    | ok => exact ih _ (Memory.wf_write h _ _ (allocated_lt (memAdmit_ok_allocated hm 0 (by omega))))
    | abort k => exact ih s h

theorem unknownBytes_memAllocated (as : List Nat) (s : State) (h : s.memAllocated = true) :
    (unknownBytes as s).memAllocated = true := by
  induction as generalizing s with
  | nil => exact h
  | cons a as ih =>
    simp only [unknownBytes]
    cases hm : memAdmit s.cfg a 1 s.privileged with
    | ok =>
      refine ih _ ?_
      exact Memory.all_writeBytes (p := allocated s.cfg) h a [Config.unknownByte s.draws]
        (fun k hk => memAdmit_ok_allocated hm k (by simpa using hk))
    | abort k => exact ih s h

/-- The byte of every address after the footprint is made UNKNOWN: a free value where the address is listed and
admitted, and the byte from before elsewhere. -/
theorem byte_unknownBytes (as : List Nat) (s : State) (x : Nat) :
    (x ∈ as → memAdmit s.cfg x 1 s.privileged = .ok → ∃ k, (unknownBytes as s).byte x = some (Config.unknownByte k)) ∧
      (¬ (x ∈ as ∧ memAdmit s.cfg x 1 s.privileged = .ok) → (unknownBytes as s).byte x = s.byte x) := by
  have hcfg : (unknownBytes as s).cfg = s.cfg := by rw [unknownBytes_frame]
  refine ⟨fun hx h => ?_, fun h => State.byte_congr hcfg (read_unknownBytes_other as s x fun hx hm => h ⟨hx, hm⟩)⟩
  obtain ⟨k, -, hr⟩ := read_unknownBytes_admitted as s x hx h
  refine ⟨k, ?_⟩
  rw [State.byte_of_allocated (hcfg ▸ memAdmit_ok_allocated h 0 (by omega)), hr]

/-- Making SIMD&FP registers UNKNOWN changes those registers, their marks and the draw counter, nothing else. -/
theorem unknownDRegs_frame (is : List DReg) (s : State) :
    unknownDRegs is s = { s with
      d := (unknownDRegs is s).d
      unwritten := { s.unwritten with d := (unknownDRegs is s).unwritten.d }
      draws := (unknownDRegs is s).draws } := by
  induction is generalizing s with
  | nil => rfl
  | cons i is ih => simp only [unknownDRegs]; rw [ih]; rfl

theorem readD_unknownDRegs_other (is : List DReg) (s : State) (k : DReg) (h : k ∉ is) :
    (unknownDRegs is s).readD k = s.readD k := by
  induction is generalizing s with
  | nil => rfl
  | cons i is ih =>
    simp only [List.mem_cons, not_or] at h
    simp only [unknownDRegs]
    rw [ih _ h.2]
    exact State.readD_writeD_other s i k _ h.1

/-- A listed register holds an UNKNOWN value. -/
theorem readD_unknownDRegs_listed (is : List DReg) (s : State) (k : DReg) (h : k ∈ is) :
    ∃ m, (unknownDRegs is s).readD k = Config.unknownDWord m := by
  induction is generalizing s with
  | nil => cases h
  | cons i is ih =>
    simp only [unknownDRegs]
    by_cases hin : k ∈ is
    · exact ih _ hin
    · obtain rfl : k = i := by simpa [hin] using h
      refine ⟨s.draws, ?_⟩
      rw [readD_unknownDRegs_other _ _ _ hin]
      exact State.readD_writeD_self s k _

/-- An UNKNOWN register holds a value; the marks of the others are as before. -/
theorem written_unknownDRegs (is : List DReg) (s : State) (x : RegName) :
    (unknownDRegs is s).written x = (s.written x || is.any (fun i => x == .d i)) := by
  induction is generalizing s with
  | nil => simp [unknownDRegs]
  | cons i is ih =>
    simp only [unknownDRegs, List.any_cons]
    rw [ih]
    have hw : State.written { State.writeD s i (Config.unknownDWord s.draws) with draws := s.draws + 1 } x =
        (State.writeD s i (Config.unknownDWord s.draws)).written x := State.written_congr rfl x
    rw [hw]
    by_cases hx : x = .d i
    · subst hx; simp
    · rw [State.written_writeD_other _ _ _ _ hx, beq_eq_false_iff_ne.2 hx, Bool.false_or]

/-! ## The fetch -/

@[simp] theorem ISet.pcAlignment_a32 : ISet.pcAlignment .a32 = 4 := rfl
@[simp] theorem ISet.pcAlignment_t32 : ISet.pcAlignment .t32 = 2 := rfl

/-- The fetch answers the four bytes at a usable `pc` (R51). -/
theorem fetch_ok_iff (s : State) (bs : List Byte) :
    fetch s = .ok bs ↔ s.pcUsable = true ∧ s.readBytes s.pc.toNat 4 = some bs := by
  unfold fetch
  split
  · rename_i h
    split <;> simp_all
  · simp_all

/-- What `pcUsable` asks for. -/
theorem pcUsable_iff (s : State) :
    s.pcUsable = true ↔ s.pc.toNat % ISet.pcAlignment s.iset = 0 ∧ s.pc.toNat ≤ 0xFFFFFFFB ∧
      s.cfg.text.base ≤ s.pc.toNat ∧ s.pc.toNat + 4 ≤ s.cfg.text.base + s.cfg.text.size := by
  simp only [State.pcUsable, Region.covers, Bool.and_eq_true, decide_eq_true_eq, and_assoc]

/-- A step that goes on fetched, decoded and executed an instruction. -/
theorem step_next {s t : State} (h : step s = .next t) :
    ∃ bs i rest, fetch s = .ok bs ∧ decodeBytes s.iset bs = .ok (i, rest) ∧ exec i s = .next t := by
  unfold step at h
  split at h
  · cases h
  · rename_i bs hf
    split at h
    · cases h
    · rename_i i rest hd
      exact ⟨bs, i, rest, hf, hd, h⟩

end Sys2Proof.Machine
end

