-- ==== Sys2Proof/Laws/Operands.lean ====
section
/-! SUPPORT. What the store list of a VST1 is: its addresses and widths, and the memory image it writes in closed form
(40_vst1_operation.md R86, R87). -/

namespace Sys2Proof.Machine

/-! ## The decode-time values (R79) -/

@[simp] theorem ListLen.regs_one : ListLen.regs .one = 1 := rfl
@[simp] theorem ListLen.regs_two : ListLen.regs .two = 2 := rfl
@[simp] theorem ListLen.regs_three : ListLen.regs .three = 3 := rfl
@[simp] theorem ListLen.regs_four : ListLen.regs .four = 4 := rfl
@[simp] theorem ElemSize.ebytes_b8 : ElemSize.ebytes .b8 = 1 := rfl
@[simp] theorem ElemSize.ebytes_b16 : ElemSize.ebytes .b16 = 2 := rfl
@[simp] theorem ElemSize.ebytes_b32 : ElemSize.ebytes .b32 = 4 := rfl
@[simp] theorem ElemSize.ebytes_b64 : ElemSize.ebytes .b64 = 8 := rfl
@[simp] theorem Align.bytes_omitted : Align.bytes .omitted = 1 := rfl
@[simp] theorem Align.bytes_a64 : Align.bytes .a64 = 8 := rfl
@[simp] theorem Align.bytes_a128 : Align.bytes .a128 = 16 := rfl
@[simp] theorem Align.bytes_a256 : Align.bytes .a256 = 32 := rfl

theorem ListLen.regs_pos (l : ListLen) : 1 ≤ ListLen.regs l := by cases l <;> decide
theorem ListLen.regs_le (l : ListLen) : ListLen.regs l ≤ 4 := by cases l <;> decide
theorem ElemSize.ebytes_pos (z : ElemSize) : 0 < ElemSize.ebytes z := by cases z <;> decide
theorem ElemSize.ebytes_dvd (z : ElemSize) : ElemSize.ebytes z ∣ 8 := by cases z <;> decide
theorem ElemSize.elements_mul (z : ElemSize) : ElemSize.elements z * ElemSize.ebytes z = 8 := by cases z <;> rfl

/-- The width of one `MemWrite`: the element, or half of a 64-bit element (20_memory.md R38, R43). -/
def ElemSize.accessBytes : ElemSize → Nat
  | .b8 => 1
  | .b16 => 2
  | .b32 => 4
  | .b64 => 4

theorem ElemSize.accessBytes_pos (z : ElemSize) : 0 < ElemSize.accessBytes z := by cases z <;> decide

/-! ## Addresses below the top of memory -/

/-- An offset that stays below 2^32 adds without wrapping. -/
theorem toNat_add_ofNat {a : Word} {k : Nat} (h : a.toNat + k < 2 ^ 32) :
    (a + BitVec.ofNat 32 k).toNat = a.toNat + k := by
  rw [BitVec.toNat_add, BitVec.toNat_ofNat]
  omega

/-! ## The bytes of an element -/

/-- The bytes of one element in ascending address order (20_memory.md R37, R38). -/
def elementBytes (bigendian : Bool) (z : ElemSize) (x : DWord) : List Byte :=
  (List.range (ElemSize.ebytes z)).map (laneByte bigendian (ElemSize.ebytes z) x)

@[simp] theorem elementBytes_length (big : Bool) (z : ElemSize) (x : DWord) :
    (elementBytes big z x).length = ElemSize.ebytes z := by simp [elementBytes]

theorem laneByte_getLsbD (big : Bool) (n : Nat) (v : DWord) (i j : Nat) :
    (laneByte big n v i).getLsbD j =
      (decide (j < 8) && v.getLsbD (8 * (if big then n - 1 - i else i) + j)) := by
  simp [laneByte]

theorem laneByte_half (big : Bool) (x : DWord) (lo i k : Nat) (hi : i < 4)
    (hk : lo + 8 * (if big then 3 - i else i) = 8 * (if big then 7 - k else k)) :
    laneByte big 4 ((x.extractLsb' lo 32).setWidth 64) i = laneByte big 8 x k := by
  unfold laneByte
  rw [show 8 - 1 - k = 7 - k from rfl, ← hk]
  ext j hj
  simp only [BitVec.getElem_extractLsb', BitVec.getLsbD_setWidth, BitVec.getLsbD_extractLsb']
  have h2 : 8 * (if big then 4 - 1 - i else i) + j < 32 := by cases big <;> simp <;> omega
  rw [decide_eq_true (p := _ < 64) (by omega), decide_eq_true h2, Nat.add_assoc]
  simp

/-- The `MemWrite` calls of one 64-bit element: the half at the lower address follows the byte order (R38). -/
theorem elementStores_b64 (big : Bool) (a : Word) (x : DWord) :
    elementStores big .b64 a x =
      [⟨a, 4, (x.extractLsb' (if big then 32 else 0) 32).setWidth 64⟩,
       ⟨a + 4#32, 4, (x.extractLsb' (if big then 0 else 32) 32).setWidth 64⟩] := by
  cases big <;> rfl

/-- The stores of one element write its bytes in the byte order, a 64-bit element's two halves included (R37, R38). -/
theorem elementStores_bytes (big : Bool) (z : ElemSize) (a : Word) (x : DWord) :
    (elementStores big z a x).flatMap (Store.bytes big) = elementBytes big z x := by
  cases z with
  | b8 => simp [elementStores, Store.bytes, elementBytes]
  | b16 => simp [elementStores, Store.bytes, elementBytes]
  | b32 => simp [elementStores, Store.bytes, elementBytes]
  | b64 =>
    rw [elementStores_b64]
    simp only [List.flatMap_cons, List.flatMap_nil, List.append_nil, Store.bytes, elementBytes, ElemSize.ebytes_b64]
    rw [show List.range 8 = List.range 4 ++ (List.range 4).map (4 + ·) from rfl, List.map_append, List.map_map]
    congr 1 <;> (refine List.map_congr_left fun i hi => ?_; rw [List.mem_range] at hi)
    · exact laneByte_half big x _ i i hi (by cases big <;> simp; omega)
    · exact laneByte_half big x _ i (4 + i) hi (by cases big <;> (simp; omega))

/-! ## The store loop's memory (R86) -/

/-- The stores of a list of elements write the elements' bytes at consecutive addresses. -/
theorem memAfter_storesFrom (big : Bool) (z : ElemSize) (xs : List DWord) (a : Word) (m : Memory)
    (h : a.toNat + ElemSize.ebytes z * xs.length ≤ 2 ^ 32) :
    memAfter big (storesFrom big z a xs) m = m.writeBytes a.toNat (xs.flatMap (elementBytes big z)) := by
  induction xs generalizing a m with
  | nil => rfl
  | cons x xs ih =>
    have happ : ∀ (ys zs : List Store) (m : Memory),
        memAfter big (ys ++ zs) m = memAfter big zs (memAfter big ys m) := by
      intro ys
      induction ys with
      | nil => intros; rfl
      | cons y ys ih => intros; simp only [List.cons_append, memAfter, ih]
    have hone : memAfter big (elementStores big z a x) m = m.writeBytes a.toNat (elementBytes big z x) := by
      rw [← elementStores_bytes big z a x]
      cases z with
      | b8 => simp [elementStores, memAfter]
      | b16 => simp [elementStores, memAfter]
      | b32 => simp [elementStores, memAfter]
      | b64 =>
        simp only [ElemSize.ebytes_b64, List.length_cons] at h
        rw [elementStores_b64]
        simp only [memAfter, List.flatMap_cons, List.flatMap_nil, List.append_nil, Memory.writeBytes_append,
          Store.bytes_length]
        rw [toNat_add_ofNat (k := 4) (by omega)]
    have hz := ElemSize.ebytes_pos z
    simp only [List.length_cons, Nat.mul_add, Nat.mul_one] at h
    rw [storesFrom, happ, hone, List.flatMap_cons, Memory.writeBytes_append, elementBytes_length]
    cases xs with
    | nil => rfl
    | cons y ys =>
      have hlt : a.toNat + ElemSize.ebytes z < 2 ^ 32 := by
        simp only [List.length_cons, Nat.mul_add, Nat.mul_one] at h
        omega
      rw [ih]
      · rw [toNat_add_ofNat hlt]
      · rw [toNat_add_ofNat hlt]; omega

/-- Every store of the loop, as an address and a width: consecutive accesses of `accessBytes` bytes. -/
theorem storesFrom_addresses (big : Bool) (z : ElemSize) (xs : List DWord) (a : Word) :
    (storesFrom big z a xs).map (fun x => (x.addr, x.width)) =
      (List.range (ElemSize.ebytes z * xs.length / ElemSize.accessBytes z)).map
        (fun k => (a + BitVec.ofNat 32 (ElemSize.accessBytes z * k), ElemSize.accessBytes z)) := by
  induction xs generalizing a with
  | nil => simp [storesFrom]
  | cons x xs ih =>
    rw [storesFrom, List.map_append, ih]
    obtain ⟨q, hq⟩ : ∃ q, ElemSize.ebytes z = ElemSize.accessBytes z * q ∧
        (elementStores big z a x).map (fun x => (x.addr, x.width)) =
          (List.range q).map (fun k => (a + BitVec.ofNat 32 (ElemSize.accessBytes z * k), ElemSize.accessBytes z)) := by
      cases z with
      | b8 => exact ⟨1, rfl, by simp [elementStores, ElemSize.accessBytes]⟩
      | b16 => exact ⟨1, rfl, by simp [elementStores, ElemSize.accessBytes]⟩
      | b32 => exact ⟨1, rfl, by simp [elementStores, ElemSize.accessBytes]⟩
      | b64 =>
        refine ⟨2, rfl, ?_⟩
        rw [elementStores_b64]
        simp [ElemSize.accessBytes, List.range_succ]
    have hp := ElemSize.accessBytes_pos z
    rw [hq.2]
    simp only [List.length_cons, hq.1]
    have e1 : ElemSize.accessBytes z * q * xs.length / ElemSize.accessBytes z = q * xs.length := by
      rw [Nat.mul_assoc, Nat.mul_div_cancel_left _ hp]
    have e2 : ElemSize.accessBytes z * q * (xs.length + 1) / ElemSize.accessBytes z = q + q * xs.length := by
      rw [Nat.mul_assoc, Nat.mul_div_cancel_left _ hp]; ring
    rw [e1, e2, List.range_add, List.map_append, List.map_map]
    congr 1
    refine List.map_congr_left fun k _ => ?_
    simp only [Function.comp, Prod.mk.injEq, and_true]
    rw [Nat.mul_add, BitVec.ofNat_add, ← BitVec.add_assoc]

/-! ## The elements of the register list -/

@[simp] theorem elementsOf_length (z : ElemSize) (v : DWord) : (elementsOf z v).length = ElemSize.elements z := by
  simp [elementsOf]

@[simp] theorem Form.dregs_length (f : Form) : (Form.dregs f).length = ListLen.regs f.len := by simp [Form.dregs]

theorem Form.elementValues_length (f : Form) (s : State) :
    ElemSize.ebytes f.size * (Form.elementValues f s).length = Form.transfer f := by
  have h : ∀ is : List DReg, (is.flatMap (fun i => elementsOf f.size (State.readD s i))).length =
      is.length * ElemSize.elements f.size := by
    intro is
    induction is with
    | nil => simp
    | cons i is ih => simp only [List.flatMap_cons, List.length_append, ih, elementsOf_length, List.length_cons]; ring
  rw [Form.elementValues, h, Form.dregs_length, Form.transfer, ← ElemSize.elements_mul f.size]
  ring

/-- The bytes of the whole transfer in ascending address order. -/
def Form.image (f : Form) (s : State) : List Byte :=
  (Form.elementValues f s).flatMap (elementBytes s.bigendian f.size)

/-- The byte of a register that lies `j` bytes into its eight (40_vst1_operation.md R87): byte `j` in little-endian; in
big-endian each element of `ebytes` bytes is reversed in place. -/
def imageByte (bigendian : Bool) (ebytes : Nat) (v : DWord) (j : Nat) : Byte :=
  v.extractLsb' (8 * (if bigendian then j / ebytes * ebytes + (ebytes - 1 - j % ebytes) else j)) 8

/-- The bytes of one register are the closed form of R87. -/
theorem elementsOf_bytes (big : Bool) (z : ElemSize) (v : DWord) :
    (elementsOf z v).flatMap (elementBytes big z) = (List.range 8).map (imageByte big (ElemSize.ebytes z) v) := by
  have lane : ∀ e i, i < ElemSize.ebytes z →
      laneByte big (ElemSize.ebytes z) (elem v e (8 * ElemSize.ebytes z)) i =
        v.extractLsb' (8 * (e * ElemSize.ebytes z + (if big then ElemSize.ebytes z - 1 - i else i))) 8 := by
    intro e i hi
    have hz : ElemSize.ebytes z ≤ 8 := Nat.le_of_dvd (by decide) (ElemSize.ebytes_dvd z)
    ext j hj
    simp only [laneByte, elem, BitVec.getElem_extractLsb', BitVec.getLsbD_setWidth, BitVec.getLsbD_extractLsb']
    have h1 : (if big then ElemSize.ebytes z - 1 - i else i) < ElemSize.ebytes z := by split <;> omega
    generalize (if big then ElemSize.ebytes z - 1 - i else i) = k at h1
    rw [decide_eq_true (p := _ < 64) (by omega), decide_eq_true (p := _ < 8 * ElemSize.ebytes z) (by omega)]
    simp only [Bool.true_and]
    congr 1
    ring
  have rows : (elementsOf z v).flatMap (elementBytes big z) =
      (List.range (ElemSize.elements z)).flatMap fun e => (List.range (ElemSize.ebytes z)).map fun i =>
        v.extractLsb' (8 * (e * ElemSize.ebytes z + (if big then ElemSize.ebytes z - 1 - i else i))) 8 := by
    simp only [elementsOf, List.flatMap_map, elementBytes]
    refine List.flatMap_congr fun e _ => List.map_congr_left fun i hi => lane e i (by simpa using hi)
  rw [rows]
  cases z <;> cases big <;> rfl

/-- Byte `8r + j` of the transfer is the closed form's byte `j` of register `d + r` (R87). -/
theorem Form.image_getElem (f : Form) (s : State) (r j : Nat) (hr : r < ListLen.regs f.len) (hj : j < 8) :
    (Form.image f s)[8 * r + j]? =
      some (imageByte s.bigendian (ElemSize.ebytes f.size) (State.readD s (DReg.plus f.dd r)) j) := by
  have key : ∀ (is : List DReg) (r : Nat) (h : r < is.length),
      ((is.flatMap (fun i => elementsOf f.size (State.readD s i))).flatMap
        (elementBytes s.bigendian f.size))[8 * r + j]? =
          some (imageByte s.bigendian (ElemSize.ebytes f.size) (State.readD s is[r]) j) := by
    intro is
    induction is with
    | nil => intro r h; simp at h
    | cons i is ih =>
      intro r h
      rw [List.flatMap_cons, List.flatMap_append, elementsOf_bytes]
      cases r with
      | zero => rw [List.getElem?_append_left (by simpa using hj)]; simp [hj]
      | succ r =>
        rw [List.getElem?_append_right (by simp; omega)]
        have e : 8 * (r + 1) + j - ((List.range 8).map
            (imageByte s.bigendian (ElemSize.ebytes f.size) (State.readD s i))).length = 8 * r + j := by
          simp; omega
        rw [e, ih r (by simpa using h)]
        simp
  have := key (Form.dregs f) r (by simpa using hr)
  simpa [Form.image, Form.elementValues, Form.dregs] using this

@[simp] theorem Form.image_length (f : Form) (s : State) : (Form.image f s).length = Form.transfer f := by
  rw [← Form.elementValues_length f s, Form.image]
  induction Form.elementValues f s with
  | nil => simp
  | cons x xs ih => simp only [List.flatMap_cons, List.length_append, ih, elementBytes_length, List.length_cons]; ring

/-- The loop's memory is the image, written at the base address. -/
theorem memAfter_stores (f : Form) (s : State) (h : (State.readR s f.rn).toNat + Form.transfer f ≤ 2 ^ 32) :
    memAfter s.bigendian (Form.stores f s) s.mem =
      s.mem.writeBytes (State.readR s f.rn).toNat (Form.image f s) := by
  rw [Form.stores, memAfter_storesFrom, Form.image]
  rw [Form.elementValues_length]
  exact h

/-- The accesses of the instruction: `8*regs` bytes in steps of the access width from the base address (R43). -/
theorem Form.stores_addresses (f : Form) (s : State) :
    (Form.stores f s).map (fun x => (x.addr, x.width)) =
      (List.range (Form.transfer f / ElemSize.accessBytes f.size)).map
        (fun k => (State.readR s f.rn + BitVec.ofNat 32 (ElemSize.accessBytes f.size * k),
          ElemSize.accessBytes f.size)) := by
  rw [Form.stores, storesFrom_addresses, Form.elementValues_length]

/-! ## The footprint and the register list -/

theorem Form.mem_footprint (f : Form) (s : State) (a : Nat) :
    a ∈ Form.footprint f s ↔ ∃ j < Form.transfer f, a = (State.readR s f.rn + BitVec.ofNat 32 j).toNat := by
  simp only [Form.footprint, List.mem_map, List.mem_range, eq_comm]

theorem Form.mem_dregs (f : Form) (k : DReg) :
    k ∈ Form.dregs f ↔ ∃ r < ListLen.regs f.len, k = DReg.plus f.dd r := by
  simp only [Form.dregs, List.mem_map, List.mem_range, eq_comm]

/-- The registers that the unwritten-register check asks about (R77 item 6). -/
theorem Form.reads_written (f : Form) (s : State) :
    (∀ x ∈ Form.reads f, s.written x = true) ↔
      s.written (.r f.rn) = true ∧ (∀ r < ListLen.regs f.len, s.written (.d (DReg.plus f.dd r)) = true) ∧
        (f.rm ≠ 13 → f.rm ≠ 15 → s.written (.r f.rm) = true) := by
  simp only [Form.reads, Form.dregs, Form.registerIndex, List.cons_append, List.mem_cons, List.mem_append,
    List.mem_map, List.mem_range]
  constructor
  · intro h
    refine ⟨h _ (.inl rfl), fun r hr => h _ (.inr (.inl ⟨_, ⟨r, hr, rfl⟩, rfl⟩)), fun h13 h15 => h _ (.inr (.inr ?_))⟩
    simp [h13, h15]
  · rintro ⟨hb, hd, hm⟩ x (rfl | ⟨_, ⟨r, hr, rfl⟩, rfl⟩ | hx)
    · exact hb
    · exact hd r hr
    · by_cases h15 : f.rm = 15
      · simp [h15] at hx
      · by_cases h13 : f.rm = 13
        · simp [h13] at hx
        · simp only [ne_eq, h15, h13, not_false_eq_true, bne_iff_ne, Bool.and_eq_true, and_self, if_true,
            List.mem_singleton] at hx
          exact hx ▸ hm h13 h15

/-! ## Writeback (R88) -/

/-- Writeback changes general registers only, their marks included. -/
theorem Form.writeback_frame (f : Form) (s : State) :
    Form.writeback f s = { s with r := (Form.writeback f s).r, unwritten := (Form.writeback f s).unwritten } := by
  unfold Form.writeback
  split
  · split <;> rfl
  · rfl

/-- Writeback to a register that holds a value changes no mark. -/
theorem Form.writeback_unwritten (f : Form) (s : State) (h : s.written (.r f.rn) = true) :
    (Form.writeback f s).unwritten = s.unwritten := by
  unfold Form.writeback
  split
  · split <;> exact State.writeR_unwritten_of_written _ _ _ h
  · rfl

/-- Writeback changes the base register only, and that only when `Rm` is not 15. -/
theorem Form.writeback_other (f : Form) (s : State) (k : RReg) (h : k ≠ f.rn ∨ f.rm = 15) :
    (Form.writeback f s).readR k = s.readR k := by
  unfold Form.writeback Form.wback
  rcases h with h | h
  · split
    · split <;> exact State.readR_writeR_other _ _ _ _ h
    · rfl
  · simp [h]

/-- The base register after writeback, by the field `Rm`. -/
theorem Form.writeback_base (f : Form) (s : State) :
    (Form.writeback f s).readR f.rn =
      if f.rm = 15 then s.readR f.rn
      else if f.rm = 13 then s.readR f.rn + BitVec.ofNat 32 (Form.transfer f)
      else s.readR f.rn + s.readR f.rm := by
  unfold Form.writeback Form.wback Form.registerIndex
  by_cases h : f.rm = 15
  · simp [h]
  · by_cases h' : f.rm = 13
    · simp [h']
    · simp [h, h']

end Sys2Proof.Machine
end

