-- ==== Sys2Proof/Laws/PerInstr.lean ====
section
/-! SUPPORT. Per-instruction families: the match and mask of every row of the opcode table (30_encoding.md R65). -/

namespace Sys2Proof.Laws

/-- Masking an encoded word leaves the class's constant bits and, under the mask that keeps it, the field `Rm`. -/
theorem encodeForm_and_mask (f : Form) (k : BitVec 4) :
    encodeForm f &&& (0x1FF#9 ++ 0#1 ++ 3#2 ++ 0#4 ++ 0#4 ++ 0xF#4 ++ 0#2 ++ 0#2 ++ k) =
      f.iset.fixedBits ++ 0#1 ++ 0#2 ++ 0#4 ++ 0#4 ++ f.len.itype ++ 0#2 ++ 0#2 ++ (f.rm.bits &&& k) := by
  unfold encodeForm
  refine (append_and_append _ _ _ _).trans ?_
  simp only [append_and_append, BitVec.and_zero]
  congr 1
  cases f.iset <;> cases f.len <;> rfl

/-- The row of R65: mask and match. -/
def MatchMask.row : Instr → Word × Word
  | .vst1A1Nowb _ _ _ _ => (0xFFB00F0F#32, 0xF400070F#32)
  | .vst1A1Posti _ _ _ _ => (0xFFB00F0F#32, 0xF400070D#32)
  | .vst1A1Postr _ _ _ _ _ => (0xFFB00F00#32, 0xF4000700#32)
  | .vst1A2Nowb _ _ _ _ => (0xFFB00F0F#32, 0xF4000A0F#32)
  | .vst1A2Posti _ _ _ _ => (0xFFB00F0F#32, 0xF4000A0D#32)
  | .vst1A2Postr _ _ _ _ _ => (0xFFB00F00#32, 0xF4000A00#32)
  | .vst1A3Nowb _ _ _ _ => (0xFFB00F0F#32, 0xF400060F#32)
  | .vst1A3Posti _ _ _ _ => (0xFFB00F0F#32, 0xF400060D#32)
  | .vst1A3Postr _ _ _ _ _ => (0xFFB00F00#32, 0xF4000600#32)
  | .vst1A4Nowb _ _ _ _ => (0xFFB00F0F#32, 0xF400020F#32)
  | .vst1A4Posti _ _ _ _ => (0xFFB00F0F#32, 0xF400020D#32)
  | .vst1A4Postr _ _ _ _ _ => (0xFFB00F00#32, 0xF4000200#32)
  | .vst1T1Nowb _ _ _ _ => (0xFFB00F0F#32, 0xF900070F#32)
  | .vst1T1Posti _ _ _ _ => (0xFFB00F0F#32, 0xF900070D#32)
  | .vst1T1Postr _ _ _ _ _ => (0xFFB00F00#32, 0xF9000700#32)
  | .vst1T2Nowb _ _ _ _ => (0xFFB00F0F#32, 0xF9000A0F#32)
  | .vst1T2Posti _ _ _ _ => (0xFFB00F0F#32, 0xF9000A0D#32)
  | .vst1T2Postr _ _ _ _ _ => (0xFFB00F00#32, 0xF9000A00#32)
  | .vst1T3Nowb _ _ _ _ => (0xFFB00F0F#32, 0xF900060F#32)
  | .vst1T3Posti _ _ _ _ => (0xFFB00F0F#32, 0xF900060D#32)
  | .vst1T3Postr _ _ _ _ _ => (0xFFB00F00#32, 0xF9000600#32)
  | .vst1T4Nowb _ _ _ _ => (0xFFB00F0F#32, 0xF900020F#32)
  | .vst1T4Posti _ _ _ _ => (0xFFB00F0F#32, 0xF900020D#32)
  | .vst1T4Postr _ _ _ _ _ => (0xFFB00F00#32, 0xF9000200#32)

/-- `instr & mask == match` for the encoding of an instruction (R65). -/
def MatchMask.Statement (i : Instr) : Prop := encode i &&& (MatchMask.row i).1 = (MatchMask.row i).2

theorem MatchMask.vst1A1Nowb (dd : DReg) (rn : RReg) (size : ElemSize) (align : Align) :
    MatchMask.Statement (.vst1A1Nowb dd rn size align) :=
  (encodeForm_and_mask ⟨.a32, .one, dd, rn, size, align, 15⟩ 0xF#4).trans <| by simp only [MatchMask.row]; decide

theorem MatchMask.vst1A1Posti (dd : DReg) (rn : RReg) (size : ElemSize) (align : Align) :
    MatchMask.Statement (.vst1A1Posti dd rn size align) :=
  (encodeForm_and_mask ⟨.a32, .one, dd, rn, size, align, 13⟩ 0xF#4).trans <| by simp only [MatchMask.row]; decide

theorem MatchMask.vst1A1Postr (dd : DReg) (rn : RReg) (size : ElemSize) (align : Align) (rm : RReg) :
    MatchMask.Statement (.vst1A1Postr dd rn size align rm) :=
  (encodeForm_and_mask ⟨.a32, .one, dd, rn, size, align, rm⟩ 0#4).trans <| by simp only [MatchMask.row, BitVec.and_zero]; decide

theorem MatchMask.vst1A2Nowb (dd : DReg) (rn : RReg) (size : ElemSize) (align : Align) :
    MatchMask.Statement (.vst1A2Nowb dd rn size align) :=
  (encodeForm_and_mask ⟨.a32, .two, dd, rn, size, align, 15⟩ 0xF#4).trans <| by simp only [MatchMask.row]; decide

theorem MatchMask.vst1A2Posti (dd : DReg) (rn : RReg) (size : ElemSize) (align : Align) :
    MatchMask.Statement (.vst1A2Posti dd rn size align) :=
  (encodeForm_and_mask ⟨.a32, .two, dd, rn, size, align, 13⟩ 0xF#4).trans <| by simp only [MatchMask.row]; decide

theorem MatchMask.vst1A2Postr (dd : DReg) (rn : RReg) (size : ElemSize) (align : Align) (rm : RReg) :
    MatchMask.Statement (.vst1A2Postr dd rn size align rm) :=
  (encodeForm_and_mask ⟨.a32, .two, dd, rn, size, align, rm⟩ 0#4).trans <| by simp only [MatchMask.row, BitVec.and_zero]; decide

theorem MatchMask.vst1A3Nowb (dd : DReg) (rn : RReg) (size : ElemSize) (align : Align) :
    MatchMask.Statement (.vst1A3Nowb dd rn size align) :=
  (encodeForm_and_mask ⟨.a32, .three, dd, rn, size, align, 15⟩ 0xF#4).trans <| by simp only [MatchMask.row]; decide

theorem MatchMask.vst1A3Posti (dd : DReg) (rn : RReg) (size : ElemSize) (align : Align) :
    MatchMask.Statement (.vst1A3Posti dd rn size align) :=
  (encodeForm_and_mask ⟨.a32, .three, dd, rn, size, align, 13⟩ 0xF#4).trans <| by simp only [MatchMask.row]; decide

theorem MatchMask.vst1A3Postr (dd : DReg) (rn : RReg) (size : ElemSize) (align : Align) (rm : RReg) :
    MatchMask.Statement (.vst1A3Postr dd rn size align rm) :=
  (encodeForm_and_mask ⟨.a32, .three, dd, rn, size, align, rm⟩ 0#4).trans <| by simp only [MatchMask.row, BitVec.and_zero]; decide

theorem MatchMask.vst1A4Nowb (dd : DReg) (rn : RReg) (size : ElemSize) (align : Align) :
    MatchMask.Statement (.vst1A4Nowb dd rn size align) :=
  (encodeForm_and_mask ⟨.a32, .four, dd, rn, size, align, 15⟩ 0xF#4).trans <| by simp only [MatchMask.row]; decide

theorem MatchMask.vst1A4Posti (dd : DReg) (rn : RReg) (size : ElemSize) (align : Align) :
    MatchMask.Statement (.vst1A4Posti dd rn size align) :=
  (encodeForm_and_mask ⟨.a32, .four, dd, rn, size, align, 13⟩ 0xF#4).trans <| by simp only [MatchMask.row]; decide

theorem MatchMask.vst1A4Postr (dd : DReg) (rn : RReg) (size : ElemSize) (align : Align) (rm : RReg) :
    MatchMask.Statement (.vst1A4Postr dd rn size align rm) :=
  (encodeForm_and_mask ⟨.a32, .four, dd, rn, size, align, rm⟩ 0#4).trans <| by simp only [MatchMask.row, BitVec.and_zero]; decide

theorem MatchMask.vst1T1Nowb (dd : DReg) (rn : RReg) (size : ElemSize) (align : Align) :
    MatchMask.Statement (.vst1T1Nowb dd rn size align) :=
  (encodeForm_and_mask ⟨.t32, .one, dd, rn, size, align, 15⟩ 0xF#4).trans <| by simp only [MatchMask.row]; decide

theorem MatchMask.vst1T1Posti (dd : DReg) (rn : RReg) (size : ElemSize) (align : Align) :
    MatchMask.Statement (.vst1T1Posti dd rn size align) :=
  (encodeForm_and_mask ⟨.t32, .one, dd, rn, size, align, 13⟩ 0xF#4).trans <| by simp only [MatchMask.row]; decide

theorem MatchMask.vst1T1Postr (dd : DReg) (rn : RReg) (size : ElemSize) (align : Align) (rm : RReg) :
    MatchMask.Statement (.vst1T1Postr dd rn size align rm) :=
  (encodeForm_and_mask ⟨.t32, .one, dd, rn, size, align, rm⟩ 0#4).trans <| by simp only [MatchMask.row, BitVec.and_zero]; decide

theorem MatchMask.vst1T2Nowb (dd : DReg) (rn : RReg) (size : ElemSize) (align : Align) :
    MatchMask.Statement (.vst1T2Nowb dd rn size align) :=
  (encodeForm_and_mask ⟨.t32, .two, dd, rn, size, align, 15⟩ 0xF#4).trans <| by simp only [MatchMask.row]; decide

theorem MatchMask.vst1T2Posti (dd : DReg) (rn : RReg) (size : ElemSize) (align : Align) :
    MatchMask.Statement (.vst1T2Posti dd rn size align) :=
  (encodeForm_and_mask ⟨.t32, .two, dd, rn, size, align, 13⟩ 0xF#4).trans <| by simp only [MatchMask.row]; decide

theorem MatchMask.vst1T2Postr (dd : DReg) (rn : RReg) (size : ElemSize) (align : Align) (rm : RReg) :
    MatchMask.Statement (.vst1T2Postr dd rn size align rm) :=
  (encodeForm_and_mask ⟨.t32, .two, dd, rn, size, align, rm⟩ 0#4).trans <| by simp only [MatchMask.row, BitVec.and_zero]; decide

theorem MatchMask.vst1T3Nowb (dd : DReg) (rn : RReg) (size : ElemSize) (align : Align) :
    MatchMask.Statement (.vst1T3Nowb dd rn size align) :=
  (encodeForm_and_mask ⟨.t32, .three, dd, rn, size, align, 15⟩ 0xF#4).trans <| by simp only [MatchMask.row]; decide

theorem MatchMask.vst1T3Posti (dd : DReg) (rn : RReg) (size : ElemSize) (align : Align) :
    MatchMask.Statement (.vst1T3Posti dd rn size align) :=
  (encodeForm_and_mask ⟨.t32, .three, dd, rn, size, align, 13⟩ 0xF#4).trans <| by simp only [MatchMask.row]; decide

theorem MatchMask.vst1T3Postr (dd : DReg) (rn : RReg) (size : ElemSize) (align : Align) (rm : RReg) :
    MatchMask.Statement (.vst1T3Postr dd rn size align rm) :=
  (encodeForm_and_mask ⟨.t32, .three, dd, rn, size, align, rm⟩ 0#4).trans <| by simp only [MatchMask.row, BitVec.and_zero]; decide

theorem MatchMask.vst1T4Nowb (dd : DReg) (rn : RReg) (size : ElemSize) (align : Align) :
    MatchMask.Statement (.vst1T4Nowb dd rn size align) :=
  (encodeForm_and_mask ⟨.t32, .four, dd, rn, size, align, 15⟩ 0xF#4).trans <| by simp only [MatchMask.row]; decide

theorem MatchMask.vst1T4Posti (dd : DReg) (rn : RReg) (size : ElemSize) (align : Align) :
    MatchMask.Statement (.vst1T4Posti dd rn size align) :=
  (encodeForm_and_mask ⟨.t32, .four, dd, rn, size, align, 13⟩ 0xF#4).trans <| by simp only [MatchMask.row]; decide

theorem MatchMask.vst1T4Postr (dd : DReg) (rn : RReg) (size : ElemSize) (align : Align) (rm : RReg) :
    MatchMask.Statement (.vst1T4Postr dd rn size align rm) :=
  (encodeForm_and_mask ⟨.t32, .four, dd, rn, size, align, rm⟩ 0#4).trans <| by simp only [MatchMask.row, BitVec.and_zero]; decide

end Sys2Proof.Laws
end

