-- ==== Sys2Proof/Laws/Vst1.lean ====
section
/-! SUPPORT. What a VST1 can do, once and for all: one inversion lemma for each outcome (40_vst1_operation.md R77). -/

namespace Sys2Proof.Machine

/-- Every instruction's meaning is the shared operation at its own fields. -/
theorem exec_eq_vst1 (i : Instr) (s : State) : exec i s = vst1 i.form s := by cases i <;> rfl

/-! ## The transfer: items 7 to 12 -/

/-- The `k`-th access of the transfer is admitted. -/
def Form.admitted (f : Form) (s : State) (k : Nat) : Prop :=
  memAdmit s.cfg ((State.readR s f.rn).toNat + ElemSize.accessBytes f.size * k) (ElemSize.accessBytes f.size)
    s.privileged = .ok

/-- What the transfer asks for before the first store: both alignments, no wrap, not the program (R85, R40, R46, R53). -/
structure Form.Clear (f : Form) (s : State) : Prop where
  whole : (State.readR s f.rn).toNat % Align.bytes f.align = 0
  element : s.cfg.alignEnforced = true → (State.readR s f.rn).toNat % ElemSize.ebytes f.size = 0
  noWrap : (State.readR s f.rn).toNat + Form.transfer f ≤ 2 ^ 32
  notText : Region.meets s.cfg.text (State.readR s f.rn).toNat (Form.transfer f) = false

theorem ElemSize.accessBytes_dvd (z : ElemSize) : ElemSize.accessBytes z ∣ ElemSize.ebytes z := by
  cases z <;> decide

/-- An access of the transfer ends below the top of the footprint. -/
theorem access_end_le (f : Form) {k : Nat} (hk : k < Form.transfer f / ElemSize.accessBytes f.size) :
    ElemSize.accessBytes f.size * k + ElemSize.accessBytes f.size ≤ Form.transfer f := by
  have h := Nat.div_mul_le_self (Form.transfer f) (ElemSize.accessBytes f.size)
  have h2 : ElemSize.accessBytes f.size * (k + 1) ≤
      ElemSize.accessBytes f.size * (Form.transfer f / ElemSize.accessBytes f.size) := Nat.mul_le_mul_left _ hk
  rw [Nat.mul_add, Nat.mul_one] at h2
  rw [Nat.mul_comm] at h
  omega

/-- The address of the `k`-th access does not wrap. -/
theorem access_toNat (f : Form) (s : State) (h : (State.readR s f.rn).toNat + Form.transfer f ≤ 2 ^ 32) {k : Nat}
    (hk : k < Form.transfer f / ElemSize.accessBytes f.size) :
    (State.readR s f.rn + BitVec.ofNat 32 (ElemSize.accessBytes f.size * k)).toNat =
      (State.readR s f.rn).toNat + ElemSize.accessBytes f.size * k := by
  have h1 := access_end_le f hk
  have h2 := ElemSize.accessBytes_pos f.size
  exact toNat_add_ofNat (by omega)

/-- A store of the transfer is one of its accesses. -/
theorem mem_stores {f : Form} {s : State} {x : Store} (hx : x ∈ Form.stores f s) :
    ∃ k < Form.transfer f / ElemSize.accessBytes f.size,
      x.addr = State.readR s f.rn + BitVec.ofNat 32 (ElemSize.accessBytes f.size * k) ∧
        x.width = ElemSize.accessBytes f.size := by
  have h : (x.addr, x.width) ∈ (Form.stores f s).map (fun x => (x.addr, x.width)) :=
    List.mem_map_of_mem (f := fun x : Store => (x.addr, x.width)) hx
  rw [Form.stores_addresses] at h
  obtain ⟨k, hk, e⟩ := List.mem_map.1 h
  simp only [Prod.mk.injEq] at e
  exact ⟨k, by simpa using hk, e.1.symm, e.2.symm⟩

/-- An access of a clear transfer is aligned and below the top of memory, so only admission decides it. -/
theorem performed_iff {f : Form} {s : State} (h : Form.Clear f s) {x : Store} {k : Nat}
    (hk : k < Form.transfer f / ElemSize.accessBytes f.size)
    (ha : x.addr = State.readR s f.rn + BitVec.ofNat 32 (ElemSize.accessBytes f.size * k))
    (hw : x.width = ElemSize.accessBytes f.size) : Store.performed s x ↔ Form.admitted f s k := by
  have h1 := access_end_le f hk
  have h2 := h.noWrap
  have h3 := access_toNat f s h.noWrap hk
  unfold Store.performed Form.admitted
  rw [ha, hw, h3]
  refine ⟨fun h => h.2.2, fun h' => ⟨fun he => ?_, by omega, h'⟩⟩
  have h4 := Nat.mod_eq_zero_of_dvd ((ElemSize.accessBytes_dvd f.size).trans (Nat.dvd_of_mod_eq_zero (h.element he)))
  rw [Nat.add_mul_mod_self_left]
  exact h4

/-- When the transfer completes, and what it leaves. -/
theorem vst1Transfer_next_iff (f : Form) (s t : State) :
    vst1Transfer f s = .next t ↔
      Form.Clear f s ∧ (∀ k < Form.transfer f / ElemSize.accessBytes f.size, Form.admitted f s k) ∧
        t = advance f.iset (Form.writeback f
          { s with mem := s.mem.writeBytes (State.readR s f.rn).toNat (Form.image f s) }) := by
  simp only [vst1Transfer, raise]
  split
  · simp only [reduceCtorEq, false_iff]; rintro ⟨h, -⟩; exact absurd h.whole ‹_›
  split
  · rename_i h; simp only [reduceCtorEq, false_iff]; rintro ⟨h', -⟩; exact h.2 (h'.element h.1)
  split
  · simp only [reduceCtorEq, false_iff]; rintro ⟨h, -⟩; have := h.noWrap; omega
  split
  · rename_i h; simp only [reduceCtorEq, false_iff]; rintro ⟨h', -⟩; rw [h'.notText] at h; cases h
  rename_i h1 h2 h3 h4
  have hc : Form.Clear f s := ⟨by omega, fun he => by by_contra hne; exact h2 ⟨he, hne⟩, by omega, by simpa using h4⟩
  split
  · rename_i e he
    simp only [reduceCtorEq, false_iff]
    rintro ⟨-, hadm, -⟩
    have : storeAll (Form.stores f s) s = .ok _ := (storeAll_ok_iff _ s _).2 ⟨fun x hx => ?_, rfl⟩
    · rw [he] at this; cases this
    · obtain ⟨k, hk, ha, hw⟩ := mem_stores hx
      exact (performed_iff hc hk ha hw).2 (hadm k hk)
  · rename_i u hu
    obtain ⟨hall, rfl⟩ := (storeAll_ok_iff _ s _).1 hu
    rw [memAfter_stores f s hc.noWrap]
    simp only [Host.Outcome.next.injEq]
    constructor
    · intro h
      refine ⟨hc, fun k hk => ?_, h.symm⟩
      have hlen : (Form.stores f s).length = Form.transfer f / ElemSize.accessBytes f.size := by
        have := congrArg List.length (Form.stores_addresses f s)
        simpa using this
      have hget := congrArg (fun l => l[k]?) (Form.stores_addresses f s)
      simp only [List.getElem?_map, List.getElem?_range hk, Option.map_some] at hget
      rw [List.getElem?_eq_getElem (by omega)] at hget
      simp only [Option.map_some, Option.some.injEq, Prod.mk.injEq] at hget
      exact (performed_iff hc hk hget.1 hget.2).1 (hall _ (List.getElem_mem _))
    · exact fun ⟨_, _, h⟩ => h.symm

/-- When the transfer raises a fault, and which. -/
theorem vst1Transfer_fault {f : Form} {s : State} {r : Fault} (h : vst1Transfer f s = .fault r) :
    (r = .alignmentAbort ((State.readR s f.rn).setWidth 64) s.storeDescriptor ∧
      ((State.readR s f.rn).toNat % Align.bytes f.align ≠ 0 ∨
        s.cfg.alignEnforced = true ∧ (State.readR s f.rn).toNat % ElemSize.ebytes f.size ≠ 0)) ∨
    (r = .unpredictable .addressWrap ∧ 2 ^ 32 < (State.readR s f.rn).toNat + Form.transfer f ∧
      (State.readR s f.rn).toNat % Align.bytes f.align = 0 ∧
      (s.cfg.alignEnforced = true → (State.readR s f.rn).toNat % ElemSize.ebytes f.size = 0)) ∨
    (Form.Clear f s ∧ ∃ kind k, k < Form.transfer f / ElemSize.accessBytes f.size ∧
      (∀ j < k, Form.admitted f s j) ∧
      memAdmit s.cfg ((State.readR s f.rn).toNat + ElemSize.accessBytes f.size * k) (ElemSize.accessBytes f.size)
        s.privileged = .abort kind ∧
      r = .memoryAbort kind
        ((State.readR s f.rn + BitVec.ofNat 32 (ElemSize.accessBytes f.size * k)).setWidth 64) s.storeDescriptor
        (unknownBytes (Form.footprint f s) s)) := by
  simp only [vst1Transfer, raise] at h
  split at h
  · exact .inl ⟨by cases h; rfl, .inl ‹_›⟩
  split at h
  · exact .inl ⟨by cases h; rfl, .inr ‹_›⟩
  rename_i h1 h2
  have h2' : s.cfg.alignEnforced = true → (State.readR s f.rn).toNat % ElemSize.ebytes f.size = 0 :=
    fun he => by by_contra hne; exact h2 ⟨he, hne⟩
  split at h
  · exact .inr (.inl ⟨by cases h; rfl, ‹_›, by omega, h2'⟩)
  split at h
  · cases h
  rename_i h3 h4
  have hc : Form.Clear f s := ⟨by omega, h2', by omega, by simpa using h4⟩
  split at h
  · rename_i e he
    refine .inr (.inr ⟨hc, ?_⟩)
    obtain ⟨before, x, after, hsplit, hbefore, hx⟩ := storeAll_error he
    have hlen : (Form.stores f s).length = Form.transfer f / ElemSize.accessBytes f.size := by
      have := congrArg List.length (Form.stores_addresses f s)
      simpa using this
    have hat : ∀ j (hj : j < (Form.stores f s).length),
        (Form.stores f s)[j].addr = State.readR s f.rn + BitVec.ofNat 32 (ElemSize.accessBytes f.size * j) ∧
          (Form.stores f s)[j].width = ElemSize.accessBytes f.size := by
      intro j hj
      have hget := congrArg (fun l => l[j]?) (Form.stores_addresses f s)
      simp only [List.getElem?_map, List.getElem?_range (hlen ▸ hj), Option.map_some,
        List.getElem?_eq_getElem hj, Option.some.injEq, Prod.mk.injEq] at hget
      exact hget
    have hk : before.length < (Form.stores f s).length := by rw [hsplit]; simp
    have hxk : (Form.stores f s)[before.length] = x := by simp [hsplit]
    obtain ⟨hxa, hxw⟩ := hxk ▸ hat before.length hk
    have hk' : before.length < Form.transfer f / ElemSize.accessBytes f.size := hlen ▸ hk
    have htop := access_end_le f hk'
    have hnw := hc.noWrap
    have htn := access_toNat f s hc.noWrap hk'
    have hal : s.cfg.alignEnforced = true → x.addr.toNat % x.width = 0 := by
      intro he'
      have h4 := Nat.mod_eq_zero_of_dvd
        ((ElemSize.accessBytes_dvd f.size).trans (Nat.dvd_of_mod_eq_zero (h2' he')))
      rw [hxa, hxw, htn, Nat.add_mul_mod_self_left]
      exact h4
    obtain ⟨kind, rfl, hadm⟩ := memWrite_error hx hal (by rw [hxa, hxw, htn]; omega)
    refine ⟨kind, before.length, hk', fun j hj => ?_, ?_, ?_⟩
    · have hj' : j < (Form.stores f s).length := by omega
      refine (performed_iff hc (hlen ▸ hj') (hat j hj').1 (hat j hj').2).1 (hbefore _ ?_)
      have : (Form.stores f s)[j] = before[j] := by simp [hsplit, List.getElem_append_left hj]
      rw [this]
      exact List.getElem_mem _
    · rw [hxa, hxw, htn] at hadm; exact hadm
    · cases h
      simp only [storeFault, hxa]
  · cases h

/-- The transfer is refused only where the footprint meets the program (R53). -/
theorem vst1Transfer_refused_iff (f : Form) (s : State) (r : Refusal) :
    vst1Transfer f s = .refused r ↔
      r = .storeToText ∧ (State.readR s f.rn).toNat % Align.bytes f.align = 0 ∧
        (s.cfg.alignEnforced = true → (State.readR s f.rn).toNat % ElemSize.ebytes f.size = 0) ∧
        (State.readR s f.rn).toNat + Form.transfer f ≤ 2 ^ 32 ∧
        Region.meets s.cfg.text (State.readR s f.rn).toNat (Form.transfer f) = true := by
  simp only [vst1Transfer, raise]
  split
  · simp only [reduceCtorEq, false_iff]; rintro ⟨-, h, -⟩; exact absurd h ‹_›
  split
  · rename_i h; simp only [reduceCtorEq, false_iff]; rintro ⟨-, -, h', -⟩; exact h.2 (h' h.1)
  split
  · simp only [reduceCtorEq, false_iff]; rintro ⟨-, -, -, h, -⟩; omega
  rename_i h1 h2 h3
  have h2' : s.cfg.alignEnforced = true → (State.readR s f.rn).toNat % ElemSize.ebytes f.size = 0 :=
    fun he => by by_contra hne; exact h2 ⟨he, hne⟩
  split
  · rename_i h4
    simp only [Host.Outcome.refused.injEq]
    exact ⟨fun h => ⟨h.symm, by omega, h2', by omega, h4⟩, fun h => h.1.symm⟩
  · rename_i h4
    split <;> (simp only [reduceCtorEq, false_iff]; rintro ⟨-, -, -, -, h⟩; exact h4 h)

/-! ## The whole operation -/

/-- The Decode block's checks pass, Advanced SIMD is enabled, and every register that is read holds a value (items 1 to 6
of R77). -/
structure Form.Admissible (f : Form) (s : State) : Prop where
  condition : conditionPassed f.iset s = .ok true
  defined : Form.alignUndefined f = false
  base : f.rn ≠ 15
  list : f.dd.val + ListLen.regs f.len ≤ 32
  enabled : s.advSIMDAccess = .enabled
  written : ∀ x ∈ Form.reads f, s.written x = true

/-- The base register of an admissible instruction holds a value. -/
theorem Form.Admissible.baseWritten {f : Form} {s : State} (h : Form.Admissible f s) :
    s.written (.r f.rn) = true := ((Form.reads_written f s).1 h.written).1

/-- An admissible instruction is its transfer. -/
theorem vst1_of_admissible {f : Form} {s : State} (h : Form.Admissible f s) : vst1 f s = vst1Transfer f s := by
  have := h.list
  have hw := (State.firstUnwritten_eq_none s _).2 h.written
  simp only [vst1, h.condition, vst1Passed, h.defined, h.base, h.enabled, vst1Enabled, hw]
  rw [if_neg (by decide), if_neg (by simp), if_neg (by omega)]

/-- The state the UNKNOWN option of `cu_dregs` leaves (R81), before `pc` and `ITSTATE` advance. -/
def Form.disturbed (f : Form) (s : State) : State :=
  let t := unknownDRegs (Form.dregs f) (unknownBytes (Form.footprint f s) s)
  if Form.wback f then unknownR f.rn t else t

/-- How a VST1 can go on: the condition failed; the register list passed D31 and the configuration took the NOP or the
UNKNOWN option; or the transfer completed. -/
theorem vst1_next {f : Form} {s t : State} (h : vst1 f s = .next t) :
    (conditionPassed f.iset s = .ok false ∧ t = advance f.iset s) ∨
    (conditionPassed f.iset s = .ok true ∧ Form.alignUndefined f = false ∧ f.rn ≠ 15 ∧
      32 < f.dd.val + ListLen.regs f.len ∧
      ((s.cfg.cuDregs = .nop ∧ t = advance f.iset s) ∨
        (s.cfg.cuDregs = .unknown ∧ s.written (.r f.rn) = true ∧
          (∀ a ∈ Form.footprint f s, Region.contains s.cfg.text a = false) ∧
          t = advance f.iset (Form.disturbed f s)))) ∨
    (Form.Admissible f s ∧ vst1Transfer f s = .next t) := by
  simp only [vst1] at h
  split at h
  · cases h
  · cases h
  · exact .inl ⟨‹_›, by cases h; rfl⟩
  rename_i hcond
  simp only [vst1Passed, raise] at h
  split at h
  · cases h
  rename_i hun
  split at h
  · cases h
  rename_i hb
  split at h
  · rename_i hd
    refine .inr (.inl ⟨hcond, by simpa using hun, hb, hd, ?_⟩)
    simp only [vst1PastD31, raise] at h
    split at h
    · cases h
    · cases h
    · exact .inl ⟨‹_›, by cases h; rfl⟩
    · split at h
      · cases h
      split at h
      · cases h
      · rename_i hcu hw hany
        refine .inr ⟨hcu, by simpa using hw, ?_, by cases h; rfl⟩
        simpa using hany
  rename_i hd
  split at h
  · cases h
  · cases h
  · rename_i hen
    simp only [vst1Enabled, raise] at h
    split at h
    · cases h
    · rename_i hw
      exact .inr (.inr ⟨⟨hcond, by simpa using hun, hb, by omega, hen, (State.firstUnwritten_eq_none s _).1 hw⟩, h⟩)

/-- Which faults a VST1 raises, and when (R93, R126). -/
theorem vst1_fault {f : Form} {s : State} {r : Fault} (h : vst1 f s = .fault r) :
    (∃ x, r = .unwrittenRegister x ∧ conditionPassed f.iset s = .error (.unwritten x)) ∨
    (conditionPassed f.iset s = .ok true ∧
    ((r = .undefinedInstruction ∧ Form.alignUndefined f = true) ∨
     (Form.alignUndefined f = false ∧ r = .unpredictable .baseIsPC ∧ f.rn = 15) ∨
     (Form.alignUndefined f = false ∧ f.rn ≠ 15 ∧ 32 < f.dd.val + ListLen.regs f.len ∧
       ((r = .unpredictable .regListPastD31 ∧ s.cfg.cuDregs = .fault) ∨
        (r = .undefinedInstruction ∧ s.cfg.cuDregs = .undef) ∨
        (r = .unwrittenRegister (.r f.rn) ∧ s.cfg.cuDregs = .unknown ∧ s.written (.r f.rn) = false))) ∨
     (Form.alignUndefined f = false ∧ f.rn ≠ 15 ∧ f.dd.val + ListLen.regs f.len ≤ 32 ∧
       ((r = .undefinedInstruction ∧ s.advSIMDAccess = .undefined) ∨
        (r = .hypTrap ∧ s.advSIMDAccess = .hypTrap) ∨
        (s.advSIMDAccess = .enabled ∧
          ∃ x, r = .unwrittenRegister x ∧ s.firstUnwritten (Form.reads f) = some x))) ∨
     (Form.Admissible f s ∧ vst1Transfer f s = .fault r))) := by
  simp only [vst1] at h
  split at h
  · cases h
  · exact .inl ⟨_, by cases h; rfl, ‹_›⟩
  · cases h
  rename_i hcond
  refine .inr ⟨hcond, ?_⟩
  simp only [vst1Passed, raise] at h
  split at h
  · exact .inl ⟨by cases h; rfl, ‹_›⟩
  rename_i hun
  have hun' : Form.alignUndefined f = false := by simpa using hun
  split at h
  · exact .inr (.inl ⟨hun', by cases h; rfl, ‹_›⟩)
  rename_i hb
  split at h
  · rename_i hd
    refine .inr (.inr (.inl ⟨hun', hb, hd, ?_⟩))
    simp only [vst1PastD31, raise] at h
    split at h
    · exact .inl ⟨by cases h; rfl, ‹_›⟩
    · exact .inr (.inl ⟨by cases h; rfl, ‹_›⟩)
    · cases h
    · split at h
      · rename_i hcu hw
        exact .inr (.inr ⟨by cases h; rfl, hcu, by simpa using hw⟩)
      · split at h <;> cases h
  rename_i hd
  have hd' : f.dd.val + ListLen.regs f.len ≤ 32 := by omega
  split at h
  · exact .inr (.inr (.inr (.inl ⟨hun', hb, hd', .inl ⟨by cases h; rfl, ‹_›⟩⟩)))
  · exact .inr (.inr (.inr (.inl ⟨hun', hb, hd', .inr (.inl ⟨by cases h; rfl, ‹_›⟩)⟩)))
  · rename_i hen
    simp only [vst1Enabled, raise] at h
    split at h
    · exact .inr (.inr (.inr (.inl ⟨hun', hb, hd', .inr (.inr ⟨hen, _, by cases h; rfl, ‹_›⟩)⟩)))
    · rename_i hw
      exact .inr (.inr (.inr (.inr ⟨⟨hcond, hun', hb, hd', hen, (State.firstUnwritten_eq_none s _).1 hw⟩, h⟩)))

/-- Which refusals a VST1 can end in: a malformed `ITSTATE`, or a footprint that meets the program (R93). -/
theorem vst1_refused {f : Form} {s : State} {r : Refusal} (h : vst1 f s = .refused r) :
    (r = .badITSTATE ∧ conditionPassed f.iset s = .error .badITSTATE) ∨
    (r = .storeToText ∧ conditionPassed f.iset s = .ok true ∧ Form.alignUndefined f = false ∧ f.rn ≠ 15 ∧
      ((32 < f.dd.val + ListLen.regs f.len ∧ s.cfg.cuDregs = .unknown ∧ s.written (.r f.rn) = true ∧
          ∃ a ∈ Form.footprint f s, Region.contains s.cfg.text a = true) ∨
       (Form.Admissible f s ∧ vst1Transfer f s = .refused r))) := by
  simp only [vst1] at h
  split at h
  · exact .inl ⟨by cases h; rfl, ‹_›⟩
  · cases h
  · cases h
  rename_i hcond
  simp only [vst1Passed, raise] at h
  split at h
  · cases h
  rename_i hun
  split at h
  · cases h
  rename_i hb
  split at h
  · rename_i hd
    simp only [vst1PastD31, raise] at h
    split at h
    · cases h
    · cases h
    · cases h
    · split at h
      · cases h
      split at h
      · rename_i hcu hw hany
        refine .inr ⟨by cases h; rfl, hcond, by simpa using hun, hb, .inl ⟨hd, hcu, by simpa using hw, ?_⟩⟩
        simpa using hany
      · cases h
  rename_i hd
  split at h
  · cases h
  · cases h
  · rename_i hen
    simp only [vst1Enabled, raise] at h
    split at h
    · cases h
    · rename_i hw
      have hadm : Form.Admissible f s :=
        ⟨hcond, by simpa using hun, hb, by omega, hen, (State.firstUnwritten_eq_none s _).1 hw⟩
      exact .inr ⟨((vst1Transfer_refused_iff f s r).1 h).1, hcond, by simpa using hun, hb, .inr ⟨hadm, h⟩⟩

/-- The UNKNOWN option changes memory, the list's registers, the base register, their marks and the draw counter only
(R81). -/
theorem disturbed_frame (f : Form) (s : State) :
    Form.disturbed f s = { s with
      r := (Form.disturbed f s).r, d := (Form.disturbed f s).d, unwritten := (Form.disturbed f s).unwritten
      mem := (unknownBytes (Form.footprint f s) s).mem, draws := (Form.disturbed f s).draws } := by
  unfold Form.disturbed
  rw [unknownDRegs_frame, unknownBytes_frame]
  cases Form.wback f <;> rfl

/-- With a written base the UNKNOWN option changes the marks of the list's registers only: they hold values (R81). -/
theorem disturbed_unwritten (f : Form) (s : State) (h : s.written (.r f.rn) = true) :
    (Form.disturbed f s).unwritten = { s.unwritten with d := (Form.disturbed f s).unwritten.d } := by
  have hu : (unknownDRegs (Form.dregs f) (unknownBytes (Form.footprint f s) s)).unwritten = { s.unwritten with
      d := (unknownDRegs (Form.dregs f) (unknownBytes (Form.footprint f s) s)).unwritten.d } := by
    rw [unknownDRegs_frame, unknownBytes_frame]
  have hw : (unknownDRegs (Form.dregs f) (unknownBytes (Form.footprint f s) s)).written (.r f.rn) = true := by
    rw [written_unknownDRegs, State.written_congr (s := s) (by rw [unknownBytes_frame]), h, Bool.true_or]
  unfold Form.disturbed
  simp only
  split
  · rw [unknownR_unwritten_of_written _ _ hw]
    exact hu
  · exact hu

/-- The marks of the D registers under the UNKNOWN option: those of the list hold values, the others are as before. -/
theorem disturbed_written_d (f : Form) (s : State) (k : DReg) :
    (Form.disturbed f s).written (.d k) = (s.written (.d k) || decide (k ∈ Form.dregs f)) := by
  have hd : (Form.disturbed f s).written (.d k) =
      (unknownDRegs (Form.dregs f) (unknownBytes (Form.footprint f s) s)).written (.d k) := by
    unfold Form.disturbed
    simp only
    split <;> rfl
  rw [hd, written_unknownDRegs, State.written_congr (s := s) (by rw [unknownBytes_frame])]
  congr 1
  rw [Bool.eq_iff_iff]
  simp

/-- The UNKNOWN option leaves the general registers but the base, and the base too without writeback (R81). -/
theorem disturbed_readR_other (f : Form) (s : State) (k : RReg) (h : k ≠ f.rn ∨ f.rm = 15) :
    (Form.disturbed f s).readR k = s.readR k := by
  have hr : (unknownDRegs (Form.dregs f) (unknownBytes (Form.footprint f s) s)).r = s.r := by
    rw [unknownDRegs_frame, unknownBytes_frame]
  unfold Form.disturbed
  simp only
  split
  · rename_i hw
    rcases h with h | h
    · rw [readR_unknownR_other _ _ _ h]; exact State.readR_congr hr k
    · simp [Form.wback, h] at hw
  · exact State.readR_congr hr k

/-- With writeback the base register is UNKNOWN under the UNKNOWN option (R81). -/
theorem disturbed_readR_base (f : Form) (s : State) (h : f.rm ≠ 15) :
    ∃ m, (Form.disturbed f s).readR f.rn = Config.unknownWord m := by
  unfold Form.disturbed
  simp only
  rw [if_pos (by simpa [Form.wback] using h)]
  exact ⟨_, State.readR_writeR_self _ _ _⟩

/-- The D registers under the UNKNOWN option: those of the list hold free values, the others are as before (R81). -/
theorem disturbed_readD (f : Form) (s : State) (k : DReg) :
    (k ∈ Form.dregs f → ∃ m, (Form.disturbed f s).readD k = Config.unknownDWord m) ∧
      (k ∉ Form.dregs f → (Form.disturbed f s).readD k = s.readD k) := by
  have hd : (Form.disturbed f s).readD k =
      (unknownDRegs (Form.dregs f) (unknownBytes (Form.footprint f s) s)).readD k := by
    unfold Form.disturbed
    simp only
    split <;> rfl
  rw [hd]
  refine ⟨readD_unknownDRegs_listed _ _ k, fun h => ?_⟩
  rw [readD_unknownDRegs_other _ _ _ h, unknownBytes_frame]
  rfl

end Sys2Proof.Machine
end

