-- ==== Sys2Proof/Tests/Slice0.lean ====
section
/-! SUPPORT. Tests: the decode and execution vectors of 95_test_vectors.md, one step each, and for every statement with
hypotheses a state and operands that meet them. Every expected word, byte and outcome is taken from spec/. -/

namespace Sys2Proof.Tests

open Sys2Proof.Machine Sys2Proof.Claims

/-! ## Helpers -/

/-- The next state of an outcome. -/
def nextOf : Host.Outcome State Fault Refusal → Option State
  | .next t => some t
  | .fault _ => none
  | .refused _ => none

/-- The fault of an outcome. -/
def faultOf : Host.Outcome State Fault Refusal → Option Fault
  | .next _ => none
  | .fault r => some r
  | .refused _ => none

/-- The kind, the address and the registers left by a memory abort. -/
def memoryAbortOf : Host.Outcome State Fault Refusal → Option (AbortKind × DWord × Bool)
  | .next _ => none
  | .fault (.memoryAbort kind a desc _) => some (kind, a, desc.privileged)
  | .fault _ => none
  | .refused _ => none

/-- The refusal of an outcome. -/
def refusalOf : Host.Outcome State Fault Refusal → Option Refusal
  | .next _ => none
  | .fault _ => none
  | .refused r => some r

theorem next_of {o : Host.Outcome State Fault Refusal} (h : (nextOf o).isSome = true) : ∃ t, o = .next t := by
  cases o with
  | next t => exact ⟨t, rfl⟩
  | fault _ => cases h
  | refused _ => cases h

theorem refused_of {o : Host.Outcome State Fault Refusal} {r : Refusal} (h : refusalOf o = some r) : o = .refused r := by
  cases o with
  | next _ => cases h
  | fault _ => cases h
  | refused _ => cases h; rfl

theorem fault_of {o : Host.Outcome State Fault Refusal} {r : Fault} (h : faultOf o = some r) : o = .fault r := by
  cases o with
  | next _ => cases h
  | fault _ => cases h; rfl
  | refused _ => cases h

theorem memoryAbort_of {o : Host.Outcome State Fault Refusal} (h : (memoryAbortOf o).isSome = true) :
    ∃ kind a desc left, o = .fault (.memoryAbort kind a desc left) := by
  cases o with
  | next _ => cases h
  | fault r => cases r with
    | memoryAbort kind a desc left => exact ⟨kind, a, desc, left, rfl⟩
    | undefinedInstruction => cases h
    | hypTrap => cases h
    | alignmentAbort _ _ => cases h
    | unpredictable _ => cases h
    | unwrittenRegister _ => cases h
  | refused _ => cases h

/-- The bytes at `n` addresses from `a` on, after an outcome. -/
def bytesAfter (o : Host.Outcome State Fault Refusal) (a n : Nat) : Option (List (Option Byte)) :=
  (nextOf o).map fun t => (List.range n).map fun j => t.byte (a + j)

/-- The value of `R[k]`, `pc` and `ITSTATE` after an outcome. -/
def regsAfter (o : Host.Outcome State Fault Refusal) (k : RReg) : Option (Word × Word × BitVec 8) :=
  (nextOf o).map fun t => (t.readR k, t.pc, t.itstate)

/-- The launch state of the vectors' head: `pc = 0x8000`, EL1, with `cu_dregs = fault`, one base register and `D0`,
`D1`. -/
def launch (k : RReg) (base : Word) : State :=
  let s := (State.reset.writeR k base).writeD 0 0x8877665544332211#64
  { s with cfg := { s.cfg with cuDregs := .fault } }

/-- The same with another setting of `cu_dregs`. -/
def launchCu (cu : CuDregs) (base : Word) : State :=
  let s := launch 0 base
  { s with cfg := { s.cfg with cuDregs := cu } }

/-- The same in T32 with the given `ITSTATE` and `Z`. -/
def launchT (base : Word) (it : BitVec 8) (z : Bool) : State :=
  { launch 0 base with iset := .t32, itstate := it, z := z }

/-- Every register and flag `unwritten`. -/
def blank : Unwritten := ⟨Vector.replicate 16 true, Vector.replicate 32 true, true, true, true, true⟩

/-- The head's launch state in full: the registers not listed are `unwritten`. -/
def sparse (base : Word) : State :=
  ({ launch 0 base with unwritten := blank }.writeR 0 base).writeD 0 0x8877665544332211#64

/-- V52: memory allocated at [0x2000, 0x2008) only. -/
def island (base : Word) : State :=
  let s := launch 0 base
  { s with cfg := { s.cfg with regions := [⟨0x2000, 8⟩] } }

/-- V67: unprivileged stores to 0x2000 up to 0x3000 abort with Permission. -/
def guarded (el : EL) (base : Word) : State :=
  let s := launch 0 base
  { s with el := el, cfg := { s.cfg with
      rules := [⟨⟨0x2000, 0x1000⟩, .touches, true, true, true, false, true, .permission⟩] } }

/-- Advanced SIMD as given at every Exception level. -/
def access (x : AdvSIMDAccess) (base : Word) : State :=
  let s := launch 0 base
  { s with cfg := { s.cfg with access := ⟨x, x, x, x⟩ } }

/-! ## WellFormed: the index register cannot be R13 or R15 (30_encoding.md R74) -/

theorem test_postr_r13_ill_formed : (Instr.vst1A1Postr 0 0 .b8 .omitted 13).wellFormed = false := by decide

theorem test_postr_r15_ill_formed : (Instr.vst1T4Postr 0 0 .b8 .omitted 15).wellFormed = false := by decide

/-- An ill-formed term's word is another variant's: decoding it does not give the term back. -/
theorem test_ill_formed_not_decoded :
    decode .a32 (encode (.vst1A1Postr 0 0 .b8 .omitted 13)) = .ok (.vst1A1Posti 0 0 .b8 .omitted) := by decide

theorem test_posti_word_differs : encode (.vst1A1Posti 0 0 .b8 .omitted) ≠ encode (.vst1A1Nowb 0 0 .b8 .omitted) := by
  decide

/-! ## Decoding: the 24 words of V6, one per constructor, with their bytes in memory -/

theorem test_decode_vst1A1Nowb :
    decode .a32 0xF400070F#32 = .ok (.vst1A1Nowb 0 0 .b8 .omitted) ∧
      encodeBytes (.vst1A1Nowb 0 0 .b8 .omitted) = [0x0F#8, 0x07#8, 0x00#8, 0xF4#8] ∧
      decodeTableWord 32 0xF400070F = some (.vst1A1Nowb 0 0 .b8 .omitted) := by decide

theorem test_decode_vst1A1Posti :
    decode .a32 0xF401575D#32 = .ok (.vst1A1Posti 5 1 .b16 .a64) ∧
      encodeBytes (.vst1A1Posti 5 1 .b16 .a64) = [0x5D#8, 0x57#8, 0x01#8, 0xF4#8] ∧
      decodeTableWord 32 0xF401575D = some (.vst1A1Posti 5 1 .b16 .a64) := by decide

theorem test_decode_vst1A1Postr :
    decode .a32 0xF4421783#32 = .ok (.vst1A1Postr 17 2 .b32 .omitted 3) ∧
      encodeBytes (.vst1A1Postr 17 2 .b32 .omitted 3) = [0x83#8, 0x17#8, 0x42#8, 0xF4#8] ∧
      decodeTableWord 32 0xF4421783 = some (.vst1A1Postr 17 2 .b32 .omitted 3) := by decide

theorem test_decode_vst1A2Nowb :
    decode .a32 0xF4400A8F#32 = .ok (.vst1A2Nowb 16 0 .b32 .omitted) ∧
      encodeBytes (.vst1A2Nowb 16 0 .b32 .omitted) = [0x8F#8, 0x0A#8, 0x40#8, 0xF4#8] ∧
      decodeTableWord 32 0xF4400A8F = some (.vst1A2Nowb 16 0 .b32 .omitted) := by decide

theorem test_decode_vst1A2Posti :
    decode .a32 0xF4042AED#32 = .ok (.vst1A2Posti 2 4 .b64 .a128) ∧
      encodeBytes (.vst1A2Posti 2 4 .b64 .a128) = [0xED#8, 0x2A#8, 0x04#8, 0xF4#8] ∧
      decodeTableWord 32 0xF4042AED = some (.vst1A2Posti 2 4 .b64 .a128) := by decide

theorem test_decode_vst1A2Postr :
    decode .a32 0xF44DEA05#32 = .ok (.vst1A2Postr 30 13 .b8 .omitted 5) ∧
      encodeBytes (.vst1A2Postr 30 13 .b8 .omitted 5) = [0x05#8, 0xEA#8, 0x4D#8, 0xF4#8] ∧
      decodeTableWord 32 0xF44DEA05 = some (.vst1A2Postr 30 13 .b8 .omitted 5) := by decide

theorem test_decode_vst1A3Nowb :
    decode .a32 0xF406865F#32 = .ok (.vst1A3Nowb 8 6 .b16 .a64) ∧
      encodeBytes (.vst1A3Nowb 8 6 .b16 .a64) = [0x5F#8, 0x86#8, 0x06#8, 0xF4#8] ∧
      decodeTableWord 32 0xF406865F = some (.vst1A3Nowb 8 6 .b16 .a64) := by decide

theorem test_decode_vst1A3Posti :
    decode .a32 0xF407068D#32 = .ok (.vst1A3Posti 0 7 .b32 .omitted) ∧
      encodeBytes (.vst1A3Posti 0 7 .b32 .omitted) = [0x8D#8, 0x06#8, 0x07#8, 0xF4#8] ∧
      decodeTableWord 32 0xF407068D = some (.vst1A3Posti 0 7 .b32 .omitted) := by decide

theorem test_decode_vst1A3Postr :
    decode .a32 0xF448D6C8#32 = .ok (.vst1A3Postr 29 8 .b64 .omitted 8) ∧
      encodeBytes (.vst1A3Postr 29 8 .b64 .omitted 8) = [0xC8#8, 0xD6#8, 0x48#8, 0xF4#8] ∧
      decodeTableWord 32 0xF448D6C8 = some (.vst1A3Postr 29 8 .b64 .omitted 8) := by decide

theorem test_decode_vst1A4Nowb :
    decode .a32 0xF409023F#32 = .ok (.vst1A4Nowb 0 9 .b8 .a256) ∧
      encodeBytes (.vst1A4Nowb 0 9 .b8 .a256) = [0x3F#8, 0x02#8, 0x09#8, 0xF4#8] ∧
      decodeTableWord 32 0xF409023F = some (.vst1A4Nowb 0 9 .b8 .a256) := by decide

theorem test_decode_vst1A4Posti :
    decode .a32 0xF44AC2ED#32 = .ok (.vst1A4Posti 28 10 .b64 .a128) ∧
      encodeBytes (.vst1A4Posti 28 10 .b64 .a128) = [0xED#8, 0xC2#8, 0x4A#8, 0xF4#8] ∧
      decodeTableWord 32 0xF44AC2ED = some (.vst1A4Posti 28 10 .b64 .a128) := by decide

theorem test_decode_vst1A4Postr :
    decode .a32 0xF40B425C#32 = .ok (.vst1A4Postr 4 11 .b16 .a64 12) ∧
      encodeBytes (.vst1A4Postr 4 11 .b16 .a64 12) = [0x5C#8, 0x42#8, 0x0B#8, 0xF4#8] ∧
      decodeTableWord 32 0xF40B425C = some (.vst1A4Postr 4 11 .b16 .a64 12) := by decide

theorem test_decode_vst1T1Nowb :
    decode .t32 0xF900070F#32 = .ok (.vst1T1Nowb 0 0 .b8 .omitted) ∧
      encodeBytes (.vst1T1Nowb 0 0 .b8 .omitted) = [0x00#8, 0xF9#8, 0x0F#8, 0x07#8] ∧
      decodeTableWord 32 0xF900070F = some (.vst1T1Nowb 0 0 .b8 .omitted) := by decide

theorem test_decode_vst1T1Posti :
    decode .t32 0xF94DF78D#32 = .ok (.vst1T1Posti 31 13 .b32 .omitted) ∧
      encodeBytes (.vst1T1Posti 31 13 .b32 .omitted) = [0x4D#8, 0xF9#8, 0x8D#8, 0xF7#8] ∧
      decodeTableWord 32 0xF94DF78D = some (.vst1T1Posti 31 13 .b32 .omitted) := by decide

theorem test_decode_vst1T1Postr :
    decode .t32 0xF90397D2#32 = .ok (.vst1T1Postr 9 3 .b64 .a64 2) ∧
      encodeBytes (.vst1T1Postr 9 3 .b64 .a64 2) = [0x03#8, 0xF9#8, 0xD2#8, 0x97#8] ∧
      decodeTableWord 32 0xF90397D2 = some (.vst1T1Postr 9 3 .b64 .a64 2) := by decide

theorem test_decode_vst1T2Nowb :
    decode .t32 0xF901EA6F#32 = .ok (.vst1T2Nowb 14 1 .b16 .a128) ∧
      encodeBytes (.vst1T2Nowb 14 1 .b16 .a128) = [0x01#8, 0xF9#8, 0x6F#8, 0xEA#8] ∧
      decodeTableWord 32 0xF901EA6F = some (.vst1T2Nowb 14 1 .b16 .a128) := by decide

theorem test_decode_vst1T2Posti :
    decode .t32 0xF9020A0D#32 = .ok (.vst1T2Posti 0 2 .b8 .omitted) ∧
      encodeBytes (.vst1T2Posti 0 2 .b8 .omitted) = [0x02#8, 0xF9#8, 0x0D#8, 0x0A#8] ∧
      decodeTableWord 32 0xF9020A0D = some (.vst1T2Posti 0 2 .b8 .omitted) := by decide

theorem test_decode_vst1T2Postr :
    decode .t32 0xF9454A90#32 = .ok (.vst1T2Postr 20 5 .b32 .a64 0) ∧
      encodeBytes (.vst1T2Postr 20 5 .b32 .a64 0) = [0x45#8, 0xF9#8, 0x90#8, 0x4A#8] ∧
      decodeTableWord 32 0xF9454A90 = some (.vst1T2Postr 20 5 .b32 .a64 0) := by decide

theorem test_decode_vst1T3Nowb :
    decode .t32 0xF90C16CF#32 = .ok (.vst1T3Nowb 1 12 .b64 .omitted) ∧
      encodeBytes (.vst1T3Nowb 1 12 .b64 .omitted) = [0x0C#8, 0xF9#8, 0xCF#8, 0x16#8] ∧
      decodeTableWord 32 0xF90C16CF = some (.vst1T3Nowb 1 12 .b64 .omitted) := by decide

theorem test_decode_vst1T3Posti :
    decode .t32 0xF94E565D#32 = .ok (.vst1T3Posti 21 14 .b16 .a64) ∧
      encodeBytes (.vst1T3Posti 21 14 .b16 .a64) = [0x4E#8, 0xF9#8, 0x5D#8, 0x56#8] ∧
      decodeTableWord 32 0xF94E565D = some (.vst1T3Posti 21 14 .b16 .a64) := by decide

theorem test_decode_vst1T3Postr :
    decode .t32 0xF904A60E#32 = .ok (.vst1T3Postr 10 4 .b8 .omitted 14) ∧
      encodeBytes (.vst1T3Postr 10 4 .b8 .omitted 14) = [0x04#8, 0xF9#8, 0x0E#8, 0xA6#8] ∧
      decodeTableWord 32 0xF904A60E = some (.vst1T3Postr 10 4 .b8 .omitted 14) := by decide

theorem test_decode_vst1T4Nowb :
    decode .t32 0xF903C28F#32 = .ok (.vst1T4Nowb 12 3 .b32 .omitted) ∧
      encodeBytes (.vst1T4Nowb 12 3 .b32 .omitted) = [0x03#8, 0xF9#8, 0x8F#8, 0xC2#8] ∧
      decodeTableWord 32 0xF903C28F = some (.vst1T4Nowb 12 3 .b32 .omitted) := by decide

theorem test_decode_vst1T4Posti :
    decode .t32 0xF900027D#32 = .ok (.vst1T4Posti 0 0 .b16 .a256) ∧
      encodeBytes (.vst1T4Posti 0 0 .b16 .a256) = [0x00#8, 0xF9#8, 0x7D#8, 0x02#8] ∧
      decodeTableWord 32 0xF900027D = some (.vst1T4Posti 0 0 .b16 .a256) := by decide

theorem test_decode_vst1T4Postr :
    decode .t32 0xF94682E7#32 = .ok (.vst1T4Postr 24 6 .b64 .a128 7) ∧
      encodeBytes (.vst1T4Postr 24 6 .b64 .a128 7) = [0x46#8, 0xF9#8, 0xE7#8, 0x82#8] ∧
      decodeTableWord 32 0xF94682E7 = some (.vst1T4Postr 24 6 .b64 .a128 7) := by decide

/-- V7: words of A32 that are no VST1, one for each field that can refuse. -/
theorem test_refused_words_a32 :
    ([0xF420070F, 0xF410070F, 0xF400000F, 0xF400030F, 0xF400080F, 0xF4000B0F, 0xF4000F0F, 0xF480070F, 0xE400070F,
      0xF900070F] : List Word).all (fun w => decide (decode .a32 w = .error .notThisInstruction)) = true := by decide

/-- V7: words of T32 that are no VST1. -/
theorem test_refused_words_t32 :
    ([0xF400070F, 0xF920070F, 0xF900040F, 0xF980070F, 0xE900070F] : List Word).all
      (fun w => decide (decode .t32 w = .error .notThisInstruction)) = true := by decide

/-- Fewer than four bytes are no instruction. -/
theorem test_three_bytes : decodeBytes .a32 [0x0F#8, 0x07#8, 0x00#8] = .error .tooFewBytes := by decide

/-! ## The fetch and the step -/

/-- V57's word placed after reset runs in the next step; its base register is 0. -/
theorem test_step_t32 :
    regsAfter (step (State.reset.withFetchWord 32 0xF900070D)) 0 = some (8#32, 0x8004#32, 0x00#8) := by decide

theorem test_step_a32 :
    regsAfter (step (State.reset.withFetchWord 32 0xF400070D)) 0 = some (8#32, 0x8004#32, 0x00#8) := by decide

/-- 30_encoding.md R68: a word that is no VST1 is refused as not in scope. -/
theorem test_step_not_in_scope :
    refusalOf (step (State.reset.withFetchWord 32 0xF420070F)) = some .notInScope := by decide

/-- 20_memory.md R51: a misaligned pc is refused. -/
theorem test_step_bad_pc : refusalOf (step { State.reset with pc := 0x8002#32 }) = some .badPC := by decide

/-- The memory of the reset state is allocated and reads 0, which is no VST1. -/
theorem test_step_nothing_loaded : refusalOf (step State.reset) = some .notInScope := by decide

/-- 70_reset_and_hazards.md R141, premise 2: the program's bytes must be allocated. -/
theorem test_step_unallocated_text : refusalOf (step (island 0x2000#32)) = some .textUnallocated := by decide

/-- 70_reset_and_hazards.md R144: `end_pc` is aligned as `pc` must be. -/
theorem test_end_pc_aligned :
    State.reset.endPcAligned = true ∧
    State.endPcAligned { State.reset with cfg := { State.reset.cfg with endPc := 0x8102#32 } } = false ∧
    State.endPcAligned { State.reset with iset := .t32, cfg := { State.reset.cfg with endPc := 0x8102#32 } } = true := by
  decide

/-! ## Execution vectors of 95_test_vectors.md -/

/-- V9, V13, V14, V15: one register, by element size and byte order. -/
theorem test_element_size_and_byte_order :
    bytesAfter (exec (.vst1A1Nowb 0 0 .b16 .omitted) (launch 0 0x2000#32)) 0x2000 8 =
      some [some 0x11#8, some 0x22#8, some 0x33#8, some 0x44#8, some 0x55#8, some 0x66#8, some 0x77#8, some 0x88#8] ∧
    bytesAfter (exec (.vst1A1Nowb 0 0 .b16 .omitted) { launch 0 0x2000#32 with bigendian := true }) 0x2000 8 =
      some [some 0x22#8, some 0x11#8, some 0x44#8, some 0x33#8, some 0x66#8, some 0x55#8, some 0x88#8, some 0x77#8] ∧
    bytesAfter (exec (.vst1A1Nowb 0 0 .b32 .omitted) { launch 0 0x2000#32 with bigendian := true }) 0x2000 8 =
      some [some 0x44#8, some 0x33#8, some 0x22#8, some 0x11#8, some 0x88#8, some 0x77#8, some 0x66#8, some 0x55#8] ∧
    bytesAfter (exec (.vst1A1Nowb 0 0 .b64 .omitted) { launch 0 0x2000#32 with bigendian := true }) 0x2000 8 =
      some [some 0x88#8, some 0x77#8, some 0x66#8, some 0x55#8, some 0x44#8, some 0x33#8, some 0x22#8, some 0x11#8] := by
  decide

/-- V16: two registers, big-endian halfwords. -/
theorem test_v16 :
    bytesAfter (exec (.vst1A2Nowb 6 3 .b16 .omitted)
      { ((launch 3 0x3000#32).writeD 6 0x0706050403020100#64).writeD 7 0x1716151413121110#64 with bigendian := true })
        0x3000 16 =
      some ([0x01, 0x00, 0x03, 0x02, 0x05, 0x04, 0x07, 0x06, 0x11, 0x10, 0x13, 0x12, 0x15, 0x14, 0x17, 0x16].map
        fun b => some (BitVec.ofNat 8 b)) := by decide

/-- V18, V22, V23: the two alignment checks; a misaligned store that is not enforced writes its bytes and no other. -/
theorem test_alignment :
    let s := launch 0 0x2001#32
    faultOf (exec (.vst1A1Nowb 0 0 .b8 .a64) (launch 0 0x2004#32)) =
      some (.alignmentAbort 0x2004#64 ⟨.store, false, false, true⟩) ∧
    bytesAfter (exec (.vst1A1Nowb 0 0 .b32 .omitted) s) 0x2000 10 =
      some [some 0x00#8, some 0x11#8, some 0x22#8, some 0x33#8, some 0x44#8, some 0x55#8, some 0x66#8, some 0x77#8, some 0x88#8,
        some 0x00#8] ∧
    faultOf (exec (.vst1A1Nowb 0 0 .b32 .omitted) { s with cfg := { s.cfg with alignEnforced := true } }) =
      some (.alignmentAbort 0x2001#64 ⟨.store, false, false, true⟩) := by decide

/-- V56: one byte past the top. -/
theorem test_v56 :
    faultOf (exec (.vst1A4Nowb 0 0 .b8 .omitted) (launch 0 0xFFFFFFE1#32)) = some (.unpredictable .addressWrap) := by
  decide

/-- 40_vst1_operation.md R91: writeback wraps to 0 where the footprint ends at the top. -/
theorem test_top_writeback :
    regsAfter (exec (.vst1A1Posti 0 0 .b8 .omitted) (launch 0 0xFFFFFFF8#32)) 0 = some (0#32, 0x8004#32, 0x00#8) := by
  decide

/-- V58, V59, V63, V64: EQ passes and NE fails with Z set, GE fails with N and not V, LE passes with Z. -/
theorem test_conditions :
    regsAfter (exec (.vst1T1Posti 0 0 .b8 .omitted) (launchT 0x2000#32 0x0C#8 true)) 0 =
      some (0x2008#32, 0x8004#32, 0x18#8) ∧
    regsAfter (exec (.vst1T1Posti 0 0 .b8 .omitted) (launchT 0x2000#32 0x18#8 true)) 0 =
      some (0x2000#32, 0x8004#32, 0x00#8) ∧
    regsAfter (exec (.vst1T1Posti 0 0 .b8 .omitted) { launchT 0x2000#32 0xA8#8 false with n := true }) 0 =
      some (0x2000#32, 0x8004#32, 0x00#8) ∧
    regsAfter (exec (.vst1T1Posti 0 0 .b8 .omitted) (launchT 0x2000#32 0xD4#8 true)) 0 =
      some (0x2008#32, 0x8004#32, 0xC8#8) := by decide

/-- V60, V61: a failed condition hides the UNDEFINED align and the UNPREDICTABLE base; a passed one reports the first. -/
theorem test_v60_v61 :
    regsAfter (exec (.vst1T1Nowb 0 15 .b8 .a128) (launchT 0x2000#32 0x18#8 true)) 0 =
      some (0x2000#32, 0x8004#32, 0x00#8) ∧
    faultOf (exec (.vst1T1Nowb 0 15 .b8 .a128) (launchT 0x2000#32 0x08#8 true)) = some .undefinedInstruction := by decide

/-- V65 -/
theorem test_v65 :
    refusalOf (exec (.vst1T1Posti 0 0 .b8 .omitted) (launchT 0x2000#32 0x30#8 false)) = some .badITSTATE := by decide

/-- V66: the four advances of a block of four. -/
theorem test_v66 :
    advanceIT 0x07#8 = 0x0E#8 ∧ advanceIT 0x0E#8 = 0x1C#8 ∧ advanceIT 0x1C#8 = 0x18#8 ∧ advanceIT 0x18#8 = 0x00#8 := by
  decide

/-- V67, with two registers: the same store, unprivileged and privileged. -/
theorem test_v67 :
    memoryAbortOf (exec (.vst1A2Nowb 0 0 .b8 .omitted) (guarded .el0 0x2000#32)) =
      some (.permission, 0x2000#64, false) ∧
    (nextOf (exec (.vst1A2Nowb 0 0 .b8 .omitted) (guarded .el1 0x2000#32))).isSome = true := by decide

/-- 40_vst1_operation.md R88, R91: writeback by a negative index, and by the base itself. -/
theorem test_index_writeback :
    regsAfter (exec (.vst1A1Postr 0 0 .b8 .omitted 3) ((launch 0 0x2000#32).writeR 3 0xFFFFFFF0#32)) 0 =
      some (0x1FF0#32, 0x8004#32, 0x00#8) ∧
    regsAfter (exec (.vst1A1Postr 0 2 .b8 .omitted 2) (launch 2 0x2000#32)) 2 =
      some (0x4000#32, 0x8004#32, 0x00#8) := by decide

/-- V7: words that decode to a stop, by align, base register and register list. -/
theorem test_v7_faults :
    faultOf (exec (.vst1A3Nowb 0 0 .b8 .a128) (launch 0 0x2000#32)) = some .undefinedInstruction ∧
    faultOf (exec (.vst1A4Nowb 0 15 .b8 .omitted) (launch 0 0x2000#32)) = some (.unpredictable .baseIsPC) ∧
    faultOf (exec (.vst1A2Nowb 31 0 .b8 .omitted) (launch 0 0x2000#32)) = some (.unpredictable .regListPastD31) := by
  decide

/-- 20_memory.md R53: a store into the program is refused. -/
theorem test_store_to_text :
    refusalOf (exec (.vst1A4Posti 0 0 .b8 .omitted) (launch 0 0x7FE1#32)) = some .storeToText := by decide

/-- Every constructor has a next state on the words of V6, placed after reset and run by one step. -/
theorem test_every_constructor_steps :
    ([0xF400070F, 0xF401575D, 0xF4421783, 0xF4400A8F, 0xF4042AED, 0xF44DEA05, 0xF406865F, 0xF407068D,
      0xF448D6C8, 0xF409023F, 0xF44AC2ED, 0xF40B425C, 0xF900070F, 0xF94DF78D, 0xF90397D2, 0xF901EA6F,
      0xF9020A0D, 0xF9454A90, 0xF90C16CF, 0xF94E565D, 0xF904A60E, 0xF903C28F, 0xF900027D, 0xF94682E7] : List Nat).all
      (fun w => (nextOf (step (State.reset.withFetchWord 32 w))).isSome) = true := by decide
/-- V49, V50, V51: an unwritten register of the list, an unwritten index, and `R[13]` left unwritten by `Rm = 1101`. -/
theorem test_unwritten_registers :
    faultOf (exec (.vst1A2Nowb 4 0 .b8 .omitted) ((sparse 0x2000#32).writeD 4 0x8877665544332211#64)) =
      some (.unwrittenRegister (.d 5)) ∧
    faultOf (exec (.vst1A1Postr 0 0 .b8 .omitted 1) (sparse 0x2000#32)) = some (.unwrittenRegister (.r 1)) ∧
    regsAfter (exec (.vst1A1Posti 0 0 .b8 .omitted) (sparse 0x2000#32)) 0 = some (0x2008#32, 0x8004#32, 0x00#8) ∧
    faultOf (exec (.vst1A1Nowb 0 7 .b8 .omitted) (sparse 0x2000#32)) = some (.unwrittenRegister (.r 7)) := by decide

/-- 60_exceptions.md R126: the check stands after the enable check and before the alignment of the base. -/
theorem test_unwritten_order :
    faultOf (exec (.vst1A1Nowb 1 0 .b8 .a64) (sparse 0x2001#32)) = some (.unwrittenRegister (.d 1)) ∧
    faultOf (exec (.vst1A1Nowb 1 0 .b8 .a64) { access .hypTrap 0x2001#32 with unwritten := blank }) = some .hypTrap := by
  decide

/-- 10_state.md R31: a flag is read only where the condition consults it. -/
theorem test_unwritten_flags :
    let s := { sparse 0x2000#32 with iset := .t32 }
    regsAfter (exec (.vst1T1Posti 0 0 .b8 .omitted) s) 0 = some (0x2008#32, 0x8004#32, 0x00#8) ∧
    faultOf (exec (.vst1T1Posti 0 0 .b8 .omitted) { s with itstate := 0x08#8 }) = some (.unwrittenRegister .z) ∧
    faultOf (exec (.vst1T1Posti 0 0 .b8 .omitted)
      { s with itstate := 0xA8#8, unwritten := { s.unwritten with n := false } }) = some (.unwrittenRegister .v) ∧
    regsAfter (exec (.vst1T1Posti 0 0 .b8 .omitted) { s with itstate := 0xE8#8 }) 0 =
      some (0x2008#32, 0x8004#32, 0x00#8) := by decide

/-- 40_vst1_operation.md R81: under UNKNOWN the base register must be written. -/
theorem test_unwritten_past_d31 :
    let s := launchCu .unknown 0x2000#32
    faultOf (exec (.vst1A2Nowb 31 0 .b8 .omitted) { s with unwritten := blank }) = some (.unwrittenRegister (.r 0)) ∧
    (nextOf (exec (.vst1A2Nowb 31 0 .b8 .omitted) s)).isSome = true := by decide

/-- V52: the address of the first access that touches an address with no byte. -/
theorem test_v52 :
    memoryAbortOf (exec (.vst1A2Nowb 0 0 .b32 .omitted) (island 0x2000#32)) = some (.unallocated, 0x2008#64, true) ∧
    (island 0x2000#32).byte 0x2007 = some 0x00#8 ∧ (island 0x2000#32).byte 0x2008 = none := by decide

/-! ## The hypotheses of the statements can be met -/

/-- The base address whose `8*n` bytes end at the top of memory; alignment enforced. -/
def top (n : Nat) : State :=
  let s := launch 0 (0#32 - BitVec.ofNat 32 (8 * n))
  { s with cfg := { s.cfg with alignEnforced := true } }

/-- The same inside an IT block of two instructions whose condition EQ passes. -/
def topT (n : Nat) : State := { top n with iset := .t32, itstate := 0x0C#8, z := true }

/-- A state whose next step runs the word, at EL1. -/
def loaded (w : Nat) : State := State.reset.withFetchWord 32 w

/-- V67's word at EL0, its store aborted. -/
def loadedGuarded : State :=
  let s := (loaded 0xF400070F).writeR 0 0x2000#32
  { s with el := .el0, cfg := { s.cfg with
      rules := [⟨⟨0x2000, 0x1000⟩, .touches, true, true, true, false, true, .permission⟩] } }

theorem witness_DecodeOfEncodeIsTheInstruction :
    (Instr.vst1A4Postr 31 15 .b64 .a256 14).wellFormed = true ∧ (Instr.vst1T1Postr 0 0 .b8 .omitted 12).wellFormed = true ∧
      (Instr.vst1T3Nowb 31 15 .b16 .a64).wellFormed = true := by decide

theorem witness_EncodeOfDecodeIsTheWord :
    decode .a32 0xF44FF2FE#32 = .ok (.vst1A4Postr 31 15 .b64 .a256 14) ∧
      decode .t32 0xF900070F#32 = .ok (.vst1T1Nowb 0 0 .b8 .omitted) := by decide

theorem witness_DecoderReadsTheFields :
    decode .t32 0xF94682E7#32 = .ok (.vst1T4Postr 24 6 .b64 .a128 7) ∧
      decode .t32 0xF98682E7#32 = .error .notThisInstruction ∧ decode .t32 0xF95682E7#32 = .error .notThisInstruction ∧
      decode .t32 0xF94683E7#32 = .error .notThisInstruction := by decide

theorem witness_StepRunsA32Instruction :
    let s := loaded 0xF400070D
    s.iset = .a32 ∧ s.pc.toNat % 4 = 0 ∧ s.pc.toNat ≤ 0xFFFFFFFB ∧ Region.covers s.cfg.text s.pc.toNat 4 = true ∧
      byteAt s s.pc.toNat = some 0x0D#8 ∧ byteAt s (s.pc.toNat + 1) = some 0x07#8 ∧
      byteAt s (s.pc.toNat + 2) = some 0x00#8 ∧ byteAt s (s.pc.toNat + 3) = some 0xF4#8 ∧
      decode .a32 (0xF4#8 ++ 0x00#8 ++ 0x07#8 ++ 0x0D#8) = .ok (.vst1A1Posti 0 0 .b8 .omitted) := by decide

theorem witness_StepRunsT32Instruction :
    let s := loaded 0xF900070D
    s.iset = .t32 ∧ s.pc.toNat % 2 = 0 ∧ s.pc.toNat ≤ 0xFFFFFFFB ∧ Region.covers s.cfg.text s.pc.toNat 4 = true ∧
      byteAt s s.pc.toNat = some 0x00#8 ∧ byteAt s (s.pc.toNat + 1) = some 0xF9#8 ∧
      byteAt s (s.pc.toNat + 2) = some 0x0D#8 ∧ byteAt s (s.pc.toNat + 3) = some 0x07#8 ∧
      decode .t32 ((0xF9#8 ++ 0x00#8) ++ (0x07#8 ++ 0x0D#8)) = .ok (.vst1T1Posti 0 0 .b8 .omitted) := by decide

/-- Clauses of `StepRefusesBadPcAndForeignWords`: a word that decodes and one that does not, at a usable pc; the
highest pc and the lowest one above it. -/
theorem witness_StepRefusesBadPcAndForeignWords :
    (loaded 0xF400070D).pcUsable = true ∧
      (loaded 0xF400070D).readBytes 0x8000 4 = some [0x0D#8, 0x07#8, 0x00#8, 0xF4#8] ∧
      (loaded 0xF420070F).pcUsable = true ∧
      (loaded 0xF420070F).readBytes 0x8000 4 = some [0x0F#8, 0x07#8, 0x20#8, 0xF4#8] ∧
      refusalOf (step (loaded 0xF420070F)) = some .notInScope ∧
      ((island 0#32).pcUsable = true ∧ byteAt (island 0#32) 0x8003 = none ∧
        refusalOf (step (island 0#32)) = some .textUnallocated) ∧
      refusalOf (step { loaded 0xF900070D with pc := 0xFFFFFFFC#32 }) = some .badPC ∧
      refusalOf (step { loaded 0xF400070D with pc := 0x80FE#32 }) = some .badPC ∧
      (nextOf (step (State.withFetchWord { State.reset with pc := 0xFFFFFFF8#32 } 32 0xF400070D))).isSome = true := by
  decide

theorem witness_LoadedWordRunsNext : (Instr.vst1T4Postr 31 14 .b64 .a256 14).wellFormed = true := by decide

/-- V and Z `unwritten`. -/
def flagless (it : BitVec 8) : State :=
  let s := launchT 0x2000#32 it false
  { s with unwritten := { s.unwritten with v := true, z := true } }

theorem witness_ConditionPassedRule :
    (∀ c ∈ [0x07#8, 0x88#8, 0xA8#8, 0xC8#8, 0xF8#8], (launchT 0x2000#32 c false).itstate.extractLsb' 0 4 ≠ 0x0#4 ∧
      ∀ x ∈ consulted (condOf (launchT 0x2000#32 c false)), (launchT 0x2000#32 c false).written x = true) ∧
      ((flagless 0xC8#8).written .v = false ∧ consulted (condOf (flagless 0xC8#8)) = [.n] ++ .v :: [.z] ∧
        ∀ y ∈ [RegName.n], (flagless 0xC8#8).written y = true) ∧
      (launchT 0#32 0x00#8 false).itstate = 0x00#8 ∧
      ((0x10#8).extractLsb' 0 4 = 0x0#4 ∧ 0x10#8 ≠ 0x00#8) ∧
      conditionPassed .t32 (launchT 0x2000#32 0x18#8 true) = .ok false := by decide

theorem witness_PcAndItstateAdvance :
    (∃ t, exec (.vst1A1Nowb 0 0 .b8 .omitted) (top 1) = .next t) ∧
    (∃ t, exec (.vst1T1Nowb 0 0 .b8 .omitted) (topT 1) = .next t) ∧ (topT 1).itstate.extractLsb' 0 3 ≠ 0b000#3 ∧
    (∃ t, exec (.vst1T1Nowb 0 0 .b8 .omitted) (launchT 0x2000#32 0x18#8 true) = .next t) ∧
    (launchT 0x2000#32 0x18#8 true).itstate.extractLsb' 0 3 = 0b000#3 ∧
    (∃ kind a desc left,
      exec (.vst1A1Nowb 0 0 .b8 .omitted) (guarded .el0 0x2000#32) = .fault (.memoryAbort kind a desc left)) :=
  ⟨next_of (by decide), next_of (by decide), by decide, next_of (by decide), by decide, memoryAbort_of (by decide)⟩

/-- One to four registers that end at D31, at the highest base address their bytes admit, alignment enforced. -/
theorem runs_at_top :
    Runs 1 31 0 .b64 .a64 (top 1) ∧ Runs 2 30 0 .b64 .a128 (top 2) ∧ Runs 3 29 0 .b64 .a64 (top 3) ∧
      Runs 4 28 0 .b64 .a256 (top 4) :=
  ⟨⟨by decide, by decide, by decide, by decide, by decide,
      by decide, by decide, by decide, by decide, by decide⟩,
    ⟨by decide, by decide, by decide, by decide, by decide,
      by decide, by decide, by decide, by decide, by decide⟩,
    ⟨by decide, by decide, by decide, by decide, by decide,
      by decide, by decide, by decide, by decide, by decide⟩,
    ⟨by decide, by decide, by decide, by decide, by decide,
      by decide, by decide, by decide, by decide, by decide⟩⟩

/-- The same inside an IT block. -/
theorem runs_at_top_t32 :
    Runs 1 31 0 .b64 .a64 (topT 1) ∧ Runs 2 30 0 .b64 .a128 (topT 2) ∧ Runs 3 29 0 .b64 .a64 (topT 3) ∧
      Runs 4 28 0 .b64 .a256 (topT 4) :=
  ⟨⟨by decide, by decide, by decide, by decide, by decide,
      by decide, by decide, by decide, by decide, by decide⟩,
    ⟨by decide, by decide, by decide, by decide, by decide,
      by decide, by decide, by decide, by decide, by decide⟩,
    ⟨by decide, by decide, by decide, by decide, by decide,
      by decide, by decide, by decide, by decide, by decide⟩,
    ⟨by decide, by decide, by decide, by decide, by decide,
      by decide, by decide, by decide, by decide, by decide⟩⟩

/-- The lowest base address, the first register, 8-bit elements and no `<align>`. -/
theorem runs_at_zero : Runs 4 0 14 .b8 .omitted (launch 14 0#32) :=
  ⟨by decide, by decide, by decide, by decide, by decide,
      by decide, by decide, by decide, by decide, by decide⟩

theorem witness_A32NowbCompletes :
    (Align.a64 = .omitted ∨ Align.a64 = .a64) ∧ Align.a128 ≠ .a256 ∧ Runs 1 31 0 .b64 .a64 (top 1) ∧
      Runs 2 30 0 .b64 .a128 (top 2) ∧ Runs 3 29 0 .b64 .a64 (top 3) ∧ Runs 4 28 0 .b64 .a256 (top 4) :=
  ⟨.inr rfl, by decide, runs_at_top⟩

theorem witness_A32PostiCompletes :
    (Align.a64 = .omitted ∨ Align.a64 = .a64) ∧ Align.a128 ≠ .a256 ∧ Runs 1 31 0 .b64 .a64 (top 1) ∧
      Runs 2 30 0 .b64 .a128 (top 2) ∧ Runs 3 29 0 .b64 .a64 (top 3) ∧ Runs 4 28 0 .b64 .a256 (top 4) :=
  ⟨.inr rfl, by decide, runs_at_top⟩

theorem witness_A32PostrCompletes :
    ((14 : RReg) ≠ 13 ∧ (14 : RReg) ≠ 15 ∧ ∀ n ∈ [1, 2, 3, 4], (top n).written (.r 14) = true) ∧ (Align.a64 = .omitted ∨ Align.a64 = .a64) ∧ Align.a128 ≠ .a256 ∧
      Runs 1 31 0 .b64 .a64 (top 1) ∧ Runs 2 30 0 .b64 .a128 (top 2) ∧ Runs 3 29 0 .b64 .a64 (top 3) ∧
      Runs 4 28 0 .b64 .a256 (top 4) :=
  ⟨by decide, .inr rfl, by decide, runs_at_top⟩

theorem witness_T32NowbCompletes :
    (∀ n ∈ [1, 2, 3, 4], conditionPassed .t32 (topT n) = .ok true) ∧ (Align.a64 = .omitted ∨ Align.a64 = .a64) ∧ Align.a128 ≠ .a256 ∧
      Runs 1 31 0 .b64 .a64 (topT 1) ∧ Runs 2 30 0 .b64 .a128 (topT 2) ∧ Runs 3 29 0 .b64 .a64 (topT 3) ∧
      Runs 4 28 0 .b64 .a256 (topT 4) :=
  ⟨by decide, .inr rfl, by decide, runs_at_top_t32⟩

theorem witness_T32PostiCompletes :
    (∀ n ∈ [1, 2, 3, 4], conditionPassed .t32 (topT n) = .ok true) ∧ (Align.a64 = .omitted ∨ Align.a64 = .a64) ∧ Align.a128 ≠ .a256 ∧
      Runs 1 31 0 .b64 .a64 (topT 1) ∧ Runs 2 30 0 .b64 .a128 (topT 2) ∧ Runs 3 29 0 .b64 .a64 (topT 3) ∧
      Runs 4 28 0 .b64 .a256 (topT 4) :=
  ⟨by decide, .inr rfl, by decide, runs_at_top_t32⟩

theorem witness_T32PostrCompletes :
    ((12 : RReg) ≠ 13 ∧ (12 : RReg) ≠ 15 ∧ ∀ n ∈ [1, 2, 3, 4], (topT n).written (.r 12) = true) ∧ (∀ n ∈ [1, 2, 3, 4], conditionPassed .t32 (topT n) = .ok true) ∧
      (Align.a64 = .omitted ∨ Align.a64 = .a64) ∧ Align.a128 ≠ .a256 ∧ Runs 1 31 0 .b64 .a64 (topT 1) ∧
      Runs 2 30 0 .b64 .a128 (topT 2) ∧ Runs 3 29 0 .b64 .a64 (topT 3) ∧ Runs 4 28 0 .b64 .a256 (topT 4) :=
  ⟨by decide, by decide, .inr rfl, by decide, runs_at_top_t32⟩

/-- Little-endian and big-endian, the last register of a list of four. -/
theorem witness_MemoryImageClosedForm :
    CondPasses (.vst1A4Nowb 28 0 .b16 .a256) (top 4) ∧ (28 : DReg).val + regs (.vst1A4Nowb 28 0 .b16 .a256) ≤ 32 ∧
      (∃ t, exec (.vst1A4Nowb 28 0 .b16 .a256) (top 4) = .next t) ∧ (top 4).bigendian = false ∧
      (∃ t, exec (.vst1A4Nowb 28 0 .b16 .a256) { top 4 with bigendian := true } = .next t) ∧
      (7 = 3 * ElemSize.ebytes .b16 + 1 ∧ 1 < ElemSize.ebytes .b16) :=
  ⟨rfl, by decide, next_of (by decide), rfl, next_of (by decide), by decide⟩

theorem witness_StoredRegistersReadBack :
    CondPasses (.vst1A4Nowb 28 0 .b64 .a256) (top 4) ∧ (28 : DReg).val + regs (.vst1A4Nowb 28 0 .b64 .a256) ≤ 32 ∧
      (∃ t, exec (.vst1A4Nowb 28 0 .b64 .a256) { top 4 with bigendian := true } = .next t) ∧
      (∃ t, exec (.vst1A4Nowb 28 0 .b8 .a256) { top 4 with bigendian := true } = .next t) ∧
      (∃ t, exec (.vst1A4Nowb 28 0 .b64 .a256) (top 4) = .next t) :=
  ⟨rfl, by decide, next_of (by decide), next_of (by decide), next_of (by decide)⟩

theorem witness_WritebackRule :
    (CondPasses (.vst1T3Nowb 29 0 .b16 .a64) (topT 3) ∧ (∃ t, exec (.vst1T3Nowb 29 0 .b16 .a64) (topT 3) = .next t)) ∧
    (CondPasses (.vst1T3Posti 29 0 .b16 .a64) (topT 3) ∧
      (∃ t, exec (.vst1T3Posti 29 0 .b16 .a64) (topT 3) = .next t)) ∧
    (CondPasses (.vst1T3Postr 29 0 .b16 .a64 14) (topT 3) ∧
      (∃ t, exec (.vst1T3Postr 29 0 .b16 .a64 14) (topT 3) = .next t)) ∧
    (29 : DReg).val + regs (.vst1T3Nowb 29 0 .b16 .a64) ≤ 32 :=
  ⟨⟨rfl, next_of (by decide)⟩, ⟨rfl, next_of (by decide)⟩, ⟨rfl, next_of (by decide)⟩, by decide⟩

/-- A transfer, a failed condition, the NOP option and the UNKNOWN option. -/
theorem witness_FrameOfEveryVst1 :
    (∃ t, exec (.vst1A2Postr 30 0 .b32 .a64 14) (top 2) = .next t) ∧
    (∃ t, exec (.vst1T2Posti 30 0 .b32 .a64) (launchT 0x2000#32 0x18#8 true) = .next t) ∧
    (∃ t, exec (.vst1A2Posti 31 0 .b32 .a64) (launchCu .nop 0x2000#32) = .next t) ∧
    (∃ t, exec (.vst1A2Posti 31 0 .b32 .a64) (launchCu .unknown 0x2000#32) = .next t) ∧
    (32 < (31 : DReg).val + regs (.vst1A2Posti 31 0 .b32 .a64) ∧ (launchCu .unknown 0x2000#32).cfg.cuDregs = .unknown) :=
  ⟨next_of (by decide), next_of (by decide), next_of (by decide), next_of (by decide), by decide⟩

theorem witness_ElementSizeIrrelevantInLittleEndian :
    let f : Form := ⟨.a32, .four, 28, 0, .b16, .a256, 13⟩
    (top 4).bigendian = false ∧ f.dd.val + ListLen.regs f.len ≤ 32 ∧ (∃ t, exec f.toInstr (top 4) = .next t) ∧
      (∃ u, exec { f with size := .b64 }.toInstr (top 4) = .next u) :=
  ⟨rfl, by decide, next_of (by decide), next_of (by decide)⟩

theorem witness_A32AndT32HaveTheSameEffect :
    conditionPassed .t32 (topT 4) = .ok true ∧
      (nextOf (exec (.vst1T4Nowb 28 0 .b16 .a256) (topT 4))).isSome = true := by decide

theorem witness_StoredDataDoesNotSteer :
    (∃ t, exec (.vst1A2Posti 30 0 .b32 .a64) (top 2) = .next t) ∧
    (∃ t, exec (.vst1A2Posti 31 0 .b32 .a64) (launchCu .unknown 0x2000#32) = .next t) ∧
    (∃ kind a desc left,
      exec (.vst1A2Posti 0 0 .b64 .omitted) (guarded .el0 0x1FF4#32) = .fault (.memoryAbort kind a desc left)) ∧
    exec (.vst1A2Posti 0 0 .b64 .omitted) (launch 0 0xFFFFFFF1#32) = .fault (.unpredictable .addressWrap) ∧
    exec (.vst1T1Posti 0 0 .b8 .omitted) (launchT 0x2000#32 0x30#8 false) = .refused .badITSTATE ∧
    exec (.vst1A4Posti 0 0 .b8 .omitted) (launch 0 0x7FE1#32) = .refused .storeToText :=
  ⟨next_of (by decide), next_of (by decide), memoryAbort_of (by decide), fault_of (by decide), refused_of (by decide),
    refused_of (by decide)⟩

theorem witness_BaseAsIndexDoublesTheBase :
    let i := Instr.vst1A2Postr 30 0 .b32 .a64 0
    i.form.rm = i.form.rn ∧ i.form.rm ≠ 13 ∧ i.form.rm ≠ 15 ∧ CondPasses i (top 2) ∧ i.form.dd.val + regs i ≤ 32 ∧
      (∃ t, exec i (top 2) = .next t) :=
  ⟨rfl, by decide, by decide, rfl, by decide, next_of (by decide)⟩

theorem decodesClean_a1 (s : State) : DecodesClean (.vst1A1Posti 31 0 .b8 .omitted) s :=
  ⟨rfl, by simp [AlignUndefined, Instr.form], by decide, by decide⟩

/-- A footprint that ends at the top, and one that ends one byte further. -/
theorem witness_FootprintMayEndAtTheTop :
    let i := Instr.vst1A1Posti 31 0 .b8 .omitted
    let s := launch 0 0xFFFFFFF8#32
    (Attempts i s ∧ ¬ Misaligned i s ∧ (baseOf i s).toNat + 8 * regs i = 2 ^ 32 ∧ i.form.rm = 13 ∧
      (∀ j < 8 * regs i, Region.contains s.cfg.text ((baseOf i s).toNat + j) = false) ∧
      (∀ k < accesses i, verdictAt i s k = .ok) ∧ ∃ t, exec i s = .next t) ∧
    (Attempts i (launch 0 0xFFFFFFF9#32) ∧ ¬ Misaligned i (launch 0 0xFFFFFFF9#32) ∧
      2 ^ 32 < (baseOf i (launch 0 0xFFFFFFF9#32)).toNat + 8 * regs i) :=
  ⟨⟨⟨decodesClean_a1 _, rfl, by decide⟩, by unfold Misaligned; decide, by decide, rfl, by decide, by decide,
      next_of (by decide)⟩,
    ⟨decodesClean_a1 _, rfl, by decide⟩, by unfold Misaligned; decide, by decide⟩

/-- Every UNDEFINED value of `align` of every class; a class 4 instruction that the enable check makes UNDEFINED. -/
theorem witness_AlignFieldUndefined :
    CondPasses (.vst1A1Nowb 0 0 .b8 .a128) (top 1) ∧ AlignUndefined (.vst1A1Nowb 0 0 .b8 .a128) ∧
      AlignUndefined (.vst1A1Nowb 0 15 .b8 .a256) ∧ AlignUndefined (.vst1A2Nowb 31 0 .b8 .a256) ∧
      AlignUndefined (.vst1A3Nowb 0 0 .b8 .a128) ∧ AlignUndefined (.vst1A3Nowb 0 0 .b8 .a256) ∧
      (Instr.vst1A4Nowb 0 0 .b8 .a256).form.len = .four ∧
      faultOf (exec (.vst1A4Nowb 0 0 .b8 .a256) (access .undefined 0x2000#32)) = some .undefinedInstruction :=
  ⟨rfl, .inl rfl, .inr rfl, rfl, .inl rfl, .inr rfl, rfl, by decide⟩

theorem witness_BaseRegister15IsUnpredictable :
    let i := Instr.vst1A2Nowb 31 15 .b8 .a128
    CondPasses i (top 2) ∧ ¬ AlignUndefined i ∧ i.form.rn = 15 :=
  ⟨rfl, by simp [AlignUndefined, Instr.form], rfl⟩

/-- The first register number past the end, under each setting of `cu_dregs`, beside the program and meeting it. -/
theorem witness_RegisterListPastD31 :
    let i := Instr.vst1A4Posti 29 0 .b8 .omitted
    (∀ s, CondPasses i s) ∧ ¬ AlignUndefined i ∧ i.form.rn ≠ 15 ∧ i.form.dd.val + regs i = 33 ∧ i.form.rm ≠ 15 ∧
      (launchCu .fault 0#32).cfg.cuDregs = .fault ∧ (launchCu .undef 0#32).cfg.cuDregs = .undef ∧
      (launchCu .nop 0#32).cfg.cuDregs = .nop ∧ (launchCu .unknown 0#32).cfg.cuDregs = .unknown ∧
      State.written { launchCu .unknown 0#32 with unwritten := blank } (.r 0) = false ∧
      (launchCu .unknown 0x7FE1#32).written (.r 0) = true ∧ (launchCu .unknown 0x7FE0#32).written (.r 0) = true ∧
      (∃ j < 8 * regs i,
        Region.contains (launchCu .unknown 0x7FE1#32).cfg.text (footprintAt i (launchCu .unknown 0x7FE1#32) j) = true) ∧
      (∀ j < 8 * regs i,
        Region.contains (launchCu .unknown 0x7FE0#32).cfg.text (footprintAt i (launchCu .unknown 0x7FE0#32) j) = false) :=
  ⟨fun _ => rfl, by simp [AlignUndefined, Instr.form], by decide, by decide, by decide, rfl, rfl, rfl, rfl,
    by decide, by decide, by decide, ⟨31, by decide, by decide⟩, by decide⟩

theorem witness_EnableCheckComesBeforeTheAccess :
    let i := Instr.vst1A1Posti 31 0 .b8 .omitted
    DecodesClean i (access .undefined 0x2001#32) ∧ (access .undefined 0x2001#32).advSIMDAccess = .undefined ∧
      DecodesClean i (access .hypTrap 0x2001#32) ∧ (access .hypTrap 0x2001#32).advSIMDAccess = .hypTrap :=
  ⟨decodesClean_a1 _, rfl, decodesClean_a1 _, rfl⟩

/-- Each cause of `UndefinedInstructionCauses`, `HypTrapCause` and `UnpredictableCauses` happens. -/
theorem witness_causes :
    faultOf (exec (.vst1A2Nowb 0 0 .b8 .a256) (top 2)) = some .undefinedInstruction ∧
    faultOf (exec (.vst1A2Nowb 0 0 .b8 .a128) (access .undefined 0x2001#32)) = some .undefinedInstruction ∧
    faultOf (exec (.vst1A2Nowb 31 0 .b8 .a128) (launchCu .undef 0#32)) = some .undefinedInstruction ∧
    faultOf (exec (.vst1A2Nowb 0 0 .b8 .a128) (access .hypTrap 0x2001#32)) = some .hypTrap ∧
    faultOf (exec (.vst1A2Nowb 31 15 .b8 .a128) (launchCu .undef 0#32)) = some (.unpredictable .baseIsPC) ∧
    faultOf (exec (.vst1A2Nowb 31 0 .b8 .a128) (launchCu .fault 0#32)) = some (.unpredictable .regListPastD31) ∧
    faultOf (exec (.vst1A2Nowb 30 0 .b8 .omitted) (launch 0 0xFFFFFFF1#32)) = some (.unpredictable .addressWrap) := by
  decide

/-- The first access aborts, and only the last does. -/
theorem witness_MemoryAbortCausesAndEffect :
    memoryAbortOf (exec (.vst1A2Posti 0 0 .b64 .omitted) (guarded .el0 0x2000#32)) =
      some (.permission, 0x2000#64, false) ∧
    memoryAbortOf (exec (.vst1A2Posti 0 0 .b64 .omitted) (guarded .el0 0x1FF4#32)) =
      some (.permission, 0x2000#64, false) ∧
    (nextOf (exec (.vst1A2Posti 0 0 .b64 .omitted) (guarded .el0 0x1FF0#32))).isSome = true := by decide

/-- Both causes of StoreToText. -/
theorem witness_RefusalCauses :
    refusalOf (exec (.vst1A4Nowb 28 0 .b8 .omitted) (launch 0 0x80FF#32)) = some .storeToText ∧
    refusalOf (exec (.vst1A4Nowb 29 0 .b8 .omitted) (launchCu .unknown 0x7FE1#32)) = some .storeToText ∧
    (nextOf (exec (.vst1A4Nowb 28 0 .b8 .omitted) (launch 0 0x8100#32))).isSome = true := by decide

theorem witness_StepKeepsTheInvariant :
    ((loaded 0xF400070D).inv = true ∧ (loaded 0xF400070D).endPcAligned = true ∧ ∃ t, step (loaded 0xF400070D) = .next t) ∧
    ((loaded 0xF940E60D).inv = true ∧ ∃ t, step (loaded 0xF940E60D) = .next t) :=
  ⟨⟨by decide, by decide, next_of (by decide)⟩, by decide, next_of (by decide)⟩

theorem witness_ProgramTextIsImmutable :
    (∃ t, step (loaded 0xF400070D) = .next t) ∧
    (∃ kind a desc left, step loadedGuarded = .fault (.memoryAbort kind a desc left)) ∧
    Region.contains loadedGuarded.cfg.text 0x8000 = true ∧ Region.contains loadedGuarded.cfg.text 0x80FF = true :=
  ⟨next_of (by decide), memoryAbort_of (by decide), by decide, by decide⟩

theorem witness_StepKeepsModeFlagsAndConfiguration : ∃ t, step (loaded 0xF900070D) = .next t :=
  next_of (by decide)

theorem witness_RunsAreStraightLine :
    (loaded 0xF400070D).inv = true ∧ ∃ t : State, Host.Core.run Sys2Proof.core 1 (loaded 0xF400070D) = .next t :=
  ⟨by decide, next_of (o := Host.Core.run Sys2Proof.core 1 (loaded 0xF400070D)) (by decide)⟩

/-- A VST1 at 0x8000, with the given `end_pc`. -/
def endsAt (e : Word) : State :=
  let s := loaded 0xF400070D
  { s with cfg := { s.cfg with endPc := e } }

/-- A run that ends after one step, and one that ends before its first, in both directions of the statement. -/
theorem witness_RunEndsAtEndPc :
    (∃ t : State, runToEnd 1 (endsAt 0x8004#32) = .ended t ∧
      Host.Core.run Sys2Proof.core 1 (endsAt 0x8004#32) = .next t ∧ t.pc = (endsAt 0x8004#32).cfg.endPc) ∧
      (endsAt 0x8004#32).pc ≠ (endsAt 0x8004#32).cfg.endPc ∧
      runToEnd 0 (endsAt 0x8000#32) = .ended (endsAt 0x8000#32) := by
  refine ⟨?_, by decide, by decide⟩
  obtain ⟨t, ht⟩ := next_of (o := step (endsAt 0x8004#32)) (by decide)
  have hpc : (nextOf (step (endsAt 0x8004#32))).map (fun t => (State.ended t, t.pc)) = some (true, 0x8004#32) := by
    decide
  rw [ht] at hpc
  simp only [nextOf, Option.map_some, Option.some.injEq, Prod.mk.injEq] at hpc
  have ht' : Sys2Proof.core.step (endsAt 0x8004#32) = .next t := ht
  refine ⟨t, ?_, ?_, hpc.2⟩
  · rw [runToEnd, if_neg (by decide), ht]
    simp only [runToEnd]
    rw [if_pos hpc.1]
  · simp only [Host.Core.run, ht']

/-- Each cause of `UnwrittenRegisterCauses` happens. -/
theorem witness_UnwrittenRegisterCauses :
    faultOf (exec (.vst1T1Posti 0 0 .b8 .omitted) { launchT 0x2000#32 0x88#8 false with unwritten := blank }) =
      some (.unwrittenRegister .c) ∧
    faultOf (exec (.vst1A4Postr 0 0 .b8 .omitted 1) (sparse 0x2000#32)) = some (.unwrittenRegister (.d 1)) ∧
    faultOf (exec (.vst1A2Nowb 31 0 .b8 .omitted) { launchCu .unknown 0#32 with unwritten := blank }) =
      some (.unwrittenRegister (.r 0)) := by decide

theorem witness_StepMarksNothingUnwritten :
    (∃ t, step (loaded 0xF400070D) = .next t) ∧ (loaded 0xF400070D).written (.d 31) = true ∧
      ∀ x, (loaded 0xF400070D).written x = true := by
  refine ⟨next_of (by decide), by decide, fun x => ?_⟩
  cases x with
  | r k => revert k; decide
  | d k => revert k; decide
  | n => rfl
  | z => rfl
  | c => rfl
  | v => rfl

/-- A range whose last byte only has none, and a footprint likewise. -/
theorem witness_AddressWithNoByteIsUnallocated :
    let i := Instr.vst1A1Posti 31 0 .b8 .omitted
    let s := island 0x2001#32
    byteAt s (0x2005 + 3) = none ∧ Attempts i s ∧ ¬ Misaligned i s ∧ (baseOf i s).toNat + 8 * regs i ≤ 2 ^ 32 ∧
      (∀ j < 8 * regs i, Region.contains s.cfg.text ((baseOf i s).toNat + j) = false) ∧
      (∃ j < 8 * regs i, byteAt s ((baseOf i s).toNat + j) = none) ∧ ∃ t, step (loaded 0xF400070D) = .next t :=
  ⟨by decide, ⟨decodesClean_a1 _, rfl, by decide⟩, by unfold Misaligned; decide, by decide, by decide,
    ⟨7, by decide, by decide⟩, next_of (by decide)⟩

end Sys2Proof.Tests
end

section
/-! SUPPORT. The words of the statements in the terms of the shared operation: `Sys2Proof.Claims` speaks of an instruction,
`vst1` of its fields. Each lemma here ties one word of the statements to the operation's own. -/

namespace Sys2Proof.Claims

open Sys2Proof.Machine

/-- The access width of the statements is the operation's (20_memory.md R43). -/
@[simp] theorem accessWidth_eq_accessBytes (z : ElemSize) : accessWidth z = ElemSize.accessBytes z := by
  cases z <;> rfl

/-- The footprint's addresses are the operation's (20_memory.md R43). -/
theorem mem_footprint_iff (i : Instr) (s : State) (a : Nat) :
    a ∈ Form.footprint i.form s ↔ ∃ j < 8 * regs i, a = footprintAt i s j :=
  Form.mem_footprint i.form s a

/-- The UNDEFINED values of `align`, by the class (40_vst1_operation.md R82). -/
theorem alignUndefined_iff (i : Instr) : AlignUndefined i ↔ Form.alignUndefined i.form = true := by
  unfold AlignUndefined Form.alignUndefined
  cases i.form.len <;> cases i.form.align <;> decide

theorem not_alignUndefined_iff (i : Instr) : ¬ AlignUndefined i ↔ Form.alignUndefined i.form = false := by
  rw [alignUndefined_iff, Bool.not_eq_true]

/-- The registers the transfer reads, in the order of 40_vst1_operation.md R77 item 6. -/
theorem readsOf_eq_reads (i : Instr) : readsOf i = Form.reads i.form := by
  have hindex : (if i.form.rm = 13 ∨ i.form.rm = 15 then [] else [RegName.r i.form.rm]) =
      if Form.registerIndex i.form then [.r i.form.rm] else [] := by
    by_cases h15 : i.form.rm = 15
    · simp [Form.registerIndex, h15]
    · by_cases h13 : i.form.rm = 13 <;> simp [Form.registerIndex, h15, h13]
  unfold readsOf Form.reads Form.dregs
  rw [hindex, List.map_map]
  rfl

/-- An instruction whose transfer is attempted is an admissible form (40_vst1_operation.md R77 items 1 to 6). -/
theorem attempts_iff_admissible (i : Instr) (s : State) : Attempts i s ↔ Form.Admissible i.form s := by
  unfold Attempts DecodesClean
  rw [not_alignUndefined_iff, readsOf_eq_reads]
  exact ⟨fun ⟨⟨hcond, hdef, hbase, hlist⟩, hen, hw⟩ => ⟨hcond, hdef, hbase, hlist, hen, hw⟩,
    fun h => ⟨⟨h.condition, h.defined, h.base, h.list⟩, h.enabled, h.written⟩⟩

/-- What the transfer asks for before its first store (40_vst1_operation.md R85, 20_memory.md R40, R46, R53). -/
theorem clear_iff (i : Instr) (s : State) :
    Form.Clear i.form s ↔ ¬ Misaligned i s ∧ (baseOf i s).toNat + 8 * regs i ≤ 2 ^ 32 ∧
      ∀ j < 8 * regs i, Region.contains s.cfg.text ((baseOf i s).toNat + j) = false := by
  have halign : ¬ Misaligned i s ↔ (baseOf i s).toNat % Align.bytes i.form.align = 0 ∧
      (s.cfg.alignEnforced = true → (baseOf i s).toNat % ElemSize.ebytes i.form.size = 0) := by
    simp only [Misaligned, not_or, not_and, not_not, ne_eq]
  rw [halign]
  constructor
  · exact fun h => ⟨⟨h.whole, h.element⟩, h.noWrap, (Region.meets_eq_false_iff ..).1 h.notText⟩
  · exact fun ⟨⟨hwhole, helem⟩, hwrap, htext⟩ => ⟨hwhole, helem, hwrap, (Region.meets_eq_false_iff ..).2 htext⟩

/-- The first `unwritten` one of a list, as the search finds it (10_state.md R31). -/
theorem firstUnwritten_iff (s : State) (l : List RegName) (x : RegName) :
    s.firstUnwritten l = some x ↔ FirstUnwritten s l x := State.firstUnwritten_eq_some s l x

/-- The flags of the selected case are those of the condition's number (40_vst1_operation.md R78). -/
theorem condReads_eq_consulted (cond : BitVec 4) : condReads (cond.extractLsb' 1 3) = consulted cond.toNat := by
  revert cond; decide

end Sys2Proof.Claims
end

section
/-! SUPPORT. When the condition, the operation and a step report an `unwritten` register (10_state.md R31), and where a
step's fault comes from. -/

namespace Sys2Proof.Machine

open Sys2Proof.Claims

/-- A step that faults executed an instruction that faults: fetch and decoder only refuse. -/
theorem step_fault {s : State} {r : Fault} (h : step s = .fault r) : ∃ i, exec i s = .fault r := by
  unfold step at h
  split at h
  · cases h
  · split at h
    · cases h
    · rename_i i _ _
      exact ⟨i, h⟩

/-- The condition reports a flag inside an IT block only; outside it is AL, which reads none (R78). -/
theorem conditionPassed_unwritten_iff (iset : ISet) (s : State) (x : RegName) :
    conditionPassed iset s = .error (.unwritten x) ↔
      iset = .t32 ∧ s.itstate.extractLsb' 0 4 ≠ 0x0#4 ∧ FirstUnwritten s (consulted (condOf s)) x := by
  rw [← firstUnwritten_iff]
  cases iset with
  | a32 => simp [conditionPassed]
  | t32 =>
    by_cases hblock : s.itstate.extractLsb' 0 4 = 0x0#4
    · have hal : s.firstUnwritten (condReads 0b111#3) = none := rfl
      by_cases hzero : s.itstate = 0x00#8 <;> simp [conditionPassed, currentCond, hblock, hzero, hal]
    · rw [condOf, ← condReads_eq_consulted]
      simp only [conditionPassed, currentCond, ne_eq, hblock, not_false_eq_true, if_true, true_and]
      split <;> simp_all

/-- The transfer itself reports no `unwritten` register: what it reads was checked before (R77 item 6). -/
theorem vst1Transfer_ne_unwritten (f : Form) (s : State) (x : RegName) :
    vst1Transfer f s ≠ .fault (.unwrittenRegister x) := by
  intro h
  rcases vst1Transfer_fault h with ⟨h, -⟩ | ⟨h, -⟩ | ⟨-, _, _, -, -, -, h⟩ <;> cases h

/-- The three places that report an `unwritten` register: the condition, the check before the transfer, and the UNKNOWN
option past D31 (R78, R77 item 6, R81). -/
theorem vst1_unwritten_iff (f : Form) (s : State) (x : RegName) :
    vst1 f s = .fault (.unwrittenRegister x) ↔
      conditionPassed f.iset s = .error (.unwritten x) ∨
      (conditionPassed f.iset s = .ok true ∧ Form.alignUndefined f = false ∧ f.rn ≠ 15 ∧
        ((f.dd.val + ListLen.regs f.len ≤ 32 ∧ s.advSIMDAccess = .enabled ∧
            s.firstUnwritten (Form.reads f) = some x) ∨
         (32 < f.dd.val + ListLen.regs f.len ∧ s.cfg.cuDregs = .unknown ∧ s.written (.r f.rn) = false ∧
            x = .r f.rn))) := by
  constructor
  · intro h
    rcases vst1_fault h with ⟨y, hxy, hcond⟩ | ⟨hcond, hcause⟩
    · cases hxy
      exact .inl hcond
    refine .inr ⟨hcond, ?_⟩
    rcases hcause with ⟨hr, -⟩ | ⟨-, hr, -⟩ | ⟨hdef, hbase, hlist, hr⟩ | ⟨hdef, hbase, hlist, hr⟩ | ⟨-, htransfer⟩
    · cases hr
    · cases hr
    · rcases hr with ⟨hr, -⟩ | ⟨hr, -⟩ | ⟨hr, hcu, hw⟩
      · cases hr
      · cases hr
      · cases hr
        exact ⟨hdef, hbase, .inr ⟨hlist, hcu, hw, rfl⟩⟩
    · rcases hr with ⟨hr, -⟩ | ⟨hr, -⟩ | ⟨hen, y, hr, hfirst⟩
      · cases hr
      · cases hr
      · cases hr
        exact ⟨hdef, hbase, .inl ⟨hlist, hen, hfirst⟩⟩
    · exact absurd htransfer (vst1Transfer_ne_unwritten f s x)
  · rintro (hcond | ⟨hcond, hdef, hbase, ⟨hlist, hen, hfirst⟩ | ⟨hlist, hcu, hw, rfl⟩⟩)
    · simp [vst1, hcond, raise]
    · have hlist' : ¬ 32 < f.dd.val + ListLen.regs f.len := by omega
      simp [vst1, vst1Passed, vst1Enabled, hcond, hdef, hbase, hlist', hen, hfirst, raise]
    · simp [vst1, vst1Passed, vst1PastD31, hcond, hdef, hbase, hlist, hcu, hw, raise]

end Sys2Proof.Machine
end

section
/-! SUPPORT. The frame of a VST1 (10_state.md R33): one predicate that each state a VST1 can go on from meets and that the
advance of `pc` and `ITSTATE` keeps. -/

namespace Sys2Proof.Claims

open Sys2Proof.Machine

/-- What an instruction with fields `f` may change from `s` to `t`, `pc` and `ITSTATE` aside: bytes of its footprint, its
base register under writeback, and under the UNKNOWN option of 40_vst1_operation.md R81 the registers of its list. -/
structure Framed (f : Form) (s t : State) : Prop where
  bytes : ∀ a, a ∉ Form.footprint f s → byteAt t a = byteAt s a
  regs : ∀ k, k ≠ f.rn ∨ f.rm = 15 → t.readR k = s.readR k
  itstate : f.iset = .a32 → t.itstate = s.itstate
  elsewhere : SameElsewhere s t
  kept : ¬ (32 < f.dd.val + ListLen.regs f.len ∧ s.cfg.cuDregs = .unknown) → t.d = s.d ∧ t.unwritten = s.unwritten
  unlisted : ∀ k, k ∉ Form.dregs f → t.readD k = s.readD k ∧ t.written (.d k) = s.written (.d k)
  marks : ∀ k, s.written (.d k) = true → t.written (.d k) = true

theorem SameElsewhere.refl (s : State) : SameElsewhere s s := ⟨rfl, rfl, rfl, rfl, rfl, rfl, rfl, rfl, rfl⟩

/-- A state that differs from `s` at most in `R`, `D`, `pc`, `ITSTATE`, memory, the draw counter and the marks of the D
registers. -/
theorem SameElsewhere.of_eq {s t : State} {r : Vector Word 16} {d : Vector DWord 32} {pc : Word} {marks : Unwritten}
    {itstate : BitVec 8} {mem : Memory} {draws : Nat}
    (h : t = { s with r := r, d := d, pc := pc, unwritten := marks, itstate := itstate, mem := mem, draws := draws })
    (hmarks : marks = { s.unwritten with d := marks.d }) : SameElsewhere s t := by
  subst h
  exact ⟨rfl, rfl, rfl, rfl, rfl, rfl, rfl, rfl, hmarks⟩

/-- Where the marks of the D registers are kept, every mark is: the others are among the fields that stay. -/
theorem SameElsewhere.written_mono {s t : State} (h : SameElsewhere s t)
    (hd : ∀ k, s.written (.d k) = true → t.written (.d k) = true) (x : RegName) (hx : s.written x = true) :
    t.written x = true := by
  obtain ⟨-, -, -, -, -, -, -, -, hu⟩ := h
  cases x with
  | d k => exact hd k hx
  | r k => rw [State.written, hu]; exact hx
  | n => rw [State.written, hu]; exact hx
  | z => rw [State.written, hu]; exact hx
  | c => rw [State.written, hu]; exact hx
  | v => rw [State.written, hu]; exact hx

/-- An instruction that does nothing is within its frame. -/
theorem Framed.refl (f : Form) (s : State) : Framed f s s where
  bytes _ _ := rfl
  regs _ _ := rfl
  itstate _ := rfl
  elsewhere := SameElsewhere.refl s
  kept _ := ⟨rfl, rfl⟩
  unlisted _ _ := ⟨rfl, rfl⟩
  marks _ h := h

/-- The advance changes `pc` and, in T32, `ITSTATE` (40_vst1_operation.md R89). -/
theorem Framed.advance {f : Form} {s t : State} (h : Framed f s t) : Framed f s (advance f.iset t) where
  bytes := h.bytes
  regs := h.regs
  itstate ha := by rw [ha, advance_itstate_a32]; exact h.itstate ha
  elsewhere := h.elsewhere
  kept := h.kept
  unlisted := h.unlisted
  marks := h.marks

/-- The UNKNOWN option, with a written base register, stays within the frame (40_vst1_operation.md R81). -/
theorem framed_disturbed {f : Form} {s : State} (hbase : s.written (.r f.rn) = true)
    (hlist : 32 < f.dd.val + ListLen.regs f.len) (hcu : s.cfg.cuDregs = .unknown) :
    Framed f s (Form.disturbed f s) where
  bytes a ha := State.byte_congr (by rw [disturbed_frame]) (by
    rw [disturbed_frame]
    exact read_unknownBytes_other _ s a fun hin => absurd hin ha)
  regs := disturbed_readR_other f s
  itstate _ := by rw [disturbed_frame]
  elsewhere := SameElsewhere.of_eq (disturbed_frame f s) (disturbed_unwritten f s hbase)
  kept h := absurd ⟨hlist, hcu⟩ h
  unlisted k hk := ⟨(disturbed_readD f s k).2 hk, by simp [disturbed_written_d, hk]⟩
  marks k hk := by rw [disturbed_written_d, hk, Bool.true_or]

/-- Bytes written from the base address on, no longer than a footprint that does not wrap, stay inside the footprint. -/
theorem read_writeBytes_outside_footprint {f : Form} {s : State} {bs : List Byte} {a : Nat}
    (hlen : bs.length = Form.transfer f) (hwrap : (State.readR s f.rn).toNat + Form.transfer f ≤ 2 ^ 32)
    (ha : a ∉ Form.footprint f s) :
    (s.mem.writeBytes (State.readR s f.rn).toNat bs).read a = s.mem.read a := by
  rcases Nat.lt_or_ge a (State.readR s f.rn).toNat with hbelow | hfrom
  · exact Memory.read_writeBytes_below _ _ _ _ hbelow
  rcases Nat.lt_or_ge a ((State.readR s f.rn).toNat + Form.transfer f) with hin | habove
  · obtain ⟨j, rfl⟩ : ∃ j, a = (State.readR s f.rn).toNat + j := ⟨a - (State.readR s f.rn).toNat, by omega⟩
    exact absurd ((Form.mem_footprint ..).2 ⟨j, by omega, (toNat_add_ofNat (by omega)).symm⟩) ha
  · exact Memory.read_writeBytes_above _ _ _ _ (by omega)

/-- Writeback after stores inside the footprint stays within the frame, the base register holding a value already
(40_vst1_operation.md R87, R88). -/
theorem framed_writeback {f : Form} {s : State} {m : Memory} (hbase : s.written (.r f.rn) = true)
    (hmem : ∀ a, a ∉ Form.footprint f s → m.read a = s.mem.read a) :
    Framed f s (Form.writeback f { s with mem := m }) := by
  have hframe := Form.writeback_frame f { s with mem := m }
  have hmarks : (Form.writeback f { s with mem := m }).unwritten = s.unwritten :=
    Form.writeback_unwritten f { s with mem := m } hbase
  have hd : (Form.writeback f { s with mem := m }).d = s.d := by rw [hframe]
  exact {
    bytes := fun a ha => State.byte_congr (by rw [hframe]) (by rw [hframe]; exact hmem a ha)
    regs := Form.writeback_other f { s with mem := m }
    itstate := fun _ => by rw [hframe]
    elsewhere := SameElsewhere.of_eq hframe (by rw [hmarks])
    kept := fun _ => ⟨hd, hmarks⟩
    unlisted := fun k _ => ⟨State.readD_congr hd k, State.written_congr hmarks _⟩
    marks := fun k hk => (State.written_congr hmarks _).trans hk }

/-- Whichever way a VST1 goes on, it stays within its frame (10_state.md R33). -/
theorem vst1_framed {f : Form} {s t : State} (h : vst1 f s = .next t) : Framed f s t := by
  rcases vst1_next h with ⟨-, rfl⟩ | ⟨-, -, -, hlist, ⟨-, rfl⟩ | ⟨hcu, hbase, -, rfl⟩⟩ | ⟨hadm, htransfer⟩
  · exact (Framed.refl f s).advance
  · exact (Framed.refl f s).advance
  · exact (framed_disturbed hbase hlist hcu).advance
  · obtain ⟨hclear, -, rfl⟩ := (vst1Transfer_next_iff f s t).1 htransfer
    refine (framed_writeback hadm.baseWritten fun a ha => ?_).advance
    exact read_writeBytes_outside_footprint (Form.image_length f s) hclear.noWrap ha

theorem exec_framed {i : Instr} {s t : State} (h : exec i s = .next t) : Framed i.form s t :=
  vst1_framed (exec_eq_vst1 i s ▸ h)

/-- A step that goes on stays within the frame of the instruction it executed. -/
theorem step_framed {s t : State} (h : step s = .next t) : ∃ f, Framed f s t := by
  obtain ⟨_, i, _, -, -, hexec⟩ := step_next h
  exact ⟨i.form, exec_framed hexec⟩

/-- `R[15]` stays: it is the base register of no VST1 that goes past the Decode block (40_vst1_operation.md R80). -/
theorem vst1_readR_15 {f : Form} {s t : State} (h : vst1 f s = .next t) : t.readR 15 = s.readR 15 := by
  have hframed := vst1_framed h
  rcases vst1_next h with ⟨-, rfl⟩ | ⟨-, -, hbase, -⟩ | ⟨hadm, -⟩
  · rfl
  · exact hframed.regs 15 (.inl hbase.symm)
  · exact hframed.regs 15 (.inl hadm.base.symm)

end Sys2Proof.Claims
end

section
/-! SUPPORT. Addresses that hold no byte (20_memory.md R35), and the memory at reset. -/

namespace Sys2Proof.Machine

/-- Every byte of an admitted transfer is allocated: the accesses cover the footprint without a gap (20_memory.md R43,
R45). -/
theorem allocated_of_admitted {f : Form} {s : State}
    (h : ∀ k < Form.transfer f / ElemSize.accessBytes f.size, Form.admitted f s k) {j : Nat}
    (hj : j < Form.transfer f) : allocated s.cfg ((State.readR s f.rn).toNat + j) = true := by
  have hpos := ElemSize.accessBytes_pos f.size
  have hdvd : ElemSize.accessBytes f.size ∣ Form.transfer f :=
    ((ElemSize.accessBytes_dvd f.size).trans (ElemSize.ebytes_dvd f.size)).trans ⟨_, rfl⟩
  have hk : j / ElemSize.accessBytes f.size < Form.transfer f / ElemSize.accessBytes f.size :=
    Nat.div_lt_div_of_lt_of_dvd hdvd hj
  have hbyte := memAdmit_ok_allocated (h _ hk) (j % ElemSize.accessBytes f.size) (Nat.mod_lt _ hpos)
  rwa [Nat.add_assoc, Nat.div_add_mod] at hbyte

/-- A transfer that is clear of the earlier checks and has an access that is not admitted ends in a Data Abort of the
memory system (20_memory.md R45, 60_exceptions.md R123). -/
theorem vst1Transfer_aborts {f : Form} {s : State} (hclear : Form.Clear f s)
    (hno : ¬ ∀ k < Form.transfer f / ElemSize.accessBytes f.size, Form.admitted f s k) :
    ∃ kind a desc left, vst1Transfer f s = .fault (.memoryAbort kind a desc left) := by
  cases h : vst1Transfer f s with
  | next t => exact absurd ((vst1Transfer_next_iff f s t).1 h).2.1 hno
  | refused r =>
    obtain ⟨-, -, -, -, htext⟩ := (vst1Transfer_refused_iff f s r).1 h
    exact absurd (hclear.notText.symm.trans htext) (by decide)
  | fault r =>
    rcases vst1Transfer_fault h with ⟨-, hwhole | ⟨he, helem⟩⟩ | ⟨-, hwrap, -⟩ | ⟨-, kind, k, -, -, -, rfl⟩
    · exact absurd hclear.whole hwhole
    · exact absurd (hclear.element he) helem
    · exact absurd hclear.noWrap (Nat.not_le.2 hwrap)
    · exact ⟨kind, _, _, _, rfl⟩

/-- At reset the whole 32-bit address space is allocated (log entry 3). -/
theorem allocated_reset (a : Nat) : allocated State.reset.cfg a = decide (a < 2 ^ 32) := by
  simp [allocated, Region.contains, State.reset, Config.resetConfiguration]

/-- The invariant holds at reset: no byte is listed, `pc` is aligned for A32 and `ITSTATE` is zero. -/
theorem inv_reset : State.reset.inv = true := by decide

/-- At reset `text` lies in the allocated addresses. -/
theorem text_allocated_reset {j : Nat} (hj : j < State.reset.cfg.text.size) :
    allocated State.reset.cfg (State.reset.cfg.text.base + j) = true := by
  have hj' : j < 0x100 := hj
  rw [allocated_reset, decide_eq_true_eq]
  show 0x8000 + j < 2 ^ 32
  omega

end Sys2Proof.Machine
end

section
/-! The statements about the state (10_state.md). -/

namespace Sys2Proof.Claims

open Sys2Proof.Machine

/-- Settles O22: every clause is a part of the frame of `vst1_framed`. -/
theorem frameOfEveryVst1 : Obligations.FrameOfEveryVst1 := by
  intro i s t h
  have hframed := exec_framed h
  refine ⟨fun a ha => hframed.bytes a fun hin => ?_, hframed.regs, hframed.itstate, hframed.elsewhere,
    hframed.kept, fun k hk => hframed.unlisted k fun hin => ?_⟩
  · obtain ⟨j, hj, hat⟩ := (mem_footprint_iff i s a).1 hin
    exact ha j hj hat
  · obtain ⟨r, hr, hat⟩ := (Form.mem_dregs i.form k).1 hin
    exact hk r hr hat

/-- Settles O42: a step goes on by one VST1, within its frame and with `R[15]` kept. -/
theorem stepKeepsModeFlagsAndConfiguration : Obligations.StepKeepsModeFlagsAndConfiguration := by
  intro s t h
  obtain ⟨_, i, _, -, -, hexec⟩ := step_next h
  rw [exec_eq_vst1] at hexec
  exact ⟨(vst1_framed hexec).elsewhere, vst1_readR_15 hexec⟩

/-- Settles O45: the three places of `vst1_unwritten_iff`, in the words of the statement. -/
theorem unwrittenRegisterCauses : Obligations.UnwrittenRegisterCauses := by
  intro i s x
  rw [exec_eq_vst1, vst1_unwritten_iff, conditionPassed_unwritten_iff, firstUnwritten_iff, ← readsOf_eq_reads,
    ← not_alignUndefined_iff]
  refine or_congr Iff.rfl ⟨?_, ?_⟩
  · rintro ⟨hcond, hdef, hbase, ⟨hlist, hen, hfirst⟩ | hpast⟩
    · exact .inl ⟨⟨hcond, hdef, hbase, hlist⟩, hen, hfirst⟩
    · exact .inr ⟨hcond, hdef, hbase, hpast⟩
  · rintro (⟨⟨hcond, hdef, hbase, hlist⟩, hen, hfirst⟩ | ⟨hcond, hdef, hbase, hpast⟩)
    · exact ⟨hcond, hdef, hbase, .inl ⟨hlist, hen, hfirst⟩⟩
    · exact ⟨hcond, hdef, hbase, .inr hpast⟩

/-- Settles O46: the frame keeps every mark, and each cause of `UnwrittenRegister` names an `unwritten` register. -/
theorem stepMarksNothingUnwritten : Obligations.StepMarksNothingUnwritten := by
  refine ⟨fun s t h x hx => ?_, fun s hall x h => ?_⟩
  · obtain ⟨f, hframed⟩ := step_framed h
    exact hframed.elsewhere.written_mono hframed.marks x hx
  · obtain ⟨i, hexec⟩ := step_fault h
    have hx : s.written x = false := by
      rcases (unwrittenRegisterCauses i s x).1 hexec with ⟨-, -, hx, -⟩ | ⟨-, -, hx, -⟩ | ⟨-, -, -, -, -, hx, rfl⟩ <;>
        exact hx
    exact absurd ((hall x).symm.trans hx) (by decide)

/-- Settles O47: an admitted range is allocated, the accesses cover the footprint, and no step writes the regions. -/
theorem addressWithNoByteIsUnallocated : Obligations.AddressWithNoByteIsUnallocated := by
  refine ⟨State.byte_eq_none_iff, ?_, ?_, ?_⟩
  · rintro s a n privileged ⟨j, hj, hnone⟩ hok
    have hun := (State.byte_eq_none_iff s (a + j)).1 hnone
    exact absurd ((memAdmit_ok_allocated hok j hj).symm.trans hun) (by decide)
  · rintro i s hattempts haligned hwrap htext ⟨j, hj, hnone⟩
    rw [exec_eq_vst1, vst1_of_admissible ((attempts_iff_admissible i s).1 hattempts)]
    refine vst1Transfer_aborts ((clear_iff i s).2 ⟨haligned, hwrap, htext⟩) fun hall => ?_
    have hun := (State.byte_eq_none_iff s _).1 hnone
    exact absurd ((allocated_of_admitted hall hj).symm.trans hun) (by decide)
  · intro s t h a
    obtain ⟨f, hframed⟩ := step_framed h
    obtain ⟨-, -, -, -, -, -, -, hcfg, -⟩ := hframed.elsewhere
    unfold byteAt
    rw [State.byte_eq_none_iff, State.byte_eq_none_iff, hcfg]

/-- Settles O39: the invariant and the premises on `pc` and `end_pc` are checked at the one reset state, the allocation of
`text` follows from that of the whole address space. -/
theorem resetMeetsTheInvariant : Obligations.ResetMeetsTheInvariant := by
  have hpc : Region.covers State.reset.cfg.text State.reset.pc.toNat 4 = true := by decide
  have hend : State.reset.endPcAligned = true := by decide
  refine ⟨inv_reset, ?_⟩
  simp only [State.launchOk, inv_reset, hpc, hend, Bool.and_self, Bool.true_and, List.all_eq_true, List.mem_range]
  exact fun j hj => text_allocated_reset hj

/-- Settles O40: the registers and marks by their number, memory by `allocated_reset`. -/
theorem resetValuesOfTheModel : Obligations.ResetValuesOfTheModel := by
  have hmarks : ∀ x, State.reset.written x = true := by
    intro x
    cases x <;> simp [State.written, State.reset, Unwritten.none]
  refine ⟨fun k => by simp [State.readR, State.reset], fun k => by simp [State.readD, State.reset], rfl, rfl, rfl, rfl,
    rfl, rfl, rfl, hmarks, fun a ha => ?_, fun a ha => ?_⟩
  · exact State.byte_of_allocated (by rw [allocated_reset, decide_eq_true ha])
  · rw [byteAt, State.byte_eq_none_iff, allocated_reset, decide_eq_false (Nat.not_lt.2 ha)]

end Sys2Proof.Claims
end

section
/-! SUPPORT. What the fetch answers and how a step goes on from it (20_memory.md R51, 30_encoding.md R68), and that the
instruction itself refuses for other reasons (40_vst1_operation.md R93). -/

namespace Sys2Proof.Machine

/-- A range of addresses has no bytes to read when one of its addresses has none. -/
theorem State.readBytes_eq_none_iff (s : State) (a k : Nat) :
    s.readBytes a k = none ↔ ∃ j < k, s.byte (a + j) = none := by
  induction k generalizing a with
  | zero => simp [State.readBytes]
  | succ k ih =>
    have hsplit : (∃ j < k + 1, s.byte (a + j) = none) ↔ s.byte a = none ∨ s.readBytes (a + 1) k = none := by
      rw [ih, Nat.exists_lt_succ_left, Nat.add_zero]
      simp only [Nat.add_assoc, Nat.add_comm 1]
    rw [hsplit, State.readBytes]
    cases s.byte a <;> cases s.readBytes (a + 1) k <;> simp

/-- Four bytes at ascending addresses, one equation each. -/
theorem State.readBytes_four {s : State} {a : Nat} {b0 b1 b2 b3 : Byte} (h0 : s.byte a = some b0)
    (h1 : s.byte (a + 1) = some b1) (h2 : s.byte (a + 2) = some b2) (h3 : s.byte (a + 3) = some b3) :
    s.readBytes a 4 = some [b0, b1, b2, b3] := by
  simp [State.readBytes, h0, h1, h2, h3]

/-- When `pc` cannot be fetched from: misaligned, too high, or not wholly in `text`. -/
theorem pcUsable_eq_false_iff (s : State) :
    s.pcUsable = false ↔ s.pc.toNat % ISet.pcAlignment s.iset ≠ 0 ∨ 0xFFFFFFFB < s.pc.toNat ∨
      Region.covers s.cfg.text s.pc.toNat 4 = false := by
  simp only [State.pcUsable, Bool.and_eq_false_iff, decide_eq_false_iff_not, Nat.not_le, or_assoc, ne_eq]

/-- The two refusals of the fetch: `pc` is not usable, or it is and a byte there is unallocated. -/
theorem fetch_error_iff (s : State) (r : Refusal) :
    fetch s = .error r ↔
      (s.pcUsable = false ∧ r = .badPC) ∨
      (s.pcUsable = true ∧ s.readBytes s.pc.toNat 4 = none ∧ r = .textUnallocated) := by
  unfold fetch
  cases s.pcUsable with
  | false => simp [eq_comm]
  | true => cases s.readBytes s.pc.toNat 4 <;> simp [eq_comm]

theorem step_of_fetch_error {s : State} {r : Refusal} (h : fetch s = .error r) : step s = .refused r := by
  rw [step, h]

/-- Bytes that decode are executed, at the same state. -/
theorem step_of_decoded {s : State} {bs rest : List Byte} {i : Instr} (hf : fetch s = .ok bs)
    (hd : decodeBytes s.iset bs = .ok (i, rest)) : step s = exec i s := by
  simp only [step, hf, hd]

/-- Bytes that do not decode are not in scope. -/
theorem step_of_not_decoded {s : State} {bs : List Byte} {e : NotDecoded} (hf : fetch s = .ok bs)
    (hd : decodeBytes s.iset bs = .error e) : step s = .refused .notInScope := by
  simp only [step, hf, hd]

/-- The instruction itself refuses a malformed `ITSTATE` and a footprint that meets the program, nothing else (R93). -/
theorem exec_refused {i : Instr} {s : State} {r : Refusal} (h : exec i s = .refused r) :
    r = .badITSTATE ∨ r = .storeToText := by
  rw [exec_eq_vst1] at h
  rcases vst1_refused h with ⟨hr, -⟩ | ⟨hr, -⟩
  · exact .inl hr
  · exact .inr hr

/-- Where a step's refusal comes from: the fetch, the decoder, or the instruction. -/
theorem step_refused {s : State} {r : Refusal} (h : step s = .refused r) :
    fetch s = .error r ∨
    (∃ bs e, fetch s = .ok bs ∧ decodeBytes s.iset bs = .error e ∧ r = .notInScope) ∨
    r = .badITSTATE ∨ r = .storeToText := by
  cases hf : fetch s with
  | error q =>
    rw [step_of_fetch_error hf] at h
    cases h
    exact .inl rfl
  | ok bs =>
    cases hd : decodeBytes s.iset bs with
    | error e =>
      rw [step_of_not_decoded hf hd] at h
      cases h
      exact .inr (.inl ⟨bs, e, rfl, hd, rfl⟩)
    | ok d =>
      rw [step_of_decoded (i := d.1) (rest := d.2) hf hd] at h
      exact .inr (.inr (exec_refused h))

/-- The refusals that are the fetch's alone. -/
theorem step_refused_iff_fetch_error (s : State) {r : Refusal} (hr : r = .badPC ∨ r = .textUnallocated) :
    step s = .refused r ↔ fetch s = .error r := by
  refine ⟨fun h => ?_, step_of_fetch_error⟩
  rcases step_refused h with hf | ⟨_, _, -, -, rfl⟩ | rfl | rfl
  · exact hf
  · simp at hr
  · simp at hr
  · simp at hr

/-- Once the bytes at `pc` are fetched, the step is refused as not in scope exactly when they do not decode. -/
theorem step_notInScope_iff {s : State} {bs : List Byte} (hf : fetch s = .ok bs) :
    step s = .refused .notInScope ↔ ∃ e, decodeBytes s.iset bs = .error e := by
  refine ⟨fun h => ?_, fun ⟨_, hd⟩ => step_of_not_decoded hf hd⟩
  rcases step_refused h with hf' | ⟨bs', e, hf', hd, -⟩ | h | h
  · exact absurd (hf.symm.trans hf') nofun
  · obtain rfl : bs = bs' := Except.ok.inj (hf.symm.trans hf')
    exact ⟨e, hd⟩
  · cases h
  · cases h

/-- A step at a usable `pc` whose four bytes make an instruction of the current instruction set is that instruction
(R51). -/
theorem step_of_bytes {s : State} {b0 b1 b2 b3 : Byte} {i : Instr} (hpc : s.pcUsable = true)
    (h0 : s.byte s.pc.toNat = some b0) (h1 : s.byte (s.pc.toNat + 1) = some b1)
    (h2 : s.byte (s.pc.toNat + 2) = some b2) (h3 : s.byte (s.pc.toNat + 3) = some b3)
    (hd : decode s.iset (instrOfBytes s.iset b0 b1 b2 b3) = .ok i) : step s = exec i s :=
  step_of_decoded (rest := []) ((fetch_ok_iff s _).2 ⟨hpc, State.readBytes_four h0 h1 h2 h3⟩)
    (by simp only [decodeBytes, hd])

/-- A `pc` that meets the three premises of R51 is usable. -/
theorem pcUsable_of_covers {s : State} (halign : s.pc.toNat % ISet.pcAlignment s.iset = 0)
    (htop : s.pc.toNat ≤ 0xFFFFFFFB) (htext : Region.covers s.cfg.text s.pc.toNat 4 = true) :
    s.pcUsable = true := by
  simp only [State.pcUsable, halign, htop, htext, decide_true, Bool.and_self]

/-- The T32 layout of R51 as two halfwords, each little-endian, the first in bits 31:16. -/
theorem instrOfBytes_t32_halfwords (b0 b1 b2 b3 : Byte) :
    instrOfBytes .t32 b0 b1 b2 b3 = (b1 ++ b0) ++ (b3 ++ b2) := by
  exact BitVec.append_assoc

end Sys2Proof.Machine
end

section
/-! SUPPORT. What the end of a transfer leaves: the registers' bytes from the base address on (40_vst1_operation.md R87),
the base register (R88), the fault past the top of memory (20_memory.md R46), and the program text as it was (R53). -/

namespace Sys2Proof.Claims

open Sys2Proof.Machine

/-- Neither alignment is violated (40_vst1_operation.md R85, 20_memory.md R40). -/
theorem not_misaligned_iff (i : Instr) (s : State) :
    ¬ Misaligned i s ↔ (baseOf i s).toNat % Align.bytes i.form.align = 0 ∧
      (s.cfg.alignEnforced = true → (baseOf i s).toNat % ElemSize.ebytes i.form.size = 0) := by
  simp only [Misaligned, not_or, not_and, not_not, ne_eq]

/-- `MemAdmit` admits an access of the statements when the operation's own access is admitted. -/
theorem verdictAt_eq_ok_iff (i : Instr) (s : State) (k : Nat) :
    verdictAt i s k = .ok ↔ Form.admitted i.form s k := by
  rw [verdictAt, accessWidth_eq_accessBytes]
  rfl

/-- A clear transfer whose accesses are all admitted completes. -/
theorem vst1Transfer_completes {f : Form} {s : State} (hclear : Form.Clear f s)
    (hadm : ∀ k < Form.transfer f / ElemSize.accessBytes f.size, Form.admitted f s k) :
    ∃ t, vst1Transfer f s = .next t :=
  ⟨_, (vst1Transfer_next_iff f s _).2 ⟨hclear, hadm, rfl⟩⟩

/-- A completed transfer wrote its image at the base address; the configuration is as before. -/
theorem vst1Transfer_next_mem {f : Form} {s t : State} (h : vst1Transfer f s = .next t) :
    t.mem = s.mem.writeBytes (s.readR f.rn).toNat (Form.image f s) ∧ t.cfg = s.cfg := by
  obtain ⟨-, -, rfl⟩ := (vst1Transfer_next_iff f s t).1 h
  rw [Form.writeback_frame]
  exact ⟨rfl, rfl⟩

/-- Byte `8r + j` from the base address on is the closed form's byte `j` of register `d + r` (40_vst1_operation.md
R87). -/
theorem byteAt_of_vst1Transfer {f : Form} {s t : State} (h : vst1Transfer f s = .next t) {r j : Nat}
    (hr : r < ListLen.regs f.len) (hj : j < 8) :
    byteAt t ((s.readR f.rn).toNat + (8 * r + j)) =
      some (registerByte s.bigendian (ElemSize.ebytes f.size) (s.readD (DReg.plus f.dd r)) j) := by
  obtain ⟨hmem, hcfg⟩ := vst1Transfer_next_mem h
  obtain ⟨-, hadm, -⟩ := (vst1Transfer_next_iff f s t).1 h
  have hin : 8 * r + j < Form.transfer f := by unfold Form.transfer; omega
  rw [byteAt, State.byte_of_allocated (hcfg ▸ allocated_of_admitted hadm hin), hmem, Memory.read_writeBytes,
    if_pos (Nat.le_add_right ..), Nat.add_sub_cancel_left, Form.image_getElem f s r j hr hj]
  rfl

/-- An address below the base address keeps its byte. -/
theorem byteAt_below_of_vst1Transfer {f : Form} {s t : State} (h : vst1Transfer f s = .next t) {a : Nat}
    (ha : a < (s.readR f.rn).toNat) : byteAt t a = byteAt s a := by
  obtain ⟨hmem, hcfg⟩ := vst1Transfer_next_mem h
  exact State.byte_congr hcfg (by rw [hmem, Memory.read_writeBytes_below _ _ _ _ ha])

/-- With `Rm = 13` a completed transfer adds its size to the base register (40_vst1_operation.md R88). -/
theorem readR_base_of_posti {f : Form} {s t : State} (h : vst1Transfer f s = .next t) (hrm : f.rm = 13) :
    t.readR f.rn = s.readR f.rn + BitVec.ofNat 32 (Form.transfer f) := by
  obtain ⟨-, -, rfl⟩ := (vst1Transfer_next_iff f s t).1 h
  rw [readR_advance, Form.writeback_base, if_neg (by rw [hrm]; decide), if_pos hrm]
  rfl

/-- An aligned transfer that would pass `0xFFFF_FFFF` is a fault (20_memory.md R46). -/
theorem vst1Transfer_wraps {f : Form} {s : State} (hwhole : (s.readR f.rn).toNat % Align.bytes f.align = 0)
    (helem : s.cfg.alignEnforced = true → (s.readR f.rn).toNat % ElemSize.ebytes f.size = 0)
    (hwrap : 2 ^ 32 < (s.readR f.rn).toNat + Form.transfer f) :
    vst1Transfer f s = .fault (.unpredictable .addressWrap) := by
  rw [vst1Transfer, if_neg (not_not.2 hwhole), if_neg fun ⟨he, hne⟩ => hne (helem he), if_pos hwrap]
  rfl

/-- A transfer that ends by the top of memory does not raise that fault. -/
theorem vst1Transfer_ne_addressWrap {f : Form} {s : State}
    (htop : (s.readR f.rn).toNat + Form.transfer f ≤ 2 ^ 32) :
    vst1Transfer f s ≠ .fault (.unpredictable .addressWrap) := by
  intro h
  rcases vst1Transfer_fault h with ⟨h, -⟩ | ⟨-, hwrap, -⟩ | ⟨-, _, _, -, -, -, h⟩
  · cases h
  · omega
  · cases h

/-- The footprint of a clear transfer does not meet the program (20_memory.md R53). -/
theorem footprint_notText {f : Form} {s : State} (h : Form.Clear f s) {a : Nat} (ha : a ∈ Form.footprint f s) :
    Region.contains s.cfg.text a = false := by
  obtain ⟨j, hj, rfl⟩ := (Form.mem_footprint f s a).1 ha
  have hwrap := h.noWrap
  by_cases hlast : (s.readR f.rn).toNat + j < 2 ^ 32
  · rw [toNat_add_ofNat hlast]
    exact (Region.meets_eq_false_iff ..).1 h.notText j hj
  · omega

/-- A memory-system abort comes from the transfer, behind its own checks, and leaves the admitted bytes of the footprint
UNKNOWN (20_memory.md R47). -/
theorem vst1_memoryAbort {f : Form} {s left : State} {kind : AbortKind} {addr : DWord} {desc : AccessDescriptor}
    (h : vst1 f s = .fault (.memoryAbort kind addr desc left)) :
    Form.Admissible f s ∧ Form.Clear f s ∧ left = unknownBytes (Form.footprint f s) s := by
  rcases vst1_fault h with ⟨_, h, -⟩ | ⟨-, ⟨h, -⟩ | ⟨-, h, -⟩ | ⟨-, -, -, ⟨h, -⟩ | ⟨h, -⟩ | ⟨h, -⟩⟩ |
    ⟨-, -, -, ⟨h, -⟩ | ⟨h, -⟩ | ⟨-, _, h, -⟩⟩ | ⟨hadm, htransfer⟩⟩
  case inr.inr.inr.inr.inr =>
    rcases vst1Transfer_fault htransfer with ⟨h, -⟩ | ⟨h, -⟩ | ⟨hclear, _, _, -, -, -, h⟩
    · cases h
    · cases h
    · cases h
      exact ⟨hadm, hclear, rfl⟩
  all_goals cases h

/-- Whichever way a VST1 goes on, the program is as it was (20_memory.md R53): it stores nothing, or the bytes it writes
lie in a footprint that was checked against `text`. -/
theorem vst1_next_text {f : Form} {s t : State} (h : vst1 f s = .next t) {a : Nat}
    (ha : Region.contains s.cfg.text a = true) : byteAt t a = byteAt s a := by
  have hframed := vst1_framed h
  have hkept (hchecked : ∀ x ∈ Form.footprint f s, Region.contains s.cfg.text x = false) : byteAt t a = byteAt s a :=
    hframed.bytes a fun hin => absurd (ha.symm.trans (hchecked a hin)) (by decide)
  rcases vst1_next h with ⟨-, rfl⟩ | ⟨-, -, -, -, ⟨-, rfl⟩ | ⟨-, -, hchecked, -⟩⟩ | ⟨-, htransfer⟩
  · rfl
  · rfl
  · exact hkept hchecked
  · obtain ⟨hclear, -, -⟩ := (vst1Transfer_next_iff f s t).1 htransfer
    exact hkept fun x => footprint_notText hclear

/-- The state a memory-system abort leaves has the program as it was (20_memory.md R47, R53). -/
theorem vst1_memoryAbort_text {f : Form} {s left : State} {kind : AbortKind} {addr : DWord}
    {desc : AccessDescriptor} (h : vst1 f s = .fault (.memoryAbort kind addr desc left)) {a : Nat}
    (ha : Region.contains s.cfg.text a = true) : byteAt left a = byteAt s a := by
  obtain ⟨-, hclear, rfl⟩ := vst1_memoryAbort h
  obtain ⟨-, houtside⟩ := byte_unknownBytes (Form.footprint f s) s a
  exact houtside fun ⟨hin, _⟩ => absurd (ha.symm.trans (footprint_notText hclear hin)) (by decide)

end Sys2Proof.Claims
end

section
/-! The statements about memory (20_memory.md). -/

namespace Sys2Proof.Claims

open Sys2Proof.Machine

/-- Settles O41: both outcomes that carry a state come from one VST1, whose stores were checked against `text`. -/
theorem programTextIsImmutable : Obligations.ProgramTextIsImmutable := by
  refine fun s => ⟨fun t h a ha => ?_, fun kind addr desc left h a ha => ?_⟩
  · obtain ⟨_, i, _, -, -, hexec⟩ := step_next h
    exact vst1_next_text (exec_eq_vst1 i s ▸ hexec) ha
  · obtain ⟨i, hexec⟩ := step_fault h
    exact vst1_memoryAbort_text (exec_eq_vst1 i s ▸ hexec) ha

/-- Settles O9: the first two refusals are the fetch's alone, and the third, once the bytes are there, the decoder's. -/
theorem stepRefusesBadPcAndForeignWords : Obligations.StepRefusesBadPcAndForeignWords := by
  refine ⟨fun s => ?_, fun s => ?_, fun s bs hpc hbs => ?_⟩
  · have hfetch : fetch s = .error .badPC ↔ s.pcUsable = false := by simp [fetch_error_iff]
    rw [step_refused_iff_fetch_error s (.inl rfl), hfetch, pcUsable_eq_false_iff]
    cases s.iset <;> rfl
  · rw [step_refused_iff_fetch_error s (.inr rfl), fetch_error_iff, State.readBytes_eq_none_iff]
    simp [byteAt]
  · rw [step_notInScope_iff ((fetch_ok_iff s bs).2 ⟨hpc, hbs⟩)]
    cases decodeBytes s.iset bs with
    | error e => simp
    | ok d => simpa using ⟨d.1, d.2, rfl⟩

/-- Settles O27: up to 2^32 the wrap check passes and the completed transfer is as R87 and R88 say; past it the check
comes before any store. -/
theorem footprintMayEndAtTheTop : Obligations.FootprintMayEndAtTheTop := by
  intro i s hattempts haligned
  have hexec : exec i s = vst1Transfer i.form s := by
    rw [exec_eq_vst1, vst1_of_admissible ((attempts_iff_admissible i s).1 hattempts)]
  rw [hexec]
  refine ⟨fun htop => ⟨vst1Transfer_ne_addressWrap htop.le, fun htext hadmit => ?_, fun hrm t h => ?_⟩, fun hwrap => ?_⟩
  · have hclear := (clear_iff i s).2 ⟨haligned, htop.le, htext⟩
    rw [accesses, accessWidth_eq_accessBytes] at hadmit
    obtain ⟨t, h⟩ := vst1Transfer_completes hclear fun k hk => (verdictAt_eq_ok_iff i s k).1 (hadmit k hk)
    exact ⟨t, h, fun r hr j hj => byteAt_of_vst1Transfer h hr hj, fun a ha => byteAt_below_of_vst1Transfer h ha⟩
  · have hsum : (s.readR i.form.rn).toNat + Form.transfer i.form = 2 ^ 32 := htop
    rw [readR_base_of_posti h hrm]
    apply BitVec.eq_of_toNat_eq
    rw [BitVec.toNat_add, BitVec.toNat_ofNat, Nat.add_mod_mod, hsum]
    rfl
  · obtain ⟨hwhole, helem⟩ := (not_misaligned_iff i s).1 haligned
    exact vst1Transfer_wraps hwhole helem hwrap

/-- Settles O7: the word of `step_of_bytes` is the little-endian one. -/
theorem stepRunsA32Instruction : Obligations.StepRunsA32Instruction := by
  intro s b0 b1 b2 b3 i hiset halign htop htext h0 h1 h2 h3 hd
  have hpc : s.pcUsable = true := pcUsable_of_covers (by rw [hiset]; exact halign) htop htext
  refine step_of_bytes hpc h0 h1 h2 h3 ?_
  rw [hiset]
  exact hd

/-- Settles O8: the word of `step_of_bytes` is that of the two halfwords. -/
theorem stepRunsT32Instruction : Obligations.StepRunsT32Instruction := by
  intro s b0 b1 b2 b3 i hiset halign htop htext h0 h1 h2 h3 hd
  have hpc : s.pcUsable = true := pcUsable_of_covers (by rw [hiset]; exact halign) htop htext
  refine step_of_bytes hpc h0 h1 h2 h3 ?_
  rw [hiset, instrOfBytes_t32_halfwords]
  exact hd

end Sys2Proof.Claims
end

section
/-! SUPPORT. The decoder and the encoder as inverses of each other (30_encoding.md R64, R76): first on the fields, then on
the instructions. -/

namespace Sys2Proof

/-! ## The fields -/

/-- The fields of an encoding are decoded as they were. -/
theorem decodeForm_encodeForm (f : Form) : decodeForm f.iset (encodeForm f) = .ok f := by
  refine (decodeForm_ok_iff f.iset (encodeForm f) f).2 ⟨encodeForm_fixed f, encodeForm_zero f, f.len, ?_, ?_⟩
  · rw [encodeForm_itype, ListLen.ofItype_itype]
  · rw [encodeForm_D, encodeForm_Vd, encodeForm_rn, encodeForm_size, encodeForm_align, encodeForm_rm,
      DReg.ofBits_bits, RReg.ofBits_bits, ElemSize.ofCode_code, Align.ofCode_code, RReg.ofBits_bits]

/-- Every bit of a word that decodes is a constant of the format or stands in one of the fields (R56, R57). -/
theorem encodeForm_of_decodeForm {iset : ISet} {w : Word} {f : Form} (h : decodeForm iset w = .ok f) :
    f.iset = iset ∧ encodeForm f = w := by
  obtain ⟨hfixed, hzero, len, hlen, rfl⟩ := (decodeForm_ok_iff iset w f).1 h
  refine ⟨rfl, ?_⟩
  have hw := word_of_fields w
  rw [hfixed, hzero, ListLen.ofItype_some hlen] at hw
  simp only [encodeForm, DReg.bits_ofBits_high, DReg.bits_ofBits_low, RReg.bits_ofBits, ElemSize.code_ofCode,
    Align.code_ofCode]
  exact hw.symm

/-- `d = UInt(D::Vd)` (R63). -/
theorem DReg.val_eq_bits (dd : DReg) :
    dd.val = 16 * (dd.bits.extractLsb' 4 1).toNat + (dd.bits.extractLsb' 0 4).toNat := by revert dd; decide

/-- No register count is found for the other values of `itype` (R59, R68). -/
theorem ListLen.ofItype_eq_none_iff (b : BitVec 4) :
    ListLen.ofItype b = none ↔ b ≠ 0b0111#4 ∧ b ≠ 0b1010#4 ∧ b ≠ 0b0110#4 ∧ b ≠ 0b0010#4 := by revert b; decide

/-- The three refusals of the decoder are one and the same (R64). -/
theorem decodeForm_error_iff (iset : ISet) (w : Word) :
    decodeForm iset w = .error .notThisInstruction ↔
      w.extractLsb' 23 9 ≠ iset.fixedBits ∨ w.extractLsb' 20 2 ≠ 0b00#2 ∨
        ListLen.ofItype (w.extractLsb' 8 4) = none := by
  unfold decodeForm
  by_cases hfixed : w.extractLsb' 23 9 = iset.fixedBits
  · by_cases hzero : w.extractLsb' 20 2 = 0b00#2
    · rw [if_neg (not_not.2 hfixed), if_neg (not_not.2 hzero)]
      cases ListLen.ofItype (w.extractLsb' 8 4) <;> simp [hfixed, hzero]
    · simp [hzero]
  · simp [hfixed]

/-! ## The instructions -/

theorem RReg.isIndex_iff (rm : RReg) : rm.isIndex = true ↔ rm ≠ 13 ∧ rm ≠ 15 := by
  simp only [RReg.isIndex, Bool.and_eq_true, bne_iff_ne]

/-- A well-formed instruction is the one its fields name: an index register is neither of the two numbers that select
another variant (R60). -/
theorem Instr.form_toInstr {i : Instr} (h : i.wellFormed = true) : i.form.toInstr = i := by
  cases i
  case vst1A1Postr | vst1A2Postr | vst1A3Postr | vst1A4Postr | vst1T1Postr | vst1T2Postr | vst1T3Postr | vst1T4Postr =>
    obtain ⟨h13, h15⟩ := (RReg.isIndex_iff _).1 h
    exact (if_neg h15).trans (if_neg h13)
  all_goals rfl

theorem decode_ok_iff (iset : ISet) (w : Word) (i : Instr) :
    decode iset w = .ok i ↔ ∃ f, decodeForm iset w = .ok f ∧ f.toInstr = i := by
  unfold decode
  cases decodeForm iset w <;> simp

theorem decode_error_iff (iset : ISet) (w : Word) (e : NotDecoded) :
    decode iset w = .error e ↔ decodeForm iset w = .error e := by
  unfold decode
  cases decodeForm iset w <;> simp

/-- A word decodes to exactly the well-formed instruction of its instruction set that it is the encoding of
(R64, R76). -/
theorem decode_ok_iff_encode (iset : ISet) (w : Word) (i : Instr) :
    decode iset w = .ok i ↔ i.iset = iset ∧ i.wellFormed = true ∧ encode i = w := by
  rw [decode_ok_iff]
  constructor
  · rintro ⟨f, hf, rfl⟩
    obtain ⟨hiset, hword⟩ := encodeForm_of_decodeForm hf
    rw [Instr.iset, encode, Form.toInstr_form]
    exact ⟨hiset, f.toInstr_wellFormed, hword⟩
  · rintro ⟨rfl, hwf, rfl⟩
    exact ⟨i.form, decodeForm_encodeForm i.form, Instr.form_toInstr hwf⟩

end Sys2Proof
end

section
/-! SUPPORT. The rows of the opcode table (30_encoding.md R65): which words have a row's match under its mask, and which
decode to its constructor. -/

namespace Sys2Proof

/-- Two appends of the same widths are equal part by part. -/
theorem append_eq_append_iff {v w : Nat} (x x' : BitVec v) (y y' : BitVec w) :
    x ++ y = x' ++ y' ↔ x = x' ∧ y = y' := by
  constructor
  · intro h
    have hlow : y = y' := by
      simpa only [extract_append_low _ _ 0 w (Nat.zero_add w).le, extract_whole] using congrArg (·.extractLsb' 0 w) h
    subst hlow
    exact ⟨(BitVec.append_left_inj y).1 h, rfl⟩
  · rintro ⟨rfl, rfl⟩
    rfl

/-- The class mask of R65, with the mask `k` on the field `Rm`. -/
def rowMask (k : BitVec 4) : Word := 0x1FF#9 ++ 0#1 ++ 3#2 ++ 0#4 ++ 0#4 ++ 0xF#4 ++ 0#2 ++ 0#2 ++ k

/-- The match of R65 for a class, with `m` in the field `Rm`. -/
def rowMatch (iset : ISet) (len : ListLen) (m : BitVec 4) : Word :=
  iset.fixedBits ++ 0#1 ++ 0#2 ++ 0#4 ++ 0#4 ++ len.itype ++ 0#2 ++ 0#2 ++ m

/-- What a row's mask keeps of a word. -/
theorem and_rowMask (w : Word) (k : BitVec 4) :
    w &&& rowMask k = w.extractLsb' 23 9 ++ 0#1 ++ w.extractLsb' 20 2 ++ 0#4 ++ 0#4 ++ w.extractLsb' 8 4 ++ 0#2 ++ 0#2 ++
      (w.extractLsb' 0 4 &&& k) := by
  have hfixed (x : BitVec 9) : x &&& 0x1FF#9 = x := BitVec.and_allOnes
  have hzero (x : BitVec 2) : x &&& 3#2 = x := BitVec.and_allOnes
  have hitype (x : BitVec 4) : x &&& 0xF#4 = x := BitVec.and_allOnes
  conv_lhs => rw [word_of_fields w]
  refine (append_and_append _ _ _ _).trans ?_
  simp only [append_and_append, BitVec.and_zero, hfixed, hzero, hitype]

/-- A row's test reads the constant bits, `itype` and what the mask keeps of `Rm`. -/
theorem and_rowMask_eq_rowMatch_iff (iset : ISet) (len : ListLen) (w : Word) (k m : BitVec 4) :
    w &&& rowMask k = rowMatch iset len m ↔
      w.extractLsb' 23 9 = iset.fixedBits ∧ w.extractLsb' 20 2 = 0b00#2 ∧ w.extractLsb' 8 4 = len.itype ∧
        w.extractLsb' 0 4 &&& k = m := by
  rw [and_rowMask]
  refine (append_eq_append_iff _ _ _ _).trans ?_
  simp only [append_eq_append_iff, and_true, and_assoc]

/-- The words of a class with a given `Rm`: the free bits are those of the other operands (R65). -/
theorem exists_encodeForm_iff (iset : ISet) (len : ListLen) (rm : RReg) (w : Word) :
    (∃ dd rn size align, encodeForm ⟨iset, len, dd, rn, size, align, rm⟩ = w) ↔
      w.extractLsb' 23 9 = iset.fixedBits ∧ w.extractLsb' 20 2 = 0b00#2 ∧ w.extractLsb' 8 4 = len.itype ∧
        w.extractLsb' 0 4 = rm.bits := by
  constructor
  · rintro ⟨dd, rn, size, align, rfl⟩
    exact ⟨encodeForm_fixed _, encodeForm_zero _, encodeForm_itype _, encodeForm_rm _⟩
  · rintro ⟨hfixed, hzero, hitype, hrm⟩
    have hlen : ListLen.ofItype (w.extractLsb' 8 4) = some len := by rw [hitype, ListLen.ofItype_itype]
    have hdecode := (decodeForm_ok_iff iset w _).2 ⟨hfixed, hzero, len, hlen, rfl⟩
    rw [hrm, RReg.ofBits_bits] at hdecode
    exact ⟨_, _, _, _, (encodeForm_of_decodeForm hdecode).2⟩

/-- The bits `instr[3:0]` of a word, as a mask picks them. -/
theorem and_lowNibble_eq_iff (w : Word) (b : BitVec 4) :
    w &&& 0x0F#32 = 0#28 ++ b ↔ w.extractLsb' 0 4 = b := by
  have hw : w &&& 0x0F#32 = 0#28 ++ w.extractLsb' 0 4 := by
    conv_lhs => rw [← extract_whole w, ← extract_append_extract w 0 4 28]
    rw [show 0x0F#32 = 0#28 ++ BitVec.allOnes 4 from rfl, append_and_append, BitVec.and_zero, BitVec.and_allOnes]
  rw [hw, BitVec.append_right_inj]

/-- A `_nowb` or `_posti` row of R65: `Rm` is fixed, and the mask keeps all of it. -/
theorem decodes_to_fixedRm_iff {row : DReg → RReg → ElemSize → Align → Instr} {iset : ISet} {w expected : Word}
    (len : ListLen) (rm : RReg)
    (hform : ∀ dd rn size align, (row dd rn size align).form = ⟨iset, len, dd, rn, size, align, rm⟩ := by intros; rfl)
    (hwf : ∀ dd rn size align, (row dd rn size align).wellFormed = true := by intros; rfl)
    (hmatch : rowMatch iset len rm.bits = expected := by rfl) :
    (∃ dd rn size align, decode iset w = .ok (row dd rn size align)) ↔ w &&& 0xFFB00F0F#32 = expected := by
  have hrm : w.extractLsb' 0 4 &&& 0xF#4 = w.extractLsb' 0 4 := BitVec.and_allOnes
  rw [← hmatch, show 0xFFB00F0F#32 = rowMask 0xF#4 from rfl, and_rowMask_eq_rowMatch_iff, hrm, ← exists_encodeForm_iff]
  simp only [decode_ok_iff_encode, Instr.iset, encode, hform, hwf, true_and]

/-- A `_postr` row of R65: the mask leaves `Rm` out, and `Rm` is neither of the numbers of the other two rows. -/
theorem decodes_to_indexRm_iff {row : DReg → RReg → ElemSize → Align → RReg → Instr} {iset : ISet} {w expected : Word}
    (len : ListLen)
    (hform : ∀ dd rn size align rm,
      (row dd rn size align rm).form = ⟨iset, len, dd, rn, size, align, rm⟩ := by intros; rfl)
    (hwf : ∀ dd rn size align rm, (row dd rn size align rm).wellFormed = rm.isIndex := by intros; rfl)
    (hmatch : rowMatch iset len 0#4 = expected := by rfl) :
    (∃ dd rn size align rm, decode iset w = .ok (row dd rn size align rm)) ↔
      w &&& 0xFFB00F00#32 = expected ∧ w &&& 0x0F#32 ≠ 0x0F#32 ∧ w &&& 0x0F#32 ≠ 0x0D#32 := by
  have hmask : w &&& 0xFFB00F00#32 = expected ↔ _ := hmatch ▸ and_rowMask_eq_rowMatch_iff iset len w 0#4 0#4
  have h15 : w &&& 0x0F#32 = 0x0F#32 ↔ _ := and_lowNibble_eq_iff w (RReg.bits 15)
  have h13 : w &&& 0x0F#32 = 0x0D#32 ↔ _ := and_lowNibble_eq_iff w (RReg.bits 13)
  rw [hmask, ne_eq, ne_eq, h15, h13]
  simp only [decode_ok_iff_encode, Instr.iset, encode, hform, hwf, true_and]
  constructor
  · rintro ⟨dd, rn, size, align, rm, hindex, hword⟩
    obtain ⟨h13, h15⟩ := (RReg.isIndex_iff rm).1 hindex
    obtain ⟨hfixed, hzero, hitype, hrm⟩ := (exists_encodeForm_iff iset len rm w).1 ⟨dd, rn, size, align, hword⟩
    rw [hrm]
    exact ⟨⟨hfixed, hzero, hitype, BitVec.and_zero⟩, h15 ∘ BitVec.ofFin.inj, h13 ∘ BitVec.ofFin.inj⟩
  · rintro ⟨⟨hfixed, hzero, hitype, -⟩, h15, h13⟩
    obtain ⟨dd, rn, size, align, hword⟩ :=
      (exists_encodeForm_iff iset len (.ofBits (w.extractLsb' 0 4)) w).2 ⟨hfixed, hzero, hitype, rfl⟩
    have hindex := (RReg.isIndex_iff _).2 ⟨h13 ∘ congrArg RReg.bits, h15 ∘ congrArg RReg.bits⟩
    exact ⟨dd, rn, size, align, _, hindex, hword⟩

end Sys2Proof
end

section
/-! SUPPORT. The two instruction sets' words of the same fields (30_encoding.md R57). -/

namespace Sys2Proof

/-- Adding to the high part of an append carries nothing in from the low part. -/
theorem append_add_append_zero {v w : Nat} (x c : BitVec v) (y : BitVec w) :
    (x ++ y) + (c ++ 0#w) = (x + c) ++ y := by
  apply BitVec.eq_of_toNat_eq
  simp only [BitVec.toNat_add, BitVec.toNat_append, BitVec.toNat_ofNat, Nat.zero_mod, Nat.or_zero]
  rw [← Nat.shiftLeft_add_eq_or_of_lt y.isLt, ← Nat.shiftLeft_add_eq_or_of_lt y.isLt]
  simp only [Nat.shiftLeft_eq]
  have hsum : x.toNat * 2 ^ w + y.toNat + c.toNat * 2 ^ w = y.toNat + 2 ^ w * (x.toNat + c.toNat) := by ring
  rw [hsum, Nat.add_comm v w, Nat.pow_add, Nat.mod_mul, Nat.add_mul_mod_self_left, Nat.mod_eq_of_lt y.isLt,
    Nat.add_mul_div_left _ _ (Nat.two_pow_pos w), Nat.div_eq_of_lt y.isLt, Nat.zero_add, Nat.mul_comm, Nat.add_comm]

/-- `0x0500_0000` is the difference of the constant bits 31:23, in their place (R57). -/
theorem encodeForm_t32 (f : Form) (h : f.iset = .a32) :
    encodeForm { f with iset := .t32 } = encodeForm f + 0x05000000#32 := by
  rw [show 0x05000000#32 = 10#9 ++ 0#1 ++ 0#2 ++ 0#4 ++ 0#4 ++ 0#4 ++ 0#2 ++ 0#2 ++ 0#4 from rfl]
  have hfixed : ISet.t32.fixedBits = ISet.a32.fixedBits + 10#9 := rfl
  unfold encodeForm
  refine ((append_add_append_zero (w := 4) _ _ _).trans ?_).symm
  simp only [append_add_append_zero, h, hfixed]

/-- A T32 instruction with the fields of an A32 one (R57). -/
theorem encode_t32_of_form_eq {a t : Instr} (ha : a.iset = .a32) (ht : t.form = { a.form with iset := .t32 }) :
    encode t = encode a + 0x05000000#32 := by
  rw [encode, encode, ht, encodeForm_t32 a.form ha]

end Sys2Proof
end

section
/-! The statements about the encoding (30_encoding.md). -/

namespace Sys2Proof.Claims

/-- Settles O2: a word decodes to what it is the encoding of, and the bytes in memory decode as their word. -/
theorem decodeOfEncodeIsTheInstruction : Obligations.DecodeOfEncodeIsTheInstruction := by
  intro i hwf
  have hword : decode i.iset (encode i) = .ok i := (decode_ok_iff_encode _ _ i).2 ⟨rfl, hwf, rfl⟩
  have hbytes := decodeBytes_bytesOfInstr i.iset (encode i) []
  rw [List.append_nil, hword] at hbytes
  exact ⟨hword, hbytes⟩

/-- Settles O3: the other direction of `decode_ok_iff_encode`. -/
theorem encodeOfDecodeIsTheWord : Obligations.EncodeOfDecodeIsTheWord :=
  fun iset w i h => (decode_ok_iff_encode iset w i).1 h

/-- Settles O4: the rows in the order of R65, each by its register count and its `Rm`. -/
theorem decodeFollowsMatchAndMask : Obligations.DecodeFollowsMatchAndMask := fun _ =>
  ⟨decodes_to_fixedRm_iff .one 15, decodes_to_fixedRm_iff .one 13, decodes_to_indexRm_iff .one,
    decodes_to_fixedRm_iff .two 15, decodes_to_fixedRm_iff .two 13, decodes_to_indexRm_iff .two,
    decodes_to_fixedRm_iff .three 15, decodes_to_fixedRm_iff .three 13, decodes_to_indexRm_iff .three,
    decodes_to_fixedRm_iff .four 15, decodes_to_fixedRm_iff .four 13, decodes_to_indexRm_iff .four,
    decodes_to_fixedRm_iff .one 15, decodes_to_fixedRm_iff .one 13, decodes_to_indexRm_iff .one,
    decodes_to_fixedRm_iff .two 15, decodes_to_fixedRm_iff .two 13, decodes_to_indexRm_iff .two,
    decodes_to_fixedRm_iff .three 15, decodes_to_fixedRm_iff .three 13, decodes_to_indexRm_iff .three,
    decodes_to_fixedRm_iff .four 15, decodes_to_fixedRm_iff .four 13, decodes_to_indexRm_iff .four⟩

/-- Settles O5: the refusals are those of `decodeForm_error_iff`, and a word that decodes is the encoding of what it
decodes to, so its fields are the encoded ones. -/
theorem decoderReadsTheFields : Obligations.DecoderReadsTheFields := by
  refine fun iset w => ⟨?_, fun i h => ?_⟩
  · rw [decode_error_iff, decodeForm_error_iff, ListLen.ofItype_eq_none_iff]
    cases iset <;> rfl
  · obtain ⟨hiset, -, rfl⟩ := (decode_ok_iff_encode iset w i).1 h
    rw [encode, encodeForm_itype, encodeForm_D, encodeForm_Vd, encodeForm_rn, encodeForm_size, encodeForm_align,
      encodeForm_rm]
    refine ⟨hiset, ?_, DReg.val_eq_bits i.form.dd, rfl, ?_, ?_, rfl⟩
    · cases i.form.len <;> rfl
    · cases i.form.size <;> rfl
    · cases i.form.align <;> rfl

/-- Settles O6: the two instructions of a pair have the same fields but for the instruction set. -/
theorem t32WordIsA32WordPlusConstant : Obligations.T32WordIsA32WordPlusConstant := by
  refine fun dd rn size align rm => ⟨?_, ?_, ?_, ?_, ?_, ?_, ?_, ?_, ?_, ?_, ?_, ?_⟩
  all_goals exact encode_t32_of_form_eq rfl rfl

/-- Settles O1: twelve fixed words, each evaluated by the decoder. -/
theorem decodesWordsOfTheSpec : Obligations.DecodesWordsOfTheSpec := by
  unfold Obligations.DecodesWordsOfTheSpec
  decide

end Sys2Proof.Claims
end

section
/-! SUPPORT. The condition of a T32 instruction, the advance of `ITSTATE`, and what each check of a VST1 answers in its
place (40_vst1_operation.md R77, R78, R89). -/

namespace Sys2Proof.Claims

open Sys2Proof.Machine

/-! ## `ITSTATE` and the condition -/

/-- The masks of the statements and the fields of the operation make the same advance (R89). -/
theorem itAdvanced_eq_advanceIT (it : BitVec 8) : itAdvanced it = advanceIT it := by revert it; decide

theorem advanced_eq_advance (iset : ISet) (s : State) : advanced iset s = advance iset s := by
  cases iset with
  | a32 => rfl
  | t32 => simp only [advanced, advance, itAdvanced_eq_advanceIT]

/-- At the end of a block `ITSTATE` becomes zero (R89). -/
theorem advanceIT_of_last {it : BitVec 8} (h : it.extractLsb' 0 3 = 0b000#3) : advanceIT it = 0x00#8 := if_pos h

/-- Inside a block bits 7:5 stay and bits 4:0 shift left (R89). -/
theorem advanceIT_fields {it : BitVec 8} (h : it.extractLsb' 0 3 ≠ 0b000#3) :
    (advanceIT it).extractLsb' 5 3 = it.extractLsb' 5 3 ∧
      (advanceIT it).extractLsb' 0 5 = it.extractLsb' 0 5 <<< 1 := by
  rw [advanceIT, if_neg h, extract_append_high _ _ _ _ (le_refl 5), extract_append_low _ _ _ _ (le_refl 5),
    Nat.sub_self, extract_whole, extract_whole]
  exact ⟨rfl, rfl⟩

/-- The advance of a legal `ITSTATE` is legal: zero, or its low nibble is the low three bits shifted left. -/
theorem itstateLegal_advanceIT {it : BitVec 8} (h : itstateLegal it = true) : itstateLegal (advanceIT it) = true := by
  revert it; decide

/-- The inverted case of the operation is the table of the statements, by the condition's number (R78). -/
theorem condHolds_eq_condition (cond : BitVec 4) (s : State) :
    condHolds cond s.n s.z s.c s.v = condition cond.toNat s := by
  unfold condition
  generalize s.n = n
  generalize s.z = z
  generalize s.c = c
  generalize s.v = v
  revert cond n z c v
  decide

/-- Inside a block, with the flags that are read written, the condition is the table's (R78). -/
theorem conditionPassed_of_written {s : State} (hblock : s.itstate.extractLsb' 0 4 ≠ 0x0#4)
    (hw : ∀ x ∈ consulted (condOf s), s.written x = true) :
    conditionPassed .t32 s = .ok (condition (condOf s) s) := by
  have hnone := (State.firstUnwritten_eq_none s _).2 hw
  rw [condOf, ← condReads_eq_consulted] at hnone
  simp only [conditionPassed, currentCond, if_pos hblock, hnone, condHolds_eq_condition, condOf]

/-- Outside a block the condition is AL, which reads no flag (R78). -/
theorem conditionPassed_outside {s : State} (h : s.itstate = 0x00#8) : conditionPassed .t32 s = .ok true := by
  have hlow : s.itstate.extractLsb' 0 4 = 0x0#4 := by rw [h]; rfl
  rw [conditionPassed, currentCond, if_neg (not_not.2 hlow), if_pos h]
  rfl

/-- The one malformed `ITSTATE`: a low nibble of zero in a value that is not zero (R78). -/
theorem conditionPassed_badITSTATE_iff (iset : ISet) (s : State) :
    conditionPassed iset s = .error .badITSTATE ↔
      iset = .t32 ∧ s.itstate.extractLsb' 0 4 = 0x0#4 ∧ s.itstate ≠ 0x00#8 := by
  cases iset with
  | a32 => simp [conditionPassed]
  | t32 =>
    by_cases hblock : s.itstate.extractLsb' 0 4 = 0x0#4
    · by_cases hzero : s.itstate = 0x00#8
      · simp [conditionPassed_outside hzero, hzero]
      · simp [conditionPassed, currentCond, hblock, hzero]
    · simp only [conditionPassed, currentCond, if_pos hblock, hblock, false_and, and_false, iff_false]
      split <;> simp

/-! ## The checks in their order (R77) -/

theorem vst1_of_badITSTATE {f : Form} {s : State} (h : conditionPassed f.iset s = .error .badITSTATE) :
    vst1 f s = .refused .badITSTATE := by rw [vst1, h]

theorem vst1_of_condition_fails {f : Form} {s : State} (h : conditionPassed f.iset s = .ok false) :
    vst1 f s = .next (advance f.iset s) := by rw [vst1, h]

theorem vst1_of_condition_passes {f : Form} {s : State} (h : conditionPassed f.iset s = .ok true) :
    vst1 f s = vst1Passed f s := by rw [vst1, h]

theorem exec_of_condPasses {i : Instr} {s : State} (h : CondPasses i s) : exec i s = vst1Passed i.form s := by
  rw [exec_eq_vst1, vst1_of_condition_passes h]

theorem vst1Passed_of_alignUndefined {f : Form} {s : State} (h : Form.alignUndefined f = true) :
    vst1Passed f s = .fault .undefinedInstruction := if_pos h

theorem vst1Passed_of_base15 {f : Form} {s : State} (hdef : Form.alignUndefined f = false) (hbase : f.rn = 15) :
    vst1Passed f s = .fault (.unpredictable .baseIsPC) := by
  rw [vst1Passed, hdef, if_neg Bool.false_ne_true, if_pos hbase]
  rfl

theorem vst1Passed_of_pastD31 {f : Form} {s : State} (hdef : Form.alignUndefined f = false) (hbase : f.rn ≠ 15)
    (hlist : 32 < f.dd.val + ListLen.regs f.len) : vst1Passed f s = vst1PastD31 f s := by
  rw [vst1Passed, hdef, if_neg Bool.false_ne_true, if_neg hbase, if_pos hlist]

/-- The Decode block raises nothing: the enable check decides next (R83). -/
theorem vst1Passed_of_clean {f : Form} {s : State} (hdef : Form.alignUndefined f = false) (hbase : f.rn ≠ 15)
    (hlist : f.dd.val + ListLen.regs f.len ≤ 32) :
    (s.advSIMDAccess = .undefined → vst1Passed f s = .fault .undefinedInstruction) ∧
    (s.advSIMDAccess = .hypTrap → vst1Passed f s = .fault .hypTrap) ∧
    (s.advSIMDAccess = .enabled → vst1Passed f s = vst1Enabled f s) := by
  rw [vst1Passed, hdef, if_neg Bool.false_ne_true, if_neg hbase, if_neg (Nat.not_lt.2 hlist)]
  refine ⟨fun h => ?_, fun h => ?_, fun h => ?_⟩ <;> rw [h] <;> rfl

/-! ## The settings of `cu_dregs` (R81) -/

/-- The settings of `cu_dregs` that draw nothing (R81). -/
theorem vst1PastD31_of_setting (f : Form) (s : State) :
    (s.cfg.cuDregs = .fault → vst1PastD31 f s = .fault (.unpredictable .regListPastD31)) ∧
    (s.cfg.cuDregs = .undef → vst1PastD31 f s = .fault .undefinedInstruction) ∧
    (s.cfg.cuDregs = .nop → vst1PastD31 f s = .next (advance f.iset s)) := by
  unfold vst1PastD31
  refine ⟨fun h => ?_, fun h => ?_, fun h => ?_⟩ <;> rw [h] <;> rfl

/-- Under the UNKNOWN option the base register's mark comes first. -/
theorem vst1PastD31_of_unwritten {f : Form} {s : State} (hcu : s.cfg.cuDregs = .unknown)
    (hw : s.written (.r f.rn) = false) : vst1PastD31 f s = .fault (.unwrittenRegister (.r f.rn)) := by
  simp only [vst1PastD31, hcu, hw, raise, Bool.not_false, if_true]

/-- Then the program text: a footprint byte inside it is refused. -/
theorem vst1PastD31_of_text {f : Form} {s : State} (hcu : s.cfg.cuDregs = .unknown)
    (hw : s.written (.r f.rn) = true) (htext : ∃ a ∈ Form.footprint f s, Region.contains s.cfg.text a = true) :
    vst1PastD31 f s = .refused .storeToText := by
  have hany := List.any_eq_true.2 htext
  simp only [vst1PastD31, hcu, hw, hany, Bool.not_true, Bool.false_eq_true, if_false, if_true]

/-- Otherwise the instruction goes on, with the UNKNOWN values drawn. -/
theorem vst1PastD31_disturbs {f : Form} {s : State} (hcu : s.cfg.cuDregs = .unknown)
    (hw : s.written (.r f.rn) = true) (htext : ∀ a ∈ Form.footprint f s, Region.contains s.cfg.text a = false) :
    vst1PastD31 f s = .next (advance f.iset (Form.disturbed f s)) := by
  have hany : (Form.footprint f s).any (fun a => Region.contains s.cfg.text a) = false := by simpa using htext
  simp only [vst1PastD31, hcu, hw, hany, Bool.not_true, Bool.false_eq_true, if_false]
  rfl

/-- An instruction that goes on, its condition passed and its list ending by D31, completed its transfer. -/
theorem transfer_of_next {f : Form} {s t : State} (hcond : conditionPassed f.iset s = .ok true)
    (hlist : f.dd.val + ListLen.regs f.len ≤ 32) (h : vst1 f s = .next t) :
    Form.Admissible f s ∧ vst1Transfer f s = .next t := by
  rcases vst1_next h with ⟨hfails, -⟩ | ⟨-, -, -, hpast, -⟩ | hdone
  · exact absurd (hcond.symm.trans hfails) (by simp)
  · omega
  · exact hdone

end Sys2Proof.Claims
end

section
/-! SUPPORT. What a step keeps of the machine's invariant: `pc` goes on by 4 below the top, `ITSTATE` advances, and memory
stays canonical and allocated (40_vst1_operation.md R89, 20_memory.md R35, R51). -/

namespace Sys2Proof.Machine

open Sys2Proof.Claims

/-- Whichever way a VST1 goes on, it ends with the advance of `pc` and `ITSTATE`, and nothing before that writes
either (R89). -/
theorem vst1_next_advances {f : Form} {s t : State} (h : vst1 f s = .next t) :
    t.pc = s.pc + 4#32 ∧ t.itstate = (advance f.iset s).itstate := by
  have hadvance : ∀ u : State, u.pc = s.pc → u.itstate = s.itstate →
      (advance f.iset u).pc = s.pc + 4#32 ∧ (advance f.iset u).itstate = (advance f.iset s).itstate := by
    intro u hpc hit
    simp only [advance, hpc, hit, and_self]
  rcases vst1_next h with ⟨-, rfl⟩ | ⟨-, -, -, -, ⟨-, rfl⟩ | ⟨-, -, -, rfl⟩⟩ | ⟨-, htransfer⟩
  · exact hadvance s rfl rfl
  · exact hadvance s rfl rfl
  · exact hadvance _ (by rw [disturbed_frame]) (by rw [disturbed_frame])
  · obtain ⟨-, -, rfl⟩ := (vst1Transfer_next_iff f s t).1 htransfer
    exact hadvance _ (by rw [Form.writeback_frame]) (by rw [Form.writeback_frame])

/-- The memory a VST1 that goes on leaves: as before, with footprint bytes UNKNOWN, or with bytes written to allocated
addresses below the top (R81, R87). -/
theorem vst1_next_mem {f : Form} {s t : State} (h : vst1 f s = .next t) :
    t.mem = s.mem ∨ t.mem = (unknownBytes (Form.footprint f s) s).mem ∨
    ∃ a bs, t.mem = s.mem.writeBytes a bs ∧ a + bs.length ≤ 2 ^ 32 ∧
      ∀ k < bs.length, allocated s.cfg (a + k) = true := by
  rcases vst1_next h with ⟨-, rfl⟩ | ⟨-, -, -, -, ⟨-, rfl⟩ | ⟨-, -, -, rfl⟩⟩ | ⟨-, htransfer⟩
  · exact .inl rfl
  · exact .inl rfl
  · exact .inr (.inl (by rw [advance_mem, disturbed_frame]))
  · obtain ⟨hclear, hadm, -⟩ := (vst1Transfer_next_iff f s t).1 htransfer
    refine .inr (.inr ⟨_, _, (vst1Transfer_next_mem htransfer).1, ?_, fun k hk => ?_⟩)
    · rw [Form.image_length]; exact hclear.noWrap
    · rw [Form.image_length] at hk; exact allocated_of_admitted hadm hk

theorem vst1_next_cfg {f : Form} {s t : State} (h : vst1 f s = .next t) : t.cfg = s.cfg := by
  obtain ⟨-, -, -, -, -, -, -, hcfg, -⟩ := (vst1_framed h).elsewhere
  exact hcfg

/-- Memory stays in canonical form. -/
theorem vst1_next_wf {f : Form} {s t : State} (h : vst1 f s = .next t) (hwf : s.mem.wf = true) :
    t.mem.wf = true := by
  rcases vst1_next_mem h with hm | hm | ⟨a, bs, hm, htop, -⟩ <;> rw [hm]
  · exact hwf
  · exact unknownBytes_wf _ s hwf
  · exact Memory.wf_writeBytes hwf a bs htop

/-- Memory lists only allocated addresses. -/
theorem vst1_next_memAllocated {f : Form} {s t : State} (h : vst1 f s = .next t) (halloc : s.memAllocated = true) :
    t.memAllocated = true := by
  rw [State.memAllocated, vst1_next_cfg h]
  rcases vst1_next_mem h with hm | hm | ⟨a, bs, hm, -, hbs⟩ <;> rw [hm]
  · exact halloc
  · have hun := unknownBytes_memAllocated (Form.footprint f s) s halloc
    rwa [State.memAllocated, unknownBytes_frame] at hun
  · exact Memory.all_writeBytes (p := allocated s.cfg) halloc a bs hbs

/-- A step that goes on is one VST1 of the current instruction set, at a usable `pc`. -/
theorem step_next_vst1 {s t : State} (h : step s = .next t) :
    s.pcUsable = true ∧ ∃ f : Form, f.iset = s.iset ∧ vst1 f s = .next t := by
  obtain ⟨bs, i, rest, hf, hd, hexec⟩ := step_next h
  refine ⟨((fetch_ok_iff s bs).1 hf).1, i.form, ?_, exec_eq_vst1 i s ▸ hexec⟩
  unfold decodeBytes at hd
  split at hd
  · split at hd
    · cases hd
    · rename_i hword
      cases hd
      exact ((decode_ok_iff_encode _ _ _).1 hword).1
  · cases hd

/-- `pc` goes on by 4, and a usable one leaves room for it (20_memory.md R51). -/
theorem step_next_pc {s t : State} (h : step s = .next t) : t.pc.toNat = s.pc.toNat + 4 := by
  obtain ⟨hpc, f, -, hvst1⟩ := step_next_vst1 h
  obtain ⟨-, htop, -⟩ := (pcUsable_iff s).1 hpc
  rw [(vst1_next_advances hvst1).1]
  exact toNat_add_ofNat (by omega)

/-- The four parts of the invariant. -/
theorem State.inv_iff (s : State) :
    s.inv = true ↔ s.mem.wf = true ∧ s.memAllocated = true ∧ s.pcAligned = true ∧ s.itstateOk = true := by
  simp only [State.inv, Bool.and_eq_true, and_assoc]

/-- `pc` stays aligned: 4 is a multiple of either alignment. -/
theorem step_keeps_pcAligned {s t : State} (h : step s = .next t) (hal : s.pcAligned = true) :
    t.pcAligned = true := by
  obtain ⟨f, hframed⟩ := step_framed h
  obtain ⟨-, -, -, -, -, hiset, -⟩ := hframed.elsewhere
  simp only [State.pcAligned, decide_eq_true_eq] at hal ⊢
  rw [step_next_pc h, hiset]
  revert hal
  cases s.iset <;> (simp only [ISet.pcAlignment_a32, ISet.pcAlignment_t32]; omega)

/-- `ITSTATE` stays legal: zero in A32, and in T32 by `itstateLegal_advanceIT`. -/
theorem step_keeps_itstateOk {s t : State} (h : step s = .next t) (hit : s.itstateOk = true) :
    t.itstateOk = true := by
  obtain ⟨-, f, hf, hvst1⟩ := step_next_vst1 h
  obtain ⟨-, -, -, -, -, hiset, -⟩ := (vst1_framed hvst1).elsewhere
  have hadvance := (vst1_next_advances hvst1).2
  rw [hf] at hadvance
  unfold State.itstateOk at hit ⊢
  rw [hiset, hadvance]
  cases hs : s.iset with
  | a32 => rw [hs] at hit; exact hit
  | t32 => rw [hs] at hit; exact itstateLegal_advanceIT hit

theorem step_keeps_inv {s t : State} (h : step s = .next t) (hinv : s.inv = true) : t.inv = true := by
  obtain ⟨hwf, halloc, hal, hit⟩ := (State.inv_iff s).1 hinv
  obtain ⟨-, f, -, hvst1⟩ := step_next_vst1 h
  exact (State.inv_iff t).2 ⟨vst1_next_wf hvst1 hwf, vst1_next_memAllocated hvst1 halloc, step_keeps_pcAligned h hal,
    step_keeps_itstateOk h hit⟩

/-- A run of `k + 1` steps that goes on is one step and a run of `k`, of any machine. -/
theorem run_succ {M : Host.Core} {k : Nat} {s t : M.State} (h : M.run (k + 1) s = .next t) :
    ∃ u, M.step s = .next u ∧ M.run k u = .next t := by
  rw [Host.Core.run] at h
  split at h
  · exact ⟨_, ‹_›, h⟩
  · cases h
  · cases h

end Sys2Proof.Machine

namespace Sys2Proof.Claims

open Sys2Proof.Machine

theorem SameElsewhere.trans {s t u : State} (h : SameElsewhere s t) (h' : SameElsewhere t u) : SameElsewhere s u := by
  obtain ⟨hn, hz, hc, hv, hel, hiset, hbig, hcfg, hmarks⟩ := h
  obtain ⟨hn', hz', hc', hv', hel', hiset', hbig', hcfg', hmarks'⟩ := h'
  exact ⟨hn'.trans hn, hz'.trans hz, hc'.trans hc, hv'.trans hv, hel'.trans hel, hiset'.trans hiset,
    hbig'.trans hbig, hcfg'.trans hcfg, by rw [hmarks', hmarks]⟩

end Sys2Proof.Claims
end

section
/-! SUPPORT. What the checks of the transfer answer, one equation each (40_vst1_operation.md R77 items 7 to 12), and
its image in little-endian (R87). -/

namespace Sys2Proof.Machine

open Sys2Proof.Claims

/-- In little-endian the image does not depend on the element size: byte `8r + j` is byte `j` of register `d + r`. -/
theorem Form.image_of_little {s : State} (hbig : s.bigendian = false) (f : Form) (size : ElemSize) :
    Form.image { f with size := size } s = Form.image f s := by
  refine List.ext_getElem? fun k => ?_
  rcases Nat.lt_or_ge k (Form.transfer f) with hk | hk
  · have hr : k / 8 < ListLen.regs f.len := by unfold Form.transfer at hk; omega
    have hj : k % 8 < 8 := Nat.mod_lt k (by decide)
    rw [← Nat.div_add_mod k 8, Form.image_getElem f s _ _ hr hj, Form.image_getElem { f with size := size } s _ _ hr hj,
      hbig]
    rfl
  · have hlen : (Form.image { f with size := size } s).length = Form.transfer f := Form.image_length _ s
    rw [List.getElem?_eq_none (hlen ▸ hk), List.getElem?_eq_none ((Form.image_length f s).symm ▸ hk)]

/-- The checks before the first store, in their order: an alignment is violated, the footprint passes the top, it meets
the program, or the transfer is clear. -/
theorem Form.clear_or (f : Form) (s : State) :
    ((s.readR f.rn).toNat % Align.bytes f.align ≠ 0 ∨
      s.cfg.alignEnforced = true ∧ (s.readR f.rn).toNat % ElemSize.ebytes f.size ≠ 0) ∨
    (((s.readR f.rn).toNat % Align.bytes f.align = 0 ∧
        (s.cfg.alignEnforced = true → (s.readR f.rn).toNat % ElemSize.ebytes f.size = 0)) ∧
      (2 ^ 32 < (s.readR f.rn).toNat + Form.transfer f ∨
        (s.readR f.rn).toNat + Form.transfer f ≤ 2 ^ 32 ∧
          Region.meets s.cfg.text (s.readR f.rn).toNat (Form.transfer f) = true)) ∨
    Form.Clear f s := by
  by_cases hal : (s.readR f.rn).toNat % Align.bytes f.align ≠ 0 ∨
      s.cfg.alignEnforced = true ∧ (s.readR f.rn).toNat % ElemSize.ebytes f.size ≠ 0
  · exact .inl hal
  simp only [not_or, not_and, not_not, ne_eq] at hal
  rcases Nat.lt_or_ge (2 ^ 32) ((s.readR f.rn).toNat + Form.transfer f) with hwrap | hwrap
  · exact .inr (.inl ⟨hal, .inl hwrap⟩)
  cases htext : Region.meets s.cfg.text (s.readR f.rn).toNat (Form.transfer f) with
  | true => exact .inr (.inl ⟨hal, .inr ⟨hwrap, rfl⟩⟩)
  | false => exact .inr (.inr ⟨hal.1, hal.2, hwrap, htext⟩)

/-- Either alignment violated is the same fault at the base address (R85, 20_memory.md R40). -/
theorem vst1Transfer_of_misaligned {f : Form} {s : State}
    (h : (s.readR f.rn).toNat % Align.bytes f.align ≠ 0 ∨
      s.cfg.alignEnforced = true ∧ (s.readR f.rn).toNat % ElemSize.ebytes f.size ≠ 0) :
    vst1Transfer f s = .fault (.alignmentAbort ((s.readR f.rn).setWidth 64) s.storeDescriptor) := by
  unfold vst1Transfer
  by_cases hwhole : (s.readR f.rn).toNat % Align.bytes f.align ≠ 0
  · exact if_pos hwhole
  · exact (if_neg hwhole).trans (if_pos (h.resolve_left hwhole))

/-- A clear transfer comes to its store loop. -/
theorem vst1Transfer_of_clear {f : Form} {s : State} (h : Form.Clear f s) :
    (∀ stop, storeAll (Form.stores f s) s = .error stop → vst1Transfer f s = .fault (storeFault f s stop)) ∧
    (∀ t, storeAll (Form.stores f s) s = .ok t → vst1Transfer f s = .next (advance f.iset (Form.writeback f t))) := by
  have hwrap := h.noWrap
  unfold vst1Transfer
  rw [if_neg (not_not.2 h.whole), if_neg fun ⟨he, hne⟩ => hne (h.element he), if_neg (Nat.not_lt.2 hwrap), h.notText,
    if_neg Bool.false_ne_true]
  exact ⟨fun stop hstop => by rw [hstop]; rfl, fun t ht => by rw [ht]⟩

theorem vst1Enabled_of_unwritten {f : Form} {s : State} {x : RegName} (h : s.firstUnwritten (Form.reads f) = some x) :
    vst1Enabled f s = .fault (.unwrittenRegister x) := by rw [vst1Enabled, h]; rfl

theorem vst1Enabled_of_written {f : Form} {s : State} (h : s.firstUnwritten (Form.reads f) = none) :
    vst1Enabled f s = vst1Transfer f s := by rw [vst1Enabled, h]

end Sys2Proof.Machine
end

section
/-! SUPPORT. The bytes a completed transfer leaves and the register they came from (40_vst1_operation.md R87,
95_test_vectors.md V73). -/

namespace Sys2Proof.Claims

open Sys2Proof.Machine

/-- In little-endian, and with 8-bit elements in either byte order, byte `j` of the register lands at `j`. -/
theorem registerByte_straight {big : Bool} {ebytes : Nat} (h : big = false ∨ ebytes = 1) (v : DWord) (j : Nat) :
    registerByte big ebytes v j = v.extractLsb' (8 * j) 8 := by
  unfold registerByte
  rcases h with rfl | rfl
  · rfl
  · cases big <;> simp [Nat.mod_one]

/-- In big-endian byte `k` of element `e` is that element's byte from its other end. -/
theorem registerByte_big {ebytes e k : Nat} (hk : k < ebytes) (v : DWord) :
    registerByte true ebytes v (e * ebytes + k) = v.extractLsb' (8 * (e * ebytes + (ebytes - 1 - k))) 8 := by
  have hdiv : (e * ebytes + k) / ebytes = e := by
    rw [Nat.mul_comm, Nat.mul_add_div (by omega), Nat.div_eq_of_lt hk, Nat.add_zero]
  have hmod : (e * ebytes + k) % ebytes = k := by rw [Nat.mul_comm, Nat.mul_add_mod, Nat.mod_eq_of_lt hk]
  simp only [registerByte, hdiv, hmod, if_true]

/-- A 64-bit element in big-endian is the register reversed. -/
theorem registerByte_reversed {j : Nat} (hj : j < 8) (v : DWord) :
    registerByte true 8 v j = v.extractLsb' (8 * (7 - j)) 8 := by
  have h := registerByte_big (e := 0) hj v
  simpa using h

/-- A doubleword is its eight bytes side by side. -/
theorem dword_of_bytes (v : DWord) :
    v = v.extractLsb' 56 8 ++ v.extractLsb' 48 8 ++ v.extractLsb' 40 8 ++ v.extractLsb' 32 8 ++ v.extractLsb' 24 8 ++
      v.extractLsb' 16 8 ++ v.extractLsb' 8 8 ++ v.extractLsb' 0 8 := by
  rw [extract_append_extract v 48 8 8, extract_append_extract v 40 8 16, extract_append_extract v 32 8 24,
    extract_append_extract v 24 8 32, extract_append_extract v 16 8 40, extract_append_extract v 8 8 48,
    extract_append_extract v 0 8 56]
  exact (extract_whole v).symm

/-- An address from the end of the footprint on keeps its byte. -/
theorem byteAt_above_of_vst1Transfer {f : Form} {s t : State} (h : vst1Transfer f s = .next t) {a : Nat}
    (ha : (s.readR f.rn).toNat + Form.transfer f ≤ a) : byteAt t a = byteAt s a := by
  obtain ⟨hmem, hcfg⟩ := vst1Transfer_next_mem h
  exact State.byte_congr hcfg (by
    rw [hmem, Memory.read_writeBytes_above _ _ _ _ (by rw [Form.image_length]; exact ha)])

/-- The base register after a completed transfer, by the field `Rm` (R88). -/
theorem readR_base_of_vst1Transfer {f : Form} {s t : State} (h : vst1Transfer f s = .next t) :
    t.readR f.rn = if f.rm = 15 then s.readR f.rn
      else if f.rm = 13 then s.readR f.rn + BitVec.ofNat 32 (Form.transfer f)
      else s.readR f.rn + s.readR f.rm := by
  obtain ⟨-, -, rfl⟩ := (vst1Transfer_next_iff f s t).1 h
  rw [readR_advance, Form.writeback_base]
  rfl

end Sys2Proof.Claims
end

section
/-! SUPPORT. Two runs that decide alike: the checks of a VST1 read neither the instruction set, once the condition has
passed, nor the contents of the D registers (40_vst1_operation.md R77, R92, R94). One walk through the checks carries a
relation between the outcomes; it is used for the A32 and the T32 encoding of the same fields at one state
(95_test_vectors.md V73), and for one encoding at two states that differ in the D registers. -/

namespace Sys2Proof.Machine

open Sys2Proof.Claims

/-- A fault raised with other contents of the D registers: the state an abort leaves has those contents. -/
def Fault.withD (x : Vector DWord 32) : Fault → Fault
  | .memoryAbort kind a desc left => .memoryAbort kind a desc { left with d := x }
  | r => r

/-- A relation between outcomes that holds of each stop that carries no state, for the same stop on both sides. -/
structure StopsAlike (R : Host.Outcome State Fault Refusal → Host.Outcome State Fault Refusal → Prop) : Prop where
  fault : ∀ r, (∀ x, Fault.withD x r = r) → R (.fault r) (.fault r)
  refused : ∀ r, R (.refused r) (.refused r)

section
variable {R : Host.Outcome State Fault Refusal → Host.Outcome State Fault Refusal → Prop} (hstop : StopsAlike R)
  (f : Form) (k : ISet) (s : State) (x : Vector DWord 32)

include hstop

/-- The checks before the first store, on both sides the same. -/
theorem StopsAlike.transfer
    (hclear : Form.Clear f s → R (vst1Transfer f s) (vst1Transfer { f with iset := k } { s with d := x })) :
    R (vst1Transfer f s) (vst1Transfer { f with iset := k } { s with d := x }) := by
  rcases Form.clear_or f s with hal | ⟨⟨hwhole, helem⟩, hwrap | ⟨hwrap, htext⟩⟩ | h
  · rw [vst1Transfer_of_misaligned hal,
      vst1Transfer_of_misaligned (f := { f with iset := k }) (s := { s with d := x }) hal]
    exact hstop.fault _ fun _ => rfl
  · rw [vst1Transfer_wraps hwhole helem hwrap,
      vst1Transfer_wraps (f := { f with iset := k }) (s := { s with d := x }) hwhole helem hwrap]
    exact hstop.fault _ fun _ => rfl
  · rw [(vst1Transfer_refused_iff f s _).2 ⟨rfl, hwhole, helem, hwrap, htext⟩,
      (vst1Transfer_refused_iff { f with iset := k } { s with d := x } _).2 ⟨rfl, hwhole, helem, hwrap, htext⟩]
    exact hstop.refused _
  · exact hclear h

/-- The settings of `cu_dregs`, on both sides the same. -/
theorem StopsAlike.pastD31 (hnop : R (.next (advance f.iset s)) (.next (advance k { s with d := x })))
    (hdisturbed : R (.next (advance f.iset (Form.disturbed f s)))
      (.next (advance k (Form.disturbed f { s with d := x })))) :
    R (vst1PastD31 f s) (vst1PastD31 { f with iset := k } { s with d := x }) := by
  obtain ⟨hfault, hundef, hskip⟩ := vst1PastD31_of_setting f s
  obtain ⟨hfault', hundef', hskip'⟩ := vst1PastD31_of_setting { f with iset := k } { s with d := x }
  cases hcu : s.cfg.cuDregs with
  | fault => rw [hfault hcu, hfault' hcu]; exact hstop.fault _ fun _ => rfl
  | undef => rw [hundef hcu, hundef' hcu]; exact hstop.fault _ fun _ => rfl
  | nop => rw [hskip hcu, hskip' hcu]; exact hnop
  | unknown =>
    cases hw : s.written (.r f.rn) with
    | false =>
      rw [vst1PastD31_of_unwritten hcu hw,
        vst1PastD31_of_unwritten (f := { f with iset := k }) (s := { s with d := x }) hcu hw]
      exact hstop.fault _ fun _ => rfl
    | true =>
      by_cases htext : ∃ a ∈ Form.footprint f s, Region.contains s.cfg.text a = true
      · rw [vst1PastD31_of_text hcu hw htext,
          vst1PastD31_of_text (f := { f with iset := k }) (s := { s with d := x }) hcu hw htext]
        exact hstop.refused _
      · have hno : ∀ a ∈ Form.footprint f s, Region.contains s.cfg.text a = false := by simpa using htext
        rw [vst1PastD31_disturbs hcu hw hno,
          vst1PastD31_disturbs (f := { f with iset := k }) (s := { s with d := x }) hcu hw hno]
        exact hdisturbed

/-- The whole walk, once the condition has passed. -/
theorem StopsAlike.passed (hnop : R (.next (advance f.iset s)) (.next (advance k { s with d := x })))
    (hdisturbed : R (.next (advance f.iset (Form.disturbed f s)))
      (.next (advance k (Form.disturbed f { s with d := x }))))
    (hclear : Form.Clear f s → R (vst1Transfer f s) (vst1Transfer { f with iset := k } { s with d := x })) :
    R (vst1Passed f s) (vst1Passed { f with iset := k } { s with d := x }) := by
  cases hdef : Form.alignUndefined f with
  | true =>
    rw [vst1Passed_of_alignUndefined hdef, vst1Passed_of_alignUndefined (f := { f with iset := k }) hdef]
    exact hstop.fault _ fun _ => rfl
  | false =>
    by_cases hbase : f.rn = 15
    · rw [vst1Passed_of_base15 hdef hbase, vst1Passed_of_base15 (f := { f with iset := k }) hdef hbase]
      exact hstop.fault _ fun _ => rfl
    rcases Nat.lt_or_ge 32 (f.dd.val + ListLen.regs f.len) with hlist | hlist
    · rw [vst1Passed_of_pastD31 hdef hbase hlist,
        vst1Passed_of_pastD31 (f := { f with iset := k }) hdef hbase hlist]
      exact hstop.pastD31 f k s x hnop hdisturbed
    obtain ⟨hun, htrap, hen⟩ := vst1Passed_of_clean (s := s) hdef hbase hlist
    obtain ⟨hun', htrap', hen'⟩ :=
      vst1Passed_of_clean (f := { f with iset := k }) (s := { s with d := x }) hdef hbase hlist
    cases haccess : s.advSIMDAccess with
    | undefined => rw [hun haccess, hun' haccess]; exact hstop.fault _ fun _ => rfl
    | hypTrap => rw [htrap haccess, htrap' haccess]; exact hstop.fault _ fun _ => rfl
    | enabled =>
      rw [hen haccess, hen' haccess]
      have hsame : State.firstUnwritten { s with d := x } (Form.reads f) = s.firstUnwritten (Form.reads f) := rfl
      cases hfirst : s.firstUnwritten (Form.reads f) with
      | some y =>
        rw [vst1Enabled_of_unwritten hfirst,
          vst1Enabled_of_unwritten (f := { f with iset := k }) (hsame.trans hfirst)]
        exact hstop.fault _ fun _ => rfl
      | none =>
        rw [vst1Enabled_of_written hfirst, vst1Enabled_of_written (f := { f with iset := k }) (hsame.trans hfirst)]
        exact hstop.transfer f k s x hclear

end

/-! ## The two encodings of the same fields -/

/-- The outcome of the T32 encoding, from that of the A32 encoding: a next state has `ITSTATE` advanced as well. -/
def inT32 : Host.Outcome State Fault Refusal → Host.Outcome State Fault Refusal
  | .next t => .next { t with itstate := advanceIT t.itstate }
  | .fault r => .fault r
  | .refused r => .refused r

theorem stopsAlike_inT32 : StopsAlike fun a b => b = inT32 a := ⟨fun _ _ => rfl, fun _ => rfl⟩

/-- A clear transfer reaches the same end of the store loop; only the advance reads the instruction set. -/
theorem vst1Transfer_t32 {f : Form} {s : State} (ha : f.iset = .a32) (h : Form.Clear f s) :
    vst1Transfer { f with iset := .t32 } s = inT32 (vst1Transfer f s) := by
  obtain ⟨hstop, hok⟩ := vst1Transfer_of_clear h
  obtain ⟨hstop', hok'⟩ :=
    vst1Transfer_of_clear (f := { f with iset := .t32 }) ⟨h.whole, h.element, h.noWrap, h.notText⟩
  cases hloop : storeAll (Form.stores f s) s with
  | error stop =>
    rw [hstop stop hloop, hstop' stop hloop]
    cases stop <;> rfl
  | ok t =>
    rw [hok t hloop, hok' t hloop, ha]
    rfl

/-- With the condition passed the T32 encoding does what the A32 encoding does. -/
theorem vst1Passed_t32 {f : Form} (ha : f.iset = .a32) (s : State) :
    vst1Passed { f with iset := .t32 } s = inT32 (vst1Passed f s) :=
  stopsAlike_inT32.passed f .t32 s s.d (by rw [ha]; rfl) (by rw [ha]; rfl) (vst1Transfer_t32 ha)

/-! ## The same encoding with other contents of the D registers -/

/-- The outcomes of two runs whose states differ in the D registers only, `x` on the right: next states that differ in
the D registers and in memory, the same fault, or the same refusal. -/
inductive SteeredAlike (x : Vector DWord 32) :
    Host.Outcome State Fault Refusal → Host.Outcome State Fault Refusal → Prop where
  | next (t : State) (d : Vector DWord 32) (m : Memory) : SteeredAlike x (.next t) (.next { t with d := d, mem := m })
  | fault (r : Fault) : SteeredAlike x (.fault r) (.fault (Fault.withD x r))
  | refused (r : Refusal) : SteeredAlike x (.refused r) (.refused r)

theorem Fault.withD_of_not_abort {x : Vector DWord 32} {r : Fault}
    (h : ∀ kind a desc left, r ≠ .memoryAbort kind a desc left) : Fault.withD x r = r := by
  cases r with
  | memoryAbort kind a desc left => exact absurd rfl (h kind a desc left)
  | _ => rfl

theorem stopsAlike_steeredAlike (x : Vector DWord 32) : StopsAlike (SteeredAlike x) where
  fault r h := by
    have hsame := SteeredAlike.fault (x := x) r
    rwa [h x] at hsame
  refused := .refused

/-- Drawing UNKNOWN bytes does not look at the D registers. -/
theorem unknownBytes_withD (as : List Nat) (s : State) (x : Vector DWord 32) :
    unknownBytes as { s with d := x } = { unknownBytes as s with d := x } := by
  induction as generalizing s with
  | nil => rfl
  | cons a as ih =>
    have hadmit : memAdmit s.cfg a 1 (State.privileged { s with d := x }) = memAdmit s.cfg a 1 s.privileged := rfl
    simp only [unknownBytes, hadmit]
    cases memAdmit s.cfg a 1 s.privileged with
    | ok => exact ih { s with mem := s.mem.write a (Config.unknownByte s.draws), draws := s.draws + 1 }
    | abort kind => exact ih s

/-- Drawing UNKNOWN registers marks and counts the same whatever they held. -/
theorem unknownDRegs_withD (is : List DReg) (s : State) (x : Vector DWord 32) :
    ∃ d, unknownDRegs is { s with d := x } = { unknownDRegs is s with d := d } := by
  induction is generalizing s x with
  | nil => exact ⟨x, rfl⟩
  | cons i is ih => exact ih { State.writeD s i (Config.unknownDWord s.draws) with draws := s.draws + 1 } _

theorem disturbed_withD (f : Form) (s : State) (x : Vector DWord 32) :
    ∃ d, Form.disturbed f { s with d := x } = { Form.disturbed f s with d := d } := by
  obtain ⟨d, hd⟩ := unknownDRegs_withD (Form.dregs f) (unknownBytes (Form.footprint f s) s) x
  rw [← unknownBytes_withD] at hd
  refine ⟨d, ?_⟩
  have hfoot : Form.footprint f { s with d := x } = Form.footprint f s := rfl
  unfold Form.disturbed
  rw [hfoot, hd]
  cases Form.wback f <;> rfl

/-- One store: whether it happens depends neither on the value nor on the contents of memory. -/
theorem memWrite_withD (s : State) (x : Vector DWord 32) (m : Memory) (addr : Word) (n : Nat) (v v' : DWord) :
    (∃ stop, memWrite s addr n v = .error stop ∧ memWrite { s with d := x, mem := m } addr n v' = .error stop) ∨
    (∃ m₁ m₂, memWrite s addr n v = .ok { s with mem := m₁ } ∧
      memWrite { s with d := x, mem := m } addr n v' = .ok { s with d := x, mem := m₂ }) := by
  have hpriv : State.privileged { s with d := x, mem := m } = s.privileged := rfl
  unfold memWrite
  simp only [hpriv]
  split
  · exact .inl ⟨_, rfl, rfl⟩
  split
  · exact .inl ⟨_, rfl, rfl⟩
  cases memAdmit s.cfg addr.toNat n s.privileged with
  | abort kind => exact .inl ⟨_, rfl, rfl⟩
  | ok => exact .inr ⟨_, _, rfl, rfl⟩

/-- The store loop: two lists with the same addresses and widths stop at the same store, or both complete. -/
theorem storeAll_withD {xs ys : List Store}
    (h : ys.map (fun y => (y.addr, y.width)) = xs.map (fun y => (y.addr, y.width))) (s : State) (x : Vector DWord 32)
    (m : Memory) :
    (∃ stop, storeAll xs s = .error stop ∧ storeAll ys { s with d := x, mem := m } = .error stop) ∨
    (∃ m₁ m₂, storeAll xs s = .ok { s with mem := m₁ } ∧
      storeAll ys { s with d := x, mem := m } = .ok { s with d := x, mem := m₂ }) := by
  induction xs generalizing ys s m with
  | nil =>
    obtain rfl : ys = [] := by simpa using h
    exact .inr ⟨s.mem, m, rfl, rfl⟩
  | cons z xs ih =>
    cases ys with
    | nil => simp at h
    | cons y ys =>
      simp only [List.map_cons, List.cons.injEq, Prod.mk.injEq] at h
      obtain ⟨⟨haddr, hwidth⟩, htail⟩ := h
      rcases memWrite_withD s x m z.addr z.width z.value y.value with ⟨stop, hz, hy⟩ | ⟨m₁, m₂, hz, hy⟩
      · exact .inl ⟨stop, by rw [storeAll, hz], by rw [storeAll, haddr, hwidth, hy]⟩
      · simp only [storeAll, hz, haddr, hwidth, hy]
        exact ih htail { s with mem := m₁ } m₂

/-- The fault of a store that does not happen (20_memory.md R37, R47). -/
theorem storeFault_withD (f : Form) (s : State) (x : Vector DWord 32) (stop : StoreStop) :
    storeFault f { s with d := x } stop = Fault.withD x (storeFault f s stop) := by
  cases stop with
  | alignment address => rfl
  | wrap => rfl
  | abort kind address => exact congrArg (Fault.memoryAbort kind _ _) (unknownBytes_withD (Form.footprint f s) s x)

/-- The accesses of the transfer are at the same addresses, so the store loops end alike; the writeback adds the same. -/
theorem vst1Transfer_withD {f : Form} {s : State} (x : Vector DWord 32) (h : Form.Clear f s) :
    SteeredAlike x (vst1Transfer f s) (vst1Transfer f { s with d := x }) := by
  obtain ⟨hstop, hok⟩ := vst1Transfer_of_clear h
  obtain ⟨hstop', hok'⟩ :=
    vst1Transfer_of_clear (f := f) (s := { s with d := x }) ⟨h.whole, h.element, h.noWrap, h.notText⟩
  have haddrs := (Form.stores_addresses f { s with d := x }).trans (Form.stores_addresses f s).symm
  rcases storeAll_withD haddrs s x s.mem with ⟨stop, hs, hx⟩ | ⟨m₁, m₂, hs, hx⟩
  · rw [hstop stop hs, hstop' stop hx, storeFault_withD f s x stop]
    exact .fault _
  · have hback : Form.writeback f { s with d := x, mem := m₂ } =
        { Form.writeback f { s with mem := m₁ } with d := x, mem := m₂ } := by
      unfold Form.writeback
      split
      · split <;> rfl
      · rfl
    rw [hok _ hs, hok' _ hx, hback]
    exact .next _ x m₂

/-- The contents of the D registers decide nothing but what is stored (R92). -/
theorem vst1_withD (f : Form) (s : State) (x : Vector DWord 32) :
    SteeredAlike x (vst1 f s) (vst1 f { s with d := x }) := by
  have hsame : conditionPassed f.iset { s with d := x } = conditionPassed f.iset s := by cases f.iset <;> rfl
  have hnop : SteeredAlike x (.next (advance f.iset s)) (.next (advance f.iset { s with d := x })) :=
    .next (advance f.iset s) x s.mem
  cases hcond : conditionPassed f.iset s with
  | error stop =>
    rw [vst1, vst1, hsame, hcond]
    cases stop with
    | badITSTATE => exact .refused _
    | unwritten flag => exact .fault _
  | ok passes =>
    cases passes with
    | false =>
      rw [vst1_of_condition_fails hcond, vst1_of_condition_fails (hsame.trans hcond)]
      exact hnop
    | true =>
      rw [vst1_of_condition_passes hcond, vst1_of_condition_passes (hsame.trans hcond)]
      obtain ⟨d, hd⟩ := disturbed_withD f s x
      refine (stopsAlike_steeredAlike x).passed f f.iset s x hnop ?_ (vst1Transfer_withD x)
      rw [hd]
      exact .next (advance f.iset (Form.disturbed f s)) d _

end Sys2Proof.Machine
end

section
/-! SUPPORT. The UNKNOWN option of `cu_dregs` and the refusals, in the words of the statements (40_vst1_operation.md R81,
R93). -/

namespace Sys2Proof.Claims

open Sys2Proof.Machine

/-- The footprint has an address with a property: the statements name it by its offset. -/
theorem exists_mem_footprint_iff (i : Instr) (s : State) (p : Nat → Prop) :
    (∃ a ∈ Form.footprint i.form s, p a) ↔ ∃ j < 8 * regs i, p (footprintAt i s j) := by
  simp only [mem_footprint_iff]
  constructor
  · rintro ⟨_, ⟨j, hj, rfl⟩, hp⟩
    exact ⟨j, hj, hp⟩
  · rintro ⟨j, hj, hp⟩
    exact ⟨_, ⟨j, hj, rfl⟩, hp⟩

/-- The same for every address of the footprint. -/
theorem forall_mem_footprint_iff (i : Instr) (s : State) (p : Nat → Prop) :
    (∀ a ∈ Form.footprint i.form s, p a) ↔ ∀ j < 8 * regs i, p (footprintAt i s j) := by
  simpa using not_congr (exists_mem_footprint_iff i s fun a => ¬ p a)

/-- What the UNKNOWN option leaves of memory: the admitted footprint bytes free, the others as before. -/
theorem footprintUnknown_disturbed (i : Instr) (s : State) :
    FootprintUnknown i s (advance i.form.iset (Form.disturbed i.form s)) := by
  intro a
  have hbyte : byteAt (advance i.form.iset (Form.disturbed i.form s)) a =
      (unknownBytes (Form.footprint i.form s) s).byte a :=
    State.byte_congr (by rw [advance_cfg, disturbed_frame, unknownBytes_frame])
      (by rw [advance_mem, disturbed_frame])
  rw [hbyte, ← mem_footprint_iff]
  exact byte_unknownBytes (Form.footprint i.form s) s a

/-- The registers of the list are written and hold free values after the UNKNOWN option. -/
theorem disturbed_listed {f : Form} (s : State) {k : DReg} (hk : k ∈ Form.dregs f) :
    (Form.disturbed f s).written (.d k) = true ∧ ∃ m, (Form.disturbed f s).readD k = Config.unknownDWord m := by
  refine ⟨?_, (disturbed_readD f s k).1 hk⟩
  rw [disturbed_written_d, decide_eq_true hk, Bool.or_true]

/-- The transfer is refused when it is aligned, ends by the top, and its footprint meets the program (20_memory.md R53). -/
theorem vst1Transfer_storeToText_iff (i : Instr) (s : State) :
    vst1Transfer i.form s = .refused .storeToText ↔
      ¬ Misaligned i s ∧ (baseOf i s).toNat + 8 * regs i ≤ 2 ^ 32 ∧
        ∃ j < 8 * regs i, Region.contains s.cfg.text ((baseOf i s).toNat + j) = true := by
  rw [vst1Transfer_refused_iff, Region.meets_iff, not_misaligned_iff, and_assoc]
  exact and_iff_right rfl

/-- An instruction is refused as `BadITSTATE` by its condition alone (R78). -/
theorem vst1_badITSTATE_iff (f : Form) (s : State) :
    vst1 f s = .refused .badITSTATE ↔ conditionPassed f.iset s = .error .badITSTATE := by
  refine ⟨fun h => ?_, vst1_of_badITSTATE⟩
  rcases vst1_refused h with ⟨-, hcond⟩ | ⟨h, -⟩
  · exact hcond
  · cases h

/-- An instruction is refused as `StoreToText` by its transfer, or under the UNKNOWN option past D31 (R53, R81). -/
theorem vst1_storeToText_iff (f : Form) (s : State) :
    vst1 f s = .refused .storeToText ↔
      (Form.Admissible f s ∧ vst1Transfer f s = .refused .storeToText) ∨
      (conditionPassed f.iset s = .ok true ∧ Form.alignUndefined f = false ∧ f.rn ≠ 15 ∧
        32 < f.dd.val + ListLen.regs f.len ∧ s.cfg.cuDregs = .unknown ∧ s.written (.r f.rn) = true ∧
        ∃ a ∈ Form.footprint f s, Region.contains s.cfg.text a = true) := by
  constructor
  · intro h
    rcases vst1_refused h with ⟨h, -⟩ | ⟨-, hcond, hdef, hbase, hpast | htransfer⟩
    · cases h
    · exact .inr ⟨hcond, hdef, hbase, hpast⟩
    · exact .inl htransfer
  · rintro (⟨hadm, h⟩ | ⟨hcond, hdef, hbase, hlist, hcu, hw, htext⟩)
    · rw [vst1_of_admissible hadm, h]
    · rw [vst1_of_condition_passes hcond, vst1Passed_of_pastD31 hdef hbase hlist, vst1PastD31_of_text hcu hw htext]

/-- Undefined Instruction is raised by `align`, by the setting UNDEF or by the enable check, in no other place
(R82, R81, R83). -/
theorem vst1_undefined {f : Form} {s : State} (h : vst1 f s = .fault .undefinedInstruction) :
    Form.alignUndefined f = true ∨ s.cfg.cuDregs = .undef ∨ s.advSIMDAccess = .undefined := by
  rcases vst1_fault h with ⟨_, h, -⟩ | ⟨-, ⟨-, h⟩ | ⟨-, h, -⟩ | ⟨-, -, -, ⟨h, -⟩ | ⟨-, h⟩ | ⟨h, -⟩⟩ |
    ⟨-, -, -, ⟨-, h⟩ | ⟨h, -⟩ | ⟨-, _, h, -⟩⟩ | ⟨-, htransfer⟩⟩
  · cases h
  · exact .inl h
  · cases h
  · cases h
  · exact .inr (.inl h)
  · cases h
  · exact .inr (.inr h)
  · cases h
  · cases h
  · rcases vst1Transfer_fault htransfer with ⟨h, -⟩ | ⟨h, -⟩ | ⟨-, _, _, -, -, -, h⟩ <;> cases h

end Sys2Proof.Claims
end

section
/-! The statements about the operation (40_vst1_operation.md). -/

namespace Sys2Proof.Claims

open Sys2Proof.Machine

/-- Settles O43: by induction on the number of steps; each adds 4 to `pc` below the top and keeps the invariant. -/
theorem runsAreStraightLine : Obligations.RunsAreStraightLine := by
  intro k
  induction k with
  | zero =>
    intro s t hinv h
    cases h
    exact ⟨by simp, by simpa using s.pc.isLt, hinv, SameElsewhere.refl s⟩
  | succ k ih =>
    intro s t hinv h
    obtain ⟨u, hstep, hrun⟩ := run_succ (M := Sys2Proof.core) h
    obtain ⟨hpc, hlt, hinv', hsame⟩ := ih u t (step_keeps_inv hstep hinv) hrun
    obtain ⟨f, hframed⟩ := step_framed hstep
    have hsum : s.pc.toNat + 4 * (k + 1) = u.pc.toNat + 4 * k := by rw [step_next_pc hstep]; ring
    rw [hsum]
    exact ⟨hpc, hlt, hinv', hframed.elsewhere.trans hsame⟩

/-- Settles O11: the condition in its four cases, and the operation's answer where it gives none or fails. -/
theorem conditionPassedRule : Obligations.ConditionPassedRule := by
  refine ⟨fun s => rfl, fun s => conditionPassed_of_written, fun i s x hiset hblock hfirst => ?_,
    fun s => conditionPassed_outside, fun i s hiset hlow hne => ?_, fun i s hiset hfails => ?_⟩
  · exact (unwrittenRegisterCauses i s x).2 (.inl ⟨hiset, hblock, hfirst⟩)
  · rw [exec_eq_vst1]
    exact vst1_of_badITSTATE ((conditionPassed_badITSTATE_iff _ s).2 ⟨hiset, hlow, hne⟩)
  · rw [← hiset] at hfails ⊢
    rw [exec_eq_vst1, advanced_eq_advance]
    exact vst1_of_condition_fails hfails

/-- Settles O12: the advance of `vst1_next_advances`, the registers by the frame, and an abort leaves the state of
`vst1_memoryAbort`. -/
theorem pcAndItstateAdvance : Obligations.PcAndItstateAdvance := by
  refine fun i s => ⟨fun t h => ?_, fun kind a desc left h => ?_⟩
  · rw [exec_eq_vst1] at h
    obtain ⟨hpc, hit⟩ := vst1_next_advances h
    have hframed := vst1_framed h
    have hit32 (ht : i.iset = .t32) : t.itstate = advanceIT s.itstate := by
      rw [hit, show i.form.iset = .t32 from ht, advance_itstate_t32]
    refine ⟨hpc, hframed.itstate, fun ht hlast => ?_, fun ht hin => ?_, hframed.regs⟩
    · rw [hit32 ht, advanceIT_of_last hlast]
    · rw [hit32 ht]; exact advanceIT_fields hin
  · rw [exec_eq_vst1] at h
    obtain ⟨-, -, rfl⟩ := vst1_memoryAbort h
    rw [unknownBytes_frame]
    exact ⟨rfl, rfl⟩

/-- Settles O19: inside the footprint the image of the completed transfer, outside it the memory as it was. -/
theorem memoryImageClosedForm : Obligations.MemoryImageClosedForm := by
  intro i s t hcond hlist h
  obtain ⟨-, hdone⟩ := transfer_of_next hcond hlist (exec_eq_vst1 i s ▸ h)
  refine ⟨fun r hr j hj => ?_, ?_⟩
  · have hbyte := byteAt_of_vst1Transfer hdone hr hj
    rw [← Nat.add_assoc] at hbyte
    refine ⟨fun hlittle => ?_, fun hbig e k hjk hk => ?_⟩
    · rwa [registerByte_straight (.inl hlittle)] at hbyte
    · rwa [hbig, hjk, registerByte_big hk, ← hjk] at hbyte
  · rintro a (hbelow | habove)
    · exact byteAt_below_of_vst1Transfer hdone hbelow
    · exact byteAt_above_of_vst1Transfer hdone habove

/-- Settles O20: the eight bytes are the register's, in the order of `registerByte_straight` or of
`registerByte_reversed`. -/
theorem storedRegistersReadBack : Obligations.StoredRegistersReadBack := by
  intro i s t hcond hlist h r hr
  obtain ⟨-, hdone⟩ := transfer_of_next hcond hlist (exec_eq_vst1 i s ▸ h)
  have hbyte (j : Nat) (hj : j < 8) := byteAt_of_vst1Transfer hdone hr hj
  simp only [← Nat.add_assoc] at hbyte
  refine ⟨_, _, _, _, _, _, _, _, hbyte 0 (by decide), hbyte 1 (by decide), hbyte 2 (by decide), hbyte 3 (by decide),
    hbyte 4 (by decide), hbyte 5 (by decide), hbyte 6 (by decide), hbyte 7 (by decide), fun hstraight => ?_,
    fun hbig hsize => ?_⟩
  · have hbytes : s.bigendian = false ∨ ElemSize.ebytes i.form.size = 1 := hstraight.imp_right fun h8 => by rw [h8]; rfl
    simp only [registerByte_straight hbytes]
    exact dword_of_bytes _
  · rw [hbig, hsize, ElemSize.ebytes_b64]
    simp (disch := decide) only [registerByte_reversed]
    exact dword_of_bytes _

/-- Settles O21: the base register of the completed transfer, and the frame for the others. -/
theorem writebackRule : Obligations.WritebackRule := by
  intro i s t hcond hlist h
  obtain ⟨-, hdone⟩ := transfer_of_next hcond hlist (exec_eq_vst1 i s ▸ h)
  have hbase := readR_base_of_vst1Transfer hdone
  refine ⟨fun h15 => ?_, readR_base_of_posti hdone, fun h13 h15 => ?_, fun k hk => (exec_framed h).regs k (.inl hk)⟩
  · rwa [if_pos h15] at hbase
  · rwa [if_neg h15, if_neg h13] at hbase

/-- Settles O26: the index case of the writeback rule at `m = n`. -/
theorem baseAsIndexDoublesTheBase : Obligations.BaseAsIndexDoublesTheBase := by
  intro i s t hmn h13 h15 hcond hlist h
  obtain ⟨-, -, hindex, -⟩ := writebackRule i s t hcond hlist h
  have hbase := hindex h13 h15
  rwa [hmn] at hbase

/-- Settles O23: both conditions fail, or both transfers complete with one image. -/
theorem elementSizeIrrelevantInLittleEndian : Obligations.ElementSizeIrrelevantInLittleEndian := by
  intro f size s t u hlittle hlist ht hu
  rw [exec_eq_vst1, Form.toInstr_form] at ht hu
  cases hcond : conditionPassed f.iset s with
  | error e => cases e <;> (rw [vst1, hcond] at ht; cases ht)
  | ok passes =>
    cases passes with
    | false =>
      rw [vst1_of_condition_fails hcond] at ht
      rw [vst1_of_condition_fails (f := { f with size := size }) hcond] at hu
      exact Host.Outcome.next.inj (ht.symm.trans hu)
    | true =>
      obtain ⟨-, ht'⟩ := transfer_of_next hcond hlist ht
      obtain ⟨-, hu'⟩ := transfer_of_next (f := { f with size := size }) hcond hlist hu
      obtain ⟨-, -, rfl⟩ := (vst1Transfer_next_iff _ s t).1 ht'
      obtain ⟨-, -, rfl⟩ := (vst1Transfer_next_iff _ s u).1 hu'
      rw [Form.image_of_little hlittle f size]
      rfl

/-- Settles O24: both conditions pass, and from there the operations agree; the A32 encoding leaves `ITSTATE`. -/
theorem a32AndT32HaveTheSameEffect : Obligations.A32AndT32HaveTheSameEffect := by
  intro f s hcond
  have ht32 : exec { f with iset := .t32 }.toInstr s = vst1Passed { f with iset := .t32 } s := by
    rw [exec_eq_vst1, Form.toInstr_form, vst1_of_condition_passes hcond]
  have ha32 : exec { f with iset := .a32 }.toInstr s = vst1Passed { f with iset := .a32 } s := by
    rw [exec_eq_vst1, Form.toInstr_form, vst1_of_condition_passes rfl]
  rw [ht32, vst1Passed_t32 (f := { f with iset := .a32 }) rfl, ← ha32]
  cases h : exec { f with iset := .a32 }.toInstr s with
  | next t =>
    have hit : t.itstate = s.itstate := (exec_framed h).itstate (by rw [Form.toInstr_form])
    simp only [inT32, hit, itAdvanced_eq_advanceIT]
  | fault r => rfl
  | refused r => rfl

/-- Settles O25: the outcomes are steered alike, and outside the footprint both runs leave memory as it was. -/
theorem storedDataDoesNotSteer : Obligations.StoredDataDoesNotSteer := by
  intro i s x
  have hsteered := vst1_withD i.form s x
  rw [← exec_eq_vst1, ← exec_eq_vst1] at hsteered
  refine ⟨fun t ht => ?_, fun kind a desc left hr => ?_, fun r hr hno => ?_, fun r hr => ?_⟩
  · rw [ht] at hsteered
    generalize hu : exec i { s with d := x } = o at hsteered
    cases hsteered with
    | next _ d m =>
      refine ⟨_, rfl, rfl, rfl, rfl, rfl, rfl, SameElsewhere.refl t, fun a ha => ?_⟩
      have houtside : a ∉ Form.footprint i.form s := fun hin => by
        obtain ⟨j, hj, hat⟩ := (mem_footprint_iff i s a).1 hin
        exact ha j hj hat
      exact ((exec_framed hu).bytes a houtside).trans ((exec_framed ht).bytes a houtside).symm
  all_goals
    rw [hr] at hsteered
    generalize exec i { s with d := x } = o at hsteered ⊢
    cases hsteered
  · rfl
  · rw [Fault.withD_of_not_abort hno]
  · rfl

/-- Settles O28: the `align` check is the first once the condition has passed, and class 4 has none. -/
theorem alignFieldUndefined : Obligations.AlignFieldUndefined := by
  refine ⟨fun i s hcond hundef => ?_, fun i s hfour h => ?_⟩
  · rw [exec_of_condPasses hcond]
    exact vst1Passed_of_alignUndefined ((alignUndefined_iff i).1 hundef)
  · have hdef : Form.alignUndefined i.form = false := by rw [Form.alignUndefined, hfour]
    rw [exec_eq_vst1] at h
    rcases vst1_undefined h with h | h | h
    · rw [hdef] at h; cases h
    · exact .inr h
    · exact .inl h

/-- Settles O29: the check of the base register follows that of `align` and comes before that of the list. -/
theorem baseRegister15IsUnpredictable : Obligations.BaseRegister15IsUnpredictable := by
  intro i s hcond hdef hbase
  rw [exec_of_condPasses hcond]
  exact vst1Passed_of_base15 ((not_alignUndefined_iff i).1 hdef) hbase

/-- Settles O30: the four settings one by one; the UNKNOWN option leaves what `Form.disturbed` and its frame say. -/
theorem registerListPastD31 : Obligations.RegisterListPastD31 := by
  intro i s hcond hdef hbase hlist
  rw [exec_of_condPasses hcond, vst1Passed_of_pastD31 ((not_alignUndefined_iff i).1 hdef) hbase hlist,
    advanced_eq_advance]
  obtain ⟨hfault, hundef, hnop⟩ := vst1PastD31_of_setting i.form s
  refine ⟨hfault, hundef, hnop, vst1PastD31_of_unwritten, fun hcu hw htext => ?_, fun hcu hw htext => ?_⟩
  · exact vst1PastD31_of_text hcu hw ((exists_mem_footprint_iff i s _).2 htext)
  · have hframed := (framed_disturbed hw hlist hcu).advance
    refine ⟨_, vst1PastD31_disturbs hcu hw ((forall_mem_footprint_iff i s _).2 htext),
      footprintUnknown_disturbed i s, fun r hr => ?_, fun k hk => ?_, disturbed_readR_base i.form s, hframed.regs,
      ?_, ?_, hframed.elsewhere⟩
    · exact disturbed_listed s ((Form.mem_dregs i.form _).2 ⟨r, hr, rfl⟩)
    · refine hframed.unlisted k fun hin => ?_
      obtain ⟨r, hr, hat⟩ := (Form.mem_dregs i.form k).1 hin
      exact hk r hr hat
    · rw [advance_pc, disturbed_frame]
    · rw [disturbed_frame]; rfl

/-- Settles O31: past a clean Decode block the enable check is the next to answer. -/
theorem enableCheckComesBeforeTheAccess : Obligations.EnableCheckComesBeforeTheAccess := by
  rintro i s ⟨hcond, hdef, hbase, hlist⟩
  rw [exec_of_condPasses hcond]
  obtain ⟨hundef, htrap, -⟩ := vst1Passed_of_clean (s := s) ((not_alignUndefined_iff i).1 hdef) hbase hlist
  exact ⟨hundef, htrap⟩

/-- Settles O37: each refusal by the one place, or the two places, that answer it. -/
theorem refusalCauses : Obligations.RefusalCauses := by
  refine fun i s => ⟨?_, ?_, fun r => exec_refused⟩
  · rw [exec_eq_vst1, vst1_badITSTATE_iff, conditionPassed_badITSTATE_iff]
    rfl
  · rw [exec_eq_vst1, vst1_storeToText_iff, vst1Transfer_storeToText_iff, ← attempts_iff_admissible,
      exists_mem_footprint_iff, ← not_alignUndefined_iff]
    rfl

end Sys2Proof.Claims
end

section
/-! SUPPORT. A VST1 whose checks pass runs to its end, and the state it leaves (40_vst1_operation.md R77, R87 to R90):
once for every instruction, then by the kind of writeback. -/

namespace Sys2Proof.Claims

open Sys2Proof.Machine

/-- The premises of the statements on state and operands, at an instruction's own fields. -/
def RunsOf (i : Instr) (s : State) : Prop := Runs (regs i) i.form.dd i.form.rn i.form.size i.form.align s

/-- The conclusion of the statements: the instruction goes on, with `newBase` in its base register and the effect of a
completed VST1 at its own fields, `pc` and `ITSTATE` advanced as its instruction set has it. -/
def Completes (i : Instr) (s : State) (newBase : Word) : Prop :=
  ∃ t, exec i s = .next t ∧
    Effect (regs i) i.form.dd i.form.rn i.form.size newBase (advanced i.iset s).itstate s t

/-- The checks before the transfer pass (R77 items 1 to 6); of the registers read, only the index register is not among
the premises. -/
theorem RunsOf.admissible {i : Instr} {s : State} (h : RunsOf i s) (hcond : CondPasses i s)
    (hdef : ¬ AlignUndefined i) (hindex : i.form.rm ≠ 13 → i.form.rm ≠ 15 → s.written (.r i.form.rm) = true) :
    Form.Admissible i.form s where
  condition := hcond
  defined := (not_alignUndefined_iff i).1 hdef
  base := h.base
  list := h.list
  enabled := h.enabled
  written := (Form.reads_written i.form s).2 ⟨h.baseWritten, h.listWritten, hindex⟩

/-- The checks before the first store pass (R77 items 7 to 10). -/
theorem RunsOf.clear {i : Instr} {s : State} (h : RunsOf i s) : Form.Clear i.form s where
  whole := h.whole
  element := h.element
  noWrap := h.noWrap
  notText := (Region.meets_eq_false_iff ..).2 h.notText

/-- Every access of the transfer is admitted (20_memory.md R45). -/
theorem RunsOf.accesses_admitted {i : Instr} {s : State} (h : RunsOf i s) :
    ∀ k < Form.transfer i.form / ElemSize.accessBytes i.form.size, Form.admitted i.form s k := by
  have hadm := h.admitted
  rw [accessWidth_eq_accessBytes] at hadm
  exact hadm

/-- A completed transfer draws no UNKNOWN value. -/
theorem vst1Transfer_next_draws {f : Form} {s t : State} (h : vst1Transfer f s = .next t) : t.draws = s.draws := by
  obtain ⟨-, -, rfl⟩ := (vst1Transfer_next_iff f s t).1 h
  rw [advance_draws, Form.writeback_frame]

/-- What a completed transfer leaves: the image of R87, the writeback of R88, the advance of R89 and the frame of
10_state.md R33. -/
theorem effect_of_vst1Transfer {f : Form} {s t : State} (hadm : Form.Admissible f s)
    (h : vst1Transfer f s = .next t) :
    Effect (ListLen.regs f.len) f.dd f.rn f.size ((Form.writeback f s).readR f.rn) (advanced f.iset s).itstate s t := by
  have hvst1 : vst1 f s = .next t := (vst1_of_admissible hadm).trans h
  have hframed := vst1_framed hvst1
  obtain ⟨hd, hmarks⟩ := hframed.kept fun hpast => absurd hpast.1 (Nat.not_lt.2 hadm.list)
  obtain ⟨hpc, hit⟩ := vst1_next_advances hvst1
  exact {
    stored := fun r hr j hj => byteAt_of_vst1Transfer h hr hj
    untouched := fun a ha => ha.elim (byteAt_below_of_vst1Transfer h) (byteAt_above_of_vst1Transfer h)
    base := (readR_base_of_vst1Transfer h).trans (Form.writeback_base f s).symm
    others := fun k hk => hframed.regs k (.inl hk)
    dregs := hd
    marks := hmarks
    pc := hpc
    itstate := by rw [hit, advanced_eq_advance]
    elsewhere := hframed.elsewhere
    draws := vst1Transfer_next_draws h }

/-- An instruction whose premises hold completes, whatever its class and its writeback. -/
theorem RunsOf.completes {i : Instr} {s : State} (h : RunsOf i s) (hcond : CondPasses i s) (hdef : ¬ AlignUndefined i)
    (hindex : i.form.rm ≠ 13 → i.form.rm ≠ 15 → s.written (.r i.form.rm) = true) :
    Completes i s ((Form.writeback i.form s).readR i.form.rn) := by
  have hadm := h.admissible hcond hdef hindex
  obtain ⟨t, ht⟩ := vst1Transfer_completes h.clear h.accesses_admitted
  exact ⟨t, by rw [exec_eq_vst1, vst1_of_admissible hadm, ht], effect_of_vst1Transfer hadm ht⟩

/-! ## The three kinds of writeback (R88) -/

/-- `Rm = 15`: the base register is unchanged. -/
theorem RunsOf.completes_nowb {i : Instr} {s : State} (h : RunsOf i s) (hrm : i.form.rm = 15) (hcond : CondPasses i s)
    (hdef : ¬ AlignUndefined i) : Completes i s (s.readR i.form.rn) := by
  have hdone := h.completes hcond hdef fun _ h15 => absurd hrm h15
  rwa [Form.writeback_base, if_pos hrm] at hdone

/-- `Rm = 13`: the base register is advanced by the transfer size. -/
theorem RunsOf.completes_posti {i : Instr} {s : State} (h : RunsOf i s) (hrm : i.form.rm = 13)
    (hcond : CondPasses i s) (hdef : ¬ AlignUndefined i) :
    Completes i s (s.readR i.form.rn + BitVec.ofNat 32 (8 * regs i)) := by
  have hdone := h.completes hcond hdef fun h13 _ => absurd hrm h13
  rwa [Form.writeback_base, if_neg (by rw [hrm]; decide), if_pos hrm] at hdone

/-- Any other `Rm`: the index register, which must hold a value, is added to the base register. -/
theorem RunsOf.completes_postr {i : Instr} {s : State} (h : RunsOf i s) (h13 : i.form.rm ≠ 13) (h15 : i.form.rm ≠ 15)
    (hw : s.written (.r i.form.rm) = true) (hcond : CondPasses i s) (hdef : ¬ AlignUndefined i) :
    Completes i s (s.readR i.form.rn + s.readR i.form.rm) := by
  have hdone := h.completes hcond hdef fun _ _ => hw
  rwa [Form.writeback_base, if_neg h15, if_neg h13] at hdone

/-! ## The valid alignments (R82) -/

/-- With one or three registers the two valid values of `align` are neither of the two UNDEFINED ones. -/
theorem not_a128_or_a256 {align : Align} (h : align = .omitted ∨ align = .a64) :
    ¬ (align = .a128 ∨ align = .a256) := by
  rcases h with rfl | rfl <;> decide

end Sys2Proof.Claims
end

section
/-! The statements about the A32 encodings (41_vst1_a32.md). Each takes the classes of one, two, three and four registers
in turn: A32 is unconditional, so only the `align` check differs. -/

namespace Sys2Proof.Claims

/-- Settles O13: no writeback. -/
theorem a32NowbCompletes : Obligations.A32NowbCompletes := by
  intro dd rn size align s
  refine ⟨fun halign hruns => ?one, fun halign hruns => ?two, fun halign hruns => ?three, fun hruns => ?four⟩
  case one => exact RunsOf.completes_nowb (i := .vst1A1Nowb dd rn size align) hruns rfl rfl (not_a128_or_a256 halign)
  case two => exact RunsOf.completes_nowb (i := .vst1A2Nowb dd rn size align) hruns rfl rfl halign
  case three => exact RunsOf.completes_nowb (i := .vst1A3Nowb dd rn size align) hruns rfl rfl (not_a128_or_a256 halign)
  case four => exact RunsOf.completes_nowb (i := .vst1A4Nowb dd rn size align) hruns rfl rfl id

/-- Settles O14: writeback by the transfer size, eight bytes for each register. -/
theorem a32PostiCompletes : Obligations.A32PostiCompletes := by
  intro dd rn size align s
  refine ⟨fun halign hruns => ?one, fun halign hruns => ?two, fun halign hruns => ?three, fun hruns => ?four⟩
  case one =>
    exact RunsOf.completes_posti (i := .vst1A1Posti dd rn size align) hruns rfl rfl (not_a128_or_a256 halign)
  case two => exact RunsOf.completes_posti (i := .vst1A2Posti dd rn size align) hruns rfl rfl halign
  case three =>
    exact RunsOf.completes_posti (i := .vst1A3Posti dd rn size align) hruns rfl rfl (not_a128_or_a256 halign)
  case four => exact RunsOf.completes_posti (i := .vst1A4Posti dd rn size align) hruns rfl rfl id

/-- Settles O15: writeback by the index register, the base register itself included. -/
theorem a32PostrCompletes : Obligations.A32PostrCompletes := by
  intro dd rn size align rm s h13 h15 hw
  refine ⟨fun halign hruns => ?one, fun halign hruns => ?two, fun halign hruns => ?three, fun hruns => ?four⟩
  case one =>
    exact RunsOf.completes_postr (i := .vst1A1Postr dd rn size align rm) hruns h13 h15 hw rfl (not_a128_or_a256 halign)
  case two => exact RunsOf.completes_postr (i := .vst1A2Postr dd rn size align rm) hruns h13 h15 hw rfl halign
  case three =>
    exact RunsOf.completes_postr (i := .vst1A3Postr dd rn size align rm) hruns h13 h15 hw rfl (not_a128_or_a256 halign)
  case four => exact RunsOf.completes_postr (i := .vst1A4Postr dd rn size align rm) hruns h13 h15 hw rfl id

end Sys2Proof.Claims
end

section
/-! The statements about the T32 encodings (42_vst1_t32.md). As in A32, with one premise more: the condition of the IT
block passes (R78), and the next state has `ITSTATE` advanced (R89). -/

namespace Sys2Proof.Claims

/-- Settles O16: no writeback. -/
theorem t32NowbCompletes : Obligations.T32NowbCompletes := by
  intro dd rn size align s
  refine ⟨fun hcond halign hruns => ?one, fun hcond halign hruns => ?two, fun hcond halign hruns => ?three,
    fun hcond hruns => ?four⟩
  case one =>
    exact RunsOf.completes_nowb (i := .vst1T1Nowb dd rn size align) hruns rfl hcond (not_a128_or_a256 halign)
  case two => exact RunsOf.completes_nowb (i := .vst1T2Nowb dd rn size align) hruns rfl hcond halign
  case three =>
    exact RunsOf.completes_nowb (i := .vst1T3Nowb dd rn size align) hruns rfl hcond (not_a128_or_a256 halign)
  case four => exact RunsOf.completes_nowb (i := .vst1T4Nowb dd rn size align) hruns rfl hcond id

/-- Settles O17: writeback by the transfer size, eight bytes for each register. -/
theorem t32PostiCompletes : Obligations.T32PostiCompletes := by
  intro dd rn size align s
  refine ⟨fun hcond halign hruns => ?one, fun hcond halign hruns => ?two, fun hcond halign hruns => ?three,
    fun hcond hruns => ?four⟩
  case one =>
    exact RunsOf.completes_posti (i := .vst1T1Posti dd rn size align) hruns rfl hcond (not_a128_or_a256 halign)
  case two => exact RunsOf.completes_posti (i := .vst1T2Posti dd rn size align) hruns rfl hcond halign
  case three =>
    exact RunsOf.completes_posti (i := .vst1T3Posti dd rn size align) hruns rfl hcond (not_a128_or_a256 halign)
  case four => exact RunsOf.completes_posti (i := .vst1T4Posti dd rn size align) hruns rfl hcond id

/-- Settles O18: writeback by the index register, the base register itself included. -/
theorem t32PostrCompletes : Obligations.T32PostrCompletes := by
  intro dd rn size align rm s h13 h15 hw
  refine ⟨fun hcond halign hruns => ?one, fun hcond halign hruns => ?two, fun hcond halign hruns => ?three,
    fun hcond hruns => ?four⟩
  case one =>
    exact RunsOf.completes_postr (i := .vst1T1Postr dd rn size align rm) hruns h13 h15 hw hcond
      (not_a128_or_a256 halign)
  case two => exact RunsOf.completes_postr (i := .vst1T2Postr dd rn size align rm) hruns h13 h15 hw hcond halign
  case three =>
    exact RunsOf.completes_postr (i := .vst1T3Postr dd rn size align rm) hruns h13 h15 hw hcond
      (not_a128_or_a256 halign)
  case four => exact RunsOf.completes_postr (i := .vst1T4Postr dd rn size align rm) hruns h13 h15 hw hcond id

end Sys2Proof.Claims
end

section
/-! SUPPORT. Every fault of a VST1 and its cause, as one predicate that holds of a fault exactly when the instruction raises
it (60_exceptions.md R119 to R126). -/

namespace Sys2Proof.Claims

open Sys2Proof.Machine

/-- The fault an instruction raises, by the check of 40_vst1_operation.md R77 that raises it. -/
inductive FaultCause (i : Instr) (s : State) : Fault → Prop where
  /-- The condition reads an `unwritten` flag (R78). -/
  | unwrittenFlag (x : RegName) (hset : i.iset = .t32) (hblock : s.itstate.extractLsb' 0 4 ≠ 0x0#4)
      (hfirst : FirstUnwritten s (consulted (condOf s)) x) : FaultCause i s (.unwrittenRegister x)
  /-- `align` is UNDEFINED for the class (R82). -/
  | alignField (hcond : CondPasses i s) (hundef : AlignUndefined i) : FaultCause i s .undefinedInstruction
  /-- `n == 15` (R80). -/
  | baseIsPC (hcond : CondPasses i s) (hdef : ¬ AlignUndefined i) (hbase : i.form.rn = 15) :
      FaultCause i s (.unpredictable .baseIsPC)
  /-- The list passes D31 under the setting `fault` (R81). -/
  | listFault (hcond : CondPasses i s) (hdef : ¬ AlignUndefined i) (hbase : i.form.rn ≠ 15)
      (hlist : 32 < i.form.dd.val + regs i) (hcu : s.cfg.cuDregs = .fault) :
      FaultCause i s (.unpredictable .regListPastD31)
  /-- The list passes D31 under the setting UNDEF (R81). -/
  | listUndef (hcond : CondPasses i s) (hdef : ¬ AlignUndefined i) (hbase : i.form.rn ≠ 15)
      (hlist : 32 < i.form.dd.val + regs i) (hcu : s.cfg.cuDregs = .undef) : FaultCause i s .undefinedInstruction
  /-- The list passes D31 under the setting UNKNOWN, the base register `unwritten` (R81). -/
  | listUnwritten (hcond : CondPasses i s) (hdef : ¬ AlignUndefined i) (hbase : i.form.rn ≠ 15)
      (hlist : 32 < i.form.dd.val + regs i) (hcu : s.cfg.cuDregs = .unknown)
      (hw : s.written (.r i.form.rn) = false) : FaultCause i s (.unwrittenRegister (.r i.form.rn))
  /-- The enable check answers Undefined (R83). -/
  | disabled (hclean : DecodesClean i s) (haccess : s.advSIMDAccess = .undefined) :
      FaultCause i s .undefinedInstruction
  /-- The enable check answers HypTrap (R83). -/
  | trapped (hclean : DecodesClean i s) (haccess : s.advSIMDAccess = .hypTrap) : FaultCause i s .hypTrap
  /-- A register that the transfer reads is `unwritten` (R77 item 6). -/
  | unwrittenOperand (x : RegName) (hclean : DecodesClean i s) (haccess : s.advSIMDAccess = .enabled)
      (hfirst : FirstUnwritten s (readsOf i) x) : FaultCause i s (.unwrittenRegister x)
  /-- An alignment is violated (R85, 20_memory.md R40). -/
  | misaligned (hattempts : Attempts i s) (hmis : Misaligned i s) :
      FaultCause i s (.alignmentAbort ((baseOf i s).setWidth 64) s.storeDescriptor)
  /-- The footprint passes the top of memory (20_memory.md R46). -/
  | addressWrap (hattempts : Attempts i s) (haligned : ¬ Misaligned i s)
      (hwrap : 2 ^ 32 < (baseOf i s).toNat + 8 * regs i) : FaultCause i s (.unpredictable .addressWrap)
  /-- Access `k` is the first that `MemAdmit` aborts (20_memory.md R45, R47). -/
  | accessAborts (kind : AbortKind) (k : Nat) (hattempts : Attempts i s) (hclear : Form.Clear i.form s)
      (hk : k < accesses i) (hbefore : ∀ j < k, verdictAt i s j = .ok) (habort : verdictAt i s k = .abort kind) :
      FaultCause i s (.memoryAbort kind
        ((baseOf i s + BitVec.ofNat 32 (accessWidth i.form.size * k)).setWidth 64) s.storeDescriptor
        (unknownBytes (Form.footprint i.form s) s))

/-- The first access that `MemAdmit` aborts is the one reported: no other access is the first (20_memory.md R45). -/
theorem vst1Transfer_of_first_abort {f : Form} {s : State} {kind : AbortKind} {k : Nat} (hclear : Form.Clear f s)
    (hk : k < Form.transfer f / ElemSize.accessBytes f.size) (hbefore : ∀ j < k, Form.admitted f s j)
    (habort : memAdmit s.cfg ((s.readR f.rn).toNat + ElemSize.accessBytes f.size * k) (ElemSize.accessBytes f.size)
      s.privileged = .abort kind) :
    vst1Transfer f s = .fault (.memoryAbort kind
      ((s.readR f.rn + BitVec.ofNat 32 (ElemSize.accessBytes f.size * k)).setWidth 64) s.storeDescriptor
      (unknownBytes (Form.footprint f s) s)) := by
  obtain ⟨_, _, _, _, h⟩ := vst1Transfer_aborts hclear fun hall => nomatch habort.symm.trans (hall k hk)
  rcases vst1Transfer_fault h with ⟨hr, -⟩ | ⟨hr, -⟩ | ⟨-, kind', k', -, hbefore', habort', hr⟩
  · cases hr
  · cases hr
  · obtain rfl : k' = k := by
      rcases Nat.lt_trichotomy k' k with hlt | heq | hlt
      · cases habort'.symm.trans (hbefore k' hlt)
      · exact heq
      · cases habort.symm.trans (hbefore' k hlt)
    cases habort.symm.trans habort'
    rw [h, hr]

/-- An attempted instruction is its transfer (40_vst1_operation.md R77). -/
theorem exec_of_attempts {i : Instr} {s : State} (h : Attempts i s) : exec i s = vst1Transfer i.form s := by
  rw [exec_eq_vst1, vst1_of_admissible ((attempts_iff_admissible i s).1 h)]

/-- Each fault of an attempted transfer has one of the last three causes. -/
theorem faultCause_of_transfer {i : Instr} {s : State} {r : Fault} (hattempts : Attempts i s)
    (h : vst1Transfer i.form s = .fault r) : FaultCause i s r := by
  rcases vst1Transfer_fault h with ⟨rfl, hmis⟩ | ⟨rfl, hwrap, haligned⟩ | ⟨hclear, kind, k, hk, hbefore, habort, rfl⟩
  · exact .misaligned hattempts hmis
  · exact .addressWrap hattempts ((not_misaligned_iff i s).2 haligned) hwrap
  · simp only [← accessWidth_eq_accessBytes] at hk habort ⊢
    exact .accessAborts kind k hattempts hclear hk (fun j hj => (verdictAt_eq_ok_iff i s j).2 (hbefore j hj)) habort

/-- An instruction raises a fault exactly when the fault has its cause. -/
theorem exec_fault_iff (i : Instr) (s : State) (r : Fault) : exec i s = .fault r ↔ FaultCause i s r := by
  constructor
  · intro h
    rw [exec_eq_vst1] at h
    rcases vst1_fault h with ⟨x, rfl, hflag⟩ | ⟨hcond, ⟨rfl, hundef⟩ | ⟨hdef, rfl, hbase⟩ | ⟨hdef, hbase, hlist, hr⟩ |
      ⟨hdef, hbase, hlist, hr⟩ | ⟨hadm, htransfer⟩⟩
    · obtain ⟨hset, hblock, hfirst⟩ := (conditionPassed_unwritten_iff _ s x).1 hflag
      exact .unwrittenFlag x hset hblock hfirst
    · exact .alignField hcond ((alignUndefined_iff i).2 hundef)
    · exact .baseIsPC hcond ((not_alignUndefined_iff i).2 hdef) hbase
    · have hdef' := (not_alignUndefined_iff i).2 hdef
      rcases hr with ⟨rfl, hcu⟩ | ⟨rfl, hcu⟩ | ⟨rfl, hcu, hw⟩
      · exact .listFault hcond hdef' hbase hlist hcu
      · exact .listUndef hcond hdef' hbase hlist hcu
      · exact .listUnwritten hcond hdef' hbase hlist hcu hw
    · have hclean : DecodesClean i s := ⟨hcond, (not_alignUndefined_iff i).2 hdef, hbase, hlist⟩
      rcases hr with ⟨rfl, haccess⟩ | ⟨rfl, haccess⟩ | ⟨haccess, x, rfl, hfirst⟩
      · exact .disabled hclean haccess
      · exact .trapped hclean haccess
      · rw [← readsOf_eq_reads, firstUnwritten_iff] at hfirst
        exact .unwrittenOperand x hclean haccess hfirst
    · exact faultCause_of_transfer ((attempts_iff_admissible i s).2 hadm) htransfer
  · intro h
    cases h with
    | unwrittenFlag x hset hblock hfirst => exact (unwrittenRegisterCauses i s x).2 (.inl ⟨hset, hblock, hfirst⟩)
    | alignField hcond hundef => exact alignFieldUndefined.1 i s hcond hundef
    | baseIsPC hcond hdef hbase => exact baseRegister15IsUnpredictable i s hcond hdef hbase
    | listFault hcond hdef hbase hlist hcu =>
      obtain ⟨hfault, -⟩ := registerListPastD31 i s hcond hdef hbase hlist
      exact hfault hcu
    | listUndef hcond hdef hbase hlist hcu =>
      obtain ⟨-, hundef, -⟩ := registerListPastD31 i s hcond hdef hbase hlist
      exact hundef hcu
    | listUnwritten hcond hdef hbase hlist hcu hw =>
      exact (unwrittenRegisterCauses i s _).2 (.inr (.inr ⟨hcond, hdef, hbase, hlist, hcu, hw, rfl⟩))
    | disabled hclean haccess => exact (enableCheckComesBeforeTheAccess i s hclean).1 haccess
    | trapped hclean haccess => exact (enableCheckComesBeforeTheAccess i s hclean).2 haccess
    | unwrittenOperand x hclean haccess hfirst =>
      exact (unwrittenRegisterCauses i s x).2 (.inr (.inl ⟨hclean, haccess, hfirst⟩))
    | misaligned hattempts hmis => rw [exec_of_attempts hattempts]; exact vst1Transfer_of_misaligned hmis
    | addressWrap hattempts haligned hwrap => exact (footprintMayEndAtTheTop i s hattempts haligned).2 hwrap
    | accessAborts kind k hattempts hclear hk hbefore habort =>
      rw [accesses, accessWidth_eq_accessBytes] at hk
      rw [verdictAt, accessWidth_eq_accessBytes] at habort
      rw [exec_of_attempts hattempts, accessWidth_eq_accessBytes]
      exact vst1Transfer_of_first_abort hclear hk (fun j hj => (verdictAt_eq_ok_iff i s j).1 (hbefore j hj)) habort

/-- What a memory-system abort leaves of memory: the admitted footprint bytes free, the others as before (20_memory.md
R47). -/
theorem footprintUnknown_unknownBytes (i : Instr) (s : State) :
    FootprintUnknown i s (unknownBytes (Form.footprint i.form s) s) := by
  intro a
  rw [← mem_footprint_iff]
  exact byte_unknownBytes (Form.footprint i.form s) s a

/-- The address an abort reports does not wrap (20_memory.md R46). -/
theorem abort_address_toNat {i : Instr} {s : State} {k : Nat} (hclear : Form.Clear i.form s) (hk : k < accesses i) :
    ((baseOf i s + BitVec.ofNat 32 (accessWidth i.form.size * k)).setWidth 64).toNat =
      (baseOf i s).toNat + accessWidth i.form.size * k := by
  rw [accesses, accessWidth_eq_accessBytes] at hk
  rw [BitVec.toNat_setWidth_of_le (by decide), accessWidth_eq_accessBytes]
  exact access_toNat i.form s hclear.noWrap hk

end Sys2Proof.Claims
end

section
/-! The statements about the exceptions (60_exceptions.md). Each reads off `exec_fault_iff` which causes a fault has. -/

namespace Sys2Proof.Claims

open Sys2Proof.Machine

/-- Settles O32: the three causes that raise this fault. -/
theorem undefinedInstructionCauses : Obligations.UndefinedInstructionCauses := by
  intro i s
  rw [exec_fault_iff]
  constructor
  · intro h
    cases h with
    | alignField hcond hundef => exact ⟨hcond, .inl hundef⟩
    | disabled hclean haccess =>
      exact ⟨hclean.1, .inr (.inl ⟨hclean, haccess⟩)⟩
    | listUndef hcond hdef hbase hlist hcu => exact ⟨hcond, .inr (.inr ⟨hdef, hbase, hlist, hcu⟩)⟩
  · rintro ⟨hcond, hundef | ⟨hclean, haccess⟩ | ⟨hdef, hbase, hlist, hcu⟩⟩
    · exact .alignField hcond hundef
    · exact .disabled hclean haccess
    · exact .listUndef hcond hdef hbase hlist hcu

/-- Settles O33: only the enable check traps. -/
theorem hypTrapCause : Obligations.HypTrapCause := by
  intro i s
  rw [exec_fault_iff]
  constructor
  · intro h
    cases h with
    | trapped hclean haccess => exact ⟨hclean, haccess⟩
  · exact fun ⟨hclean, haccess⟩ => .trapped hclean haccess

/-- Settles O34: the one cause of the fault fixes its address and its descriptor. -/
theorem alignmentAbortCauses : Obligations.AlignmentAbortCauses := by
  intro i s a desc
  rw [exec_fault_iff]
  constructor
  · intro h
    cases h with
    | misaligned hattempts hmis => exact ⟨hattempts, hmis, rfl, rfl⟩
  · rintro ⟨hattempts, hmis, rfl, rfl⟩
    exact .misaligned hattempts hmis

/-- Settles O35: a clear transfer with an access that is not admitted aborts, and the first such access is reported with
the state `unknownBytes` leaves. -/
theorem memoryAbortCausesAndEffect : Obligations.MemoryAbortCausesAndEffect := by
  refine fun i s => ⟨⟨?_, ?_⟩, fun kind a desc left h => ?_⟩
  · rintro ⟨kind, a, desc, left, h⟩
    cases (exec_fault_iff i s _).1 h with
    | accessAborts _ k hattempts hclear hk _ habort =>
      obtain ⟨haligned, hwrap, htext⟩ := (clear_iff i s).1 hclear
      exact ⟨hattempts, haligned, hwrap, htext, k, hk, by rw [habort]; nofun⟩
  · rintro ⟨hattempts, haligned, hwrap, htext, k, hk, hno⟩
    rw [exec_of_attempts hattempts]
    rw [accesses, accessWidth_eq_accessBytes] at hk
    exact vst1Transfer_aborts ((clear_iff i s).2 ⟨haligned, hwrap, htext⟩) fun hall =>
      hno ((verdictAt_eq_ok_iff i s k).2 (hall k hk))
  · cases (exec_fault_iff i s _).1 h with
    | accessAborts _ k hattempts hclear hk hbefore habort =>
      refine ⟨⟨k, hk, hbefore, habort, abort_address_toNat hclear hk⟩, rfl, footprintUnknown_unknownBytes i s, ?_⟩
      rw [unknownBytes_frame]
      exact ⟨rfl, rfl, rfl, rfl, rfl, SameElsewhere.refl s⟩

/-- Settles O36: each of the three has one cause. -/
theorem unpredictableCauses : Obligations.UnpredictableCauses := by
  intro i s
  simp only [exec_fault_iff]
  refine ⟨⟨?_, ?_⟩, ⟨?_, ?_⟩, ⟨?_, ?_⟩⟩
  · intro h
    cases h with
    | baseIsPC hcond hdef hbase => exact ⟨hcond, hdef, hbase⟩
  · exact fun ⟨hcond, hdef, hbase⟩ => .baseIsPC hcond hdef hbase
  · intro h
    cases h with
    | listFault hcond hdef hbase hlist hcu => exact ⟨hcond, hdef, hbase, hlist, hcu⟩
  · exact fun ⟨hcond, hdef, hbase, hlist, hcu⟩ => .listFault hcond hdef hbase hlist hcu
  · intro h
    cases h with
    | addressWrap hattempts haligned hwrap => exact ⟨hattempts, haligned, hwrap⟩
  · exact fun ⟨hattempts, haligned, hwrap⟩ => .addressWrap hattempts haligned hwrap

end Sys2Proof.Claims
end

section
/-! SUPPORT. The state with a word of the opcode table placed at `pc` (assumption log entry 12): `pc` can be fetched from,
and the fetch answers the bytes of the word. -/

namespace Sys2Proof

/-- A 32-bit word is its own word of the opcode table. -/
theorem tableWord_toNat (w : Word) : tableWord 32 w.toNat = w := by
  rw [tableWord, Nat.mod_eq_of_lt w.isLt, BitVec.ofNat_toNat, BitVec.setWidth_eq]

/-- The constant bits 31:23 of an encoded instruction tell its instruction set (30_encoding.md R65). -/
theorem tableISet_encode (i : Instr) : tableISet (encode i) = i.iset := by
  rw [tableISet, encode, encodeForm_fixed, Instr.iset]
  cases i.form.iset <;> rfl

end Sys2Proof

namespace Sys2Proof.Machine

/-! ## The fields of the state -/

theorem State.loadWord_iset (s : State) (nbits w : Nat) :
    (s.loadWord nbits w).iset = tableISet (tableWord nbits w) := rfl

theorem State.loadWord_text (s : State) (nbits w : Nat) :
    (s.loadWord nbits w).cfg.text =
      if Region.covers s.cfg.text (s.loadWord nbits w).pc.toNat 4 then s.cfg.text
      else ⟨(s.loadWord nbits w).pc.toNat, 4⟩ := rfl

theorem State.loadWord_regions (s : State) (nbits w : Nat) :
    (s.loadWord nbits w).cfg.regions =
      if (List.range 4).all (fun j => allocated s.cfg ((s.loadWord nbits w).pc.toNat + j)) then s.cfg.regions
      else ⟨(s.loadWord nbits w).pc.toNat, 4⟩ :: s.cfg.regions := rfl

theorem State.loadWord_mem (s : State) (nbits w : Nat) :
    (s.loadWord nbits w).mem =
      s.mem.writeBytes (s.loadWord nbits w).pc.toNat (bytesOfInstr (s.loadWord nbits w).iset (tableWord nbits w)) := rfl

/-- The `pc` of the loaded state is aligned and leaves room for four bytes: it is the old one where that one does, and
else 0. -/
theorem State.loadWord_pc_fits (s : State) (nbits w : Nat) :
    (s.loadWord nbits w).pc.toNat % ISet.pcAlignment (s.loadWord nbits w).iset = 0 ∧
      (s.loadWord nbits w).pc.toNat ≤ 0xFFFFFFFB := by
  unfold State.loadWord
  dsimp only
  split
  · assumption
  · exact ⟨Nat.zero_mod _, Nat.zero_le _⟩

/-! ## The fetch from it -/

/-- A region covers its own addresses. -/
theorem Region.covers_self (a n : Nat) : Region.covers ⟨a, n⟩ a n = true := by
  simp [Region.covers]

theorem State.loadWord_text_covers (s : State) (nbits w : Nat) :
    Region.covers (s.loadWord nbits w).cfg.text (s.loadWord nbits w).pc.toNat 4 = true := by
  rw [State.loadWord_text]
  split
  · assumption
  · exact Region.covers_self _ 4

theorem State.loadWord_pcUsable (s : State) (nbits w : Nat) : (s.loadWord nbits w).pcUsable = true := by
  obtain ⟨halign, htop⟩ := s.loadWord_pc_fits nbits w
  exact pcUsable_of_covers halign htop (s.loadWord_text_covers nbits w)

/-- The four bytes at `pc` are allocated: they were before, or they are a region of their own. -/
theorem State.loadWord_allocated (s : State) (nbits w : Nat) {j : Nat} (hj : j < 4) :
    allocated (s.loadWord nbits w).cfg ((s.loadWord nbits w).pc.toNat + j) = true := by
  obtain ⟨-, htop⟩ := s.loadWord_pc_fits nbits w
  have hlt : (s.loadWord nbits w).pc.toNat + j < 2 ^ 32 := by omega
  rw [allocated, State.loadWord_regions, decide_eq_true hlt, Bool.true_and]
  split
  next hall =>
    have hold := List.all_eq_true.1 hall j (List.mem_range.2 hj)
    rw [allocated, decide_eq_true hlt, Bool.true_and] at hold
    exact hold
  next =>
    simp [Region.contains, hj]

/-- Bytes written to allocated addresses are read back. -/
theorem State.readBytes_of_writeBytes {s : State} {m : Memory} {a : Nat} {bs : List Byte}
    (hmem : s.mem = m.writeBytes a bs) (halloc : ∀ j < bs.length, allocated s.cfg (a + j) = true) :
    s.readBytes a bs.length = some bs := by
  refine (State.readBytes_eq_some s a bs).2 fun k hk => ?_
  rw [State.byte_of_allocated (halloc k hk), hmem, Memory.read_writeBytes, if_pos (Nat.le_add_right ..),
    Nat.add_sub_cancel_left, List.getElem?_eq_getElem hk, Option.getD_some]

theorem bytesOfInstr_length (iset : ISet) (w : Word) : (bytesOfInstr iset w).length = 4 := by
  cases iset <;> rfl

/-- The bytes of the placed word are what the next step fetches. -/
theorem fetch_loadWord (s : State) (nbits w : Nat) :
    fetch (s.loadWord nbits w) = .ok (bytesOfInstr (s.loadWord nbits w).iset (tableWord nbits w)) := by
  refine (fetch_ok_iff _ _).2 ⟨s.loadWord_pcUsable nbits w, ?_⟩
  have hread := State.readBytes_of_writeBytes (s.loadWord_mem nbits w) fun j hj =>
    s.loadWord_allocated nbits w (bytesOfInstr_length _ _ ▸ hj)
  rwa [bytesOfInstr_length] at hread

/-- Once a word of the opcode table is placed, the step executes the instruction it decodes to. -/
theorem step_loadWord {s : State} {nbits w : Nat} {i : Instr}
    (hd : decode (tableISet (tableWord nbits w)) (tableWord nbits w) = .ok i) :
    step (s.loadWord nbits w) = exec i (s.loadWord nbits w) := by
  refine step_of_decoded (rest := []) (fetch_loadWord s nbits w) ?_
  have hbytes := decodeBytes_bytesOfInstr (s.loadWord nbits w).iset (tableWord nbits w) []
  rw [List.append_nil, State.loadWord_iset, hd] at hbytes
  exact hbytes

end Sys2Proof.Machine
end

section
/-! SUPPORT. Runs of the machine and the run that stops at `end_pc` (70_reset_and_hazards.md R144), one step at a time. -/

namespace Sys2Proof.Machine

open Sys2Proof.Claims

theorem step_keeps_cfg {s t : State} (h : step s = .next t) : t.cfg = s.cfg := by
  obtain ⟨-, f, -, hvst1⟩ := step_next_vst1 h
  exact vst1_next_cfg hvst1

theorem step_keeps_endPcAligned {s t : State} (h : step s = .next t) (hend : s.endPcAligned = true) :
    t.endPcAligned = true := by
  obtain ⟨f, hframed⟩ := step_framed h
  obtain ⟨-, -, -, -, -, hiset, -, hcfg, -⟩ := hframed.elsewhere
  rwa [State.endPcAligned, hiset, hcfg]

/-- After a step that goes on, the rest of a run is the run from there; the converse of `run_succ`. -/
theorem run_succ_of_next {M : Host.Core} {s u : M.State} (h : M.step s = .next u) (k : Nat) :
    M.run (k + 1) s = M.run k u := by
  rw [Host.Core.run, h]

theorem State.ended_iff (s : State) : s.ended = true ↔ s.pc = s.cfg.endPc := beq_iff_eq

/-- A run that is at its end takes no step, whatever the bound. -/
theorem runToEnd_of_ended {s : State} (h : s.pc = s.cfg.endPc) (k : Nat) : runToEnd k s = .ended s := by
  cases k <;> exact if_pos ((State.ended_iff s).2 h)

/-- A run that is not at its end takes a step, and the rest is the run from there. -/
theorem runToEnd_succ_of_next {s u : State} (hpc : s.pc ≠ s.cfg.endPc) (h : step s = .next u) (k : Nat) :
    runToEnd (k + 1) s = runToEnd k u := by
  rw [runToEnd, if_neg (mt (State.ended_iff s).1 hpc), h]

/-- How a run comes to have ended: it is at its end, or a step leads to where a run with one step less has ended. -/
theorem runToEnd_ended {k : Nat} {s t : State} (h : runToEnd k s = .ended t) :
    (s.pc = s.cfg.endPc ∧ t = s) ∨
    (s.pc ≠ s.cfg.endPc ∧ ∃ n u, k = n + 1 ∧ step s = .next u ∧ runToEnd n u = .ended t) := by
  by_cases hpc : s.pc = s.cfg.endPc
  · rw [runToEnd_of_ended hpc] at h
    cases h
    exact .inl ⟨hpc, rfl⟩
  refine .inr ⟨hpc, ?_⟩
  have hgo : ¬ s.ended = true := mt (State.ended_iff s).1 hpc
  cases k with
  | zero => rw [runToEnd, if_neg hgo] at h; cases h
  | succ n =>
    cases hstep : step s with
    | next u => exact ⟨n, u, rfl, rfl, runToEnd_succ_of_next hpc hstep n ▸ h⟩
    | fault r => rw [runToEnd, if_neg hgo, hstep] at h; cases h
    | refused r => rw [runToEnd, if_neg hgo, hstep] at h; cases h

/-- A run that ended is at the first state whose `pc` is `end_pc`: the states before it are reached, and none has that
`pc`. -/
theorem first_of_runToEnd_ended {k : Nat} {s t : State} (h : runToEnd k s = .ended t) :
    t.pc = s.cfg.endPc ∧ ∃ m ≤ k, Host.Core.run Sys2Proof.core m s = .next t ∧
      ∀ j < m, ∃ u : State, Host.Core.run Sys2Proof.core j s = .next u ∧ u.pc ≠ s.cfg.endPc := by
  induction k generalizing s with
  | zero =>
    rcases runToEnd_ended h with ⟨hpc, rfl⟩ | ⟨-, n, _, hn, -⟩
    · exact ⟨hpc, 0, Nat.le_refl 0, rfl, nofun⟩
    · exact absurd hn.symm (Nat.succ_ne_zero n)
  | succ k ih =>
    rcases runToEnd_ended h with ⟨hpc, rfl⟩ | ⟨hpc, n, u, hn, hstep, hrest⟩
    · exact ⟨hpc, 0, Nat.zero_le _, rfl, nofun⟩
    obtain rfl : k = n := Nat.succ.inj hn
    obtain ⟨hend, m, hm, hrun, hbefore⟩ := ih hrest
    rw [step_keeps_cfg hstep] at hend hbefore
    have hshift (j : Nat) := run_succ_of_next (M := Sys2Proof.core) hstep j
    refine ⟨hend, m + 1, Nat.succ_le_succ hm, (hshift m).trans hrun, fun j hj => ?_⟩
    cases j with
    | zero => exact ⟨s, rfl, hpc⟩
    | succ j =>
      obtain ⟨v, hv, hne⟩ := hbefore j (Nat.lt_of_succ_lt_succ hj)
      exact ⟨v, (hshift j).trans hv, hne⟩

/-- A run that reaches such a state first, within the bound, has ended there. -/
theorem runToEnd_ended_of_first {m k : Nat} {s t : State} (hm : m ≤ k)
    (hrun : Host.Core.run Sys2Proof.core m s = .next t) (hend : t.pc = s.cfg.endPc)
    (hbefore : ∀ j < m, ∀ u : State, Host.Core.run Sys2Proof.core j s = .next u → u.pc ≠ s.cfg.endPc) :
    runToEnd k s = .ended t := by
  induction m generalizing k s with
  | zero =>
    cases hrun
    exact runToEnd_of_ended hend k
  | succ m ih =>
    obtain ⟨n, rfl⟩ : ∃ n, k = n + 1 := ⟨k - 1, by omega⟩
    obtain ⟨u, hstep, hrest⟩ := run_succ (M := Sys2Proof.core) hrun
    have hcfg : State.cfg u = s.cfg := step_keeps_cfg hstep
    rw [runToEnd_succ_of_next (hbefore 0 (Nat.succ_pos m) s rfl) hstep]
    refine ih (Nat.le_of_succ_le_succ hm) hrest (by rw [hcfg]; exact hend) fun j hj v hv => ?_
    rw [hcfg]
    exact hbefore (j + 1) (Nat.succ_lt_succ hj) v ((run_succ_of_next (M := Sys2Proof.core) hstep j).trans hv)

end Sys2Proof.Machine
end

section
/-! The statements about what every step keeps, the placed instruction and the end of a run (70_reset_and_hazards.md). -/

namespace Sys2Proof.Claims

open Sys2Proof.Machine

/-- Settles O38: the invariant by its four parts; `end_pc` and the instruction set are in the frame of a step. -/
theorem stepKeepsTheInvariant : Obligations.StepKeepsTheInvariant :=
  fun _ _ h => ⟨step_keeps_inv h, step_keeps_endPcAligned h⟩

/-- Settles O10: the placed word tells its instruction set and decodes, as an encoding, to its instruction. -/
theorem loadedWordRunsNext : Obligations.LoadedWordRunsNext := by
  intro s i hwf
  refine step_loadWord ?_
  rw [tableWord_toNat, tableISet_encode]
  exact (decode_ok_iff_encode _ _ _).2 ⟨rfl, hwf, rfl⟩

/-- Settles O44: the two directions, by induction on the bound and on the number of steps. -/
theorem runEndsAtEndPc : Obligations.RunEndsAtEndPc :=
  fun _ _ _ => ⟨first_of_runToEnd_ended, fun _ => runToEnd_ended_of_first⟩

end Sys2Proof.Claims
end
